-- ==== Sys2Proof/Word.lean ====
section
/-! DEFINITION. The words of the bit-vector block (spec 00_scope.md R10, 30_encoding.md R71). -/

namespace Sys2Proof

/-- A bit-vector word, a key, a hash, `m`, `n`, a header or an operand word: 64 bits (R10, R70). -/
abbrev Word := BitVec 64

/-- A slot field of the header: 8 bits (R71). -/
abbrev SlotNum := BitVec 8

/-- The key count field `K32` of the header: 32 bits (R71). -/
abbrev KeyCount := BitVec 32

end Sys2Proof
end

