-- ==== Sys2Proof/Syntax.lean ====
section
/-! DEFINITION. Commands, decoded instructions, status names and responses (spec 30_encoding.md,
60_exceptions.md R150). -/

namespace Sys2Proof

/-- A command as a port presents it: the header word and the operand words, whole (R70). -/
structure Command where
  header : Word
  words  : List Word
  deriving DecidableEq, Repr

/-- A decoded command: one constructor per row of the opcode map (R74). The slot operands stand in
the order of the assembler syntax: `SD`, then `SA`, then `SB` (R83). The key count of `create` is the
length of its key list (R83). -/
inductive Instr where
  /-- `CREATE sD, m=M, keys=[...]` (R100). -/
  | create (sd : SlotNum) (m : Word) (keys : List Word)
  /-- `NEWCOMPAT sD, sA` (R101). -/
  | newcompat (sd sa : SlotNum)
  /-- `RELEASE sA` (R102). -/
  | release (sa : SlotNum)
  /-- `ADD sA, HASH` (R115). -/
  | add (sa : SlotNum) (hash : Word)
  /-- `ADDC sA, HASH` (R116). -/
  | addc (sa : SlotNum) (hash : Word)
  /-- `CONTAINS sA, HASH` (R117). -/
  | contains (sa : SlotNum) (hash : Word)
  /-- `GETM sA` (R110). -/
  | getm (sa : SlotNum)
  /-- `GETK sA` (R111). -/
  | getk (sa : SlotNum)
  /-- `GETN sA` (R112). -/
  | getn (sa : SlotNum)
  /-- `GETKEY sA, I` (R113). -/
  | getkey (sa : SlotNum) (index : Word)
  /-- `READWORD sA, J` (R114). -/
  | readword (sa : SlotNum) (index : Word)
  /-- `ISCOMPAT sA, sB` (R132). -/
  | iscompat (sa sb : SlotNum)
  /-- `VERIFYCOMPAT sA, sB` (R133). -/
  | verifycompat (sa sb : SlotNum)
  /-- `UNIONIP sA, sB` (R134). -/
  | unionip (sa sb : SlotNum)
  /-- `UNION sD, sA, sB` (R135). -/
  | union (sd sa sb : SlotNum)
  /-- `COPY sD, sA` (R136). -/
  | copy (sd sa : SlotNum)
  deriving DecidableEq, Repr

/-- The status names of R150. `Status.code` gives their numbers. -/
inductive Status where
  /-- The command completed. -/
  | ok
  /-- `CREATE` with `k < MIN_K`. -/
  | invalidKeyCount
  /-- `CREATE` with `m < MIN_M`. -/
  | invalidSize
  /-- `CREATE` with two equal keys. -/
  | duplicateKeys
  /-- Reserved for a host's serializer; the block never produces it (R151). -/
  | hashMismatch
  /-- `VERIFYCOMPAT`, `UNIONIP` or `UNION` on filters that are not compatible. -/
  | incompatible
  /-- `OP` is not in the opcode map (R76). -/
  | illegalOpcode
  /-- A nonzero reserved field, a wrong operand count, or an index out of range (R75, R77, R113, R114). -/
  | badOperand
  /-- A slot number out of range, or an operand slot that is not `VALID` (R62, R155). -/
  | badSlot
  /-- A destination slot that is not `FREE` (R63). -/
  | slotBusy
  /-- `CREATE` with `k > MAX_K` or `m > MAX_M` (R100). -/
  | resourceLimit
  deriving DecidableEq, Repr

/-- A response: a status and a result word (R80). -/
structure Response where
  status : Status
  result : Word
  deriving DecidableEq, Repr

end Sys2Proof
end

