-- ==== Sys2Proof/WellFormed.lean ====
section
/-! DEFINITION. The checks on a decoded instruction: what its encoding can carry (spec 30_encoding.md
R71, R78), and its slot numbers against the number of slots (R81 step 4). -/

namespace Sys2Proof

/-- The instruction has an encoding: the key count of a `CREATE` fits the 32-bit field `K32` (R71,
R73). Every other operand fits its field by its type. -/
def Instr.wellFormed : Instr → Bool
  | .create _ _ keys => decide (keys.length < 2 ^ 32)
  | .newcompat .. | .release .. | .add .. | .addc .. | .contains .. | .getm .. | .getk ..
  | .getn .. | .getkey .. | .readword .. | .iscompat .. | .verifycompat .. | .unionip ..
  | .union .. | .copy .. => true

/-- The slot fields a command uses (R74). -/
def Instr.slots : Instr → List SlotNum
  | .create sd _ _ => [sd]
  | .newcompat sd sa => [sd, sa]
  | .release sa => [sa]
  | .add sa _ => [sa]
  | .addc sa _ => [sa]
  | .contains sa _ => [sa]
  | .getm sa => [sa]
  | .getk sa => [sa]
  | .getn sa => [sa]
  | .getkey sa _ => [sa]
  | .readword sa _ => [sa]
  | .iscompat sa sb => [sa, sb]
  | .verifycompat sa sb => [sa, sb]
  | .unionip sa sb => [sa, sb]
  | .union sd sa sb => [sd, sa, sb]
  | .copy sd sa => [sd, sa]

/-- Every slot field the command uses names a slot: all of them are below `NUM_SLOTS` (R81 step 4,
R155 step 4). -/
def Instr.slotsBelow (numSlots : Nat) (i : Instr) : Bool :=
  i.slots.all fun x => decide (x.toNat < numSlots)

end Sys2Proof
end

