-- ==== Sys2Proof/Decode.lean ====
section
/-! DEFINITION. The header's fields, the opcode map, the decoder and the encoder (spec 30_encoding.md),
status numbers and response words (60_exceptions.md R150, R80), and the assembler syntax (R83). -/

namespace Sys2Proof

/-! ## The header word (R71) -/

/-- The five fields of the header word. -/
structure Header where
  op  : BitVec 8
  sa  : SlotNum
  sb  : SlotNum
  sd  : SlotNum
  k32 : KeyCount
  deriving DecidableEq, Repr

/-- The fields of a header word: `OP = H[7:0]`, `SA = H[15:8]`, `SB = H[23:16]`, `SD = H[31:24]`,
`K32 = H[63:32]` (R71, R73). -/
def Header.unpack (h : Word) : Header where
  op  := h.extractLsb' 0 8
  sa  := h.extractLsb' 8 8
  sb  := h.extractLsb' 16 8
  sd  := h.extractLsb' 24 8
  k32 := h.extractLsb' 32 32

/-- The header word with the given fields (R71). -/
def Header.pack (f : Header) : Word :=
  f.k32 ++ f.sd ++ f.sb ++ f.sa ++ f.op

/-! ## The opcode map (R74) -/

/-- The mnemonics of the opcode map. -/
inductive Op where
  | create | newcompat | release
  | add | addc | contains
  | getm | getk | getn | getkey | readword
  | iscompat | verifycompat | unionip | union | copy
  deriving DecidableEq, Repr

/-- The rows of the opcode map, in the map's order. -/
def Op.all : List Op :=
  [.create, .newcompat, .release, .add, .addc, .contains, .getm, .getk, .getn, .getkey, .readword,
   .iscompat, .verifycompat, .unionip, .union, .copy]

/-- The opcode value of a row (R74). -/
def Op.byte : Op → BitVec 8
  | .create       => 0x01#8
  | .newcompat    => 0x02#8
  | .release      => 0x03#8
  | .add          => 0x10#8
  | .addc         => 0x11#8
  | .contains     => 0x12#8
  | .getm         => 0x20#8
  | .getk         => 0x21#8
  | .getn         => 0x22#8
  | .getkey       => 0x23#8
  | .readword     => 0x24#8
  | .iscompat     => 0x30#8
  | .verifycompat => 0x31#8
  | .unionip      => 0x32#8
  | .union        => 0x33#8
  | .copy         => 0x34#8

/-- The row an opcode value selects, none for an illegal opcode (R74, R76). -/
def Op.ofByte (b : BitVec 8) : Option Op :=
  Op.all.find? fun o => o.byte == b

/-- The row's command uses `SA` (R74). -/
def Op.usesSA : Op → Bool
  | .create => false
  | .newcompat | .release | .add | .addc | .contains | .getm | .getk | .getn | .getkey | .readword
  | .iscompat | .verifycompat | .unionip | .union | .copy => true

/-- The row's command uses `SB` (R74). -/
def Op.usesSB : Op → Bool
  | .iscompat | .verifycompat | .unionip | .union => true
  | .create | .newcompat | .release | .add | .addc | .contains | .getm | .getk | .getn | .getkey
  | .readword | .copy => false

/-- The row's command uses `SD` (R74). -/
def Op.usesSD : Op → Bool
  | .create | .newcompat | .union | .copy => true
  | .release | .add | .addc | .contains | .getm | .getk | .getn | .getkey | .readword | .iscompat
  | .verifycompat | .unionip => false

/-- The row's command uses `K32` (R74). -/
def Op.usesK32 : Op → Bool
  | .create => true
  | .newcompat | .release | .add | .addc | .contains | .getm | .getk | .getn | .getkey | .readword
  | .iscompat | .verifycompat | .unionip | .union | .copy => false

/-- Every header field the row does not use is zero (R75). -/
def Op.reservedZero (o : Op) (f : Header) : Bool :=
  (o.usesSA || f.sa == 0#8) && (o.usesSB || f.sb == 0#8) &&
    (o.usesSD || f.sd == 0#8) && (o.usesK32 || f.k32 == 0#32)

/-- The number of operand words of a row's command (R78). -/
def Op.operandCount (o : Op) (k32 : KeyCount) : Nat :=
  match o with
  | .create => 1 + k32.toNat
  | .add | .addc | .contains | .getkey | .readword => 1
  | .newcompat | .release | .getm | .getk | .getn | .iscompat | .verifycompat | .unionip | .union
  | .copy => 0

/-- `N(H)`: a command's operand count from its header alone, 0 for an illegal opcode (R78). -/
def operandCount (h : Word) : Nat :=
  match Op.ofByte (Header.unpack h).op with
  | some o => o.operandCount (Header.unpack h).k32
  | none => 0

/-- The instruction a row, the header's fields and the operand words make (R72, R73). -/
def Op.assemble (o : Op) (f : Header) (words : List Word) : Instr :=
  match o with
  | .create       => .create f.sd (words.headD 0#64) words.tail
  | .newcompat    => .newcompat f.sd f.sa
  | .release      => .release f.sa
  | .add          => .add f.sa (words.headD 0#64)
  | .addc         => .addc f.sa (words.headD 0#64)
  | .contains     => .contains f.sa (words.headD 0#64)
  | .getm         => .getm f.sa
  | .getk         => .getk f.sa
  | .getn         => .getn f.sa
  | .getkey       => .getkey f.sa (words.headD 0#64)
  | .readword     => .readword f.sa (words.headD 0#64)
  | .iscompat     => .iscompat f.sa f.sb
  | .verifycompat => .verifycompat f.sa f.sb
  | .unionip      => .unionip f.sa f.sb
  | .union        => .union f.sd f.sa f.sb
  | .copy         => .copy f.sd f.sa

/-- The decoder: total on every command, rejecting by the status the spec names, in the order of
R155 steps 1 to 3 (R81). Step 4, the slot numbers against `NUM_SLOTS`, needs the configuration and
is made in the same decode step by `Machine.State.issue`. -/
def decode (c : Command) : Except Status Instr :=
  match Op.ofByte (Header.unpack c.header).op with
  | none => .error .illegalOpcode
  | some o =>
    if !o.reservedZero (Header.unpack c.header) then .error .badOperand
    else if c.words.length != o.operandCount (Header.unpack c.header).k32 then .error .badOperand
    else .ok (o.assemble (Header.unpack c.header) c.words)

/-- The rows of opcode_table.json: the row, its mask and its match. The decoder does not use them; a
claim holds the decoder against them. -/
def opcodeTable : List (Op × Word × Word) :=
  [(.create, 0x0000000000FFFFFF#64, 0x0000000000000001#64),
   (.newcompat, 0xFFFFFFFF00FF00FF#64, 0x0000000000000002#64),
   (.release, 0xFFFFFFFFFFFF00FF#64, 0x0000000000000003#64),
   (.add, 0xFFFFFFFFFFFF00FF#64, 0x0000000000000010#64),
   (.addc, 0xFFFFFFFFFFFF00FF#64, 0x0000000000000011#64),
   (.contains, 0xFFFFFFFFFFFF00FF#64, 0x0000000000000012#64),
   (.getm, 0xFFFFFFFFFFFF00FF#64, 0x0000000000000020#64),
   (.getk, 0xFFFFFFFFFFFF00FF#64, 0x0000000000000021#64),
   (.getn, 0xFFFFFFFFFFFF00FF#64, 0x0000000000000022#64),
   (.getkey, 0xFFFFFFFFFFFF00FF#64, 0x0000000000000023#64),
   (.readword, 0xFFFFFFFFFFFF00FF#64, 0x0000000000000024#64),
   (.iscompat, 0xFFFFFFFFFF0000FF#64, 0x0000000000000030#64),
   (.verifycompat, 0xFFFFFFFFFF0000FF#64, 0x0000000000000031#64),
   (.unionip, 0xFFFFFFFFFF0000FF#64, 0x0000000000000032#64),
   (.union, 0xFFFFFFFF000000FF#64, 0x0000000000000033#64),
   (.copy, 0xFFFFFFFF00FF00FF#64, 0x0000000000000034#64)]

/-! ## The encoder -/

/-- The row of an instruction (R74). -/
def Instr.op : Instr → Op
  | .create ..       => .create
  | .newcompat ..    => .newcompat
  | .release ..      => .release
  | .add ..          => .add
  | .addc ..         => .addc
  | .contains ..     => .contains
  | .getm ..         => .getm
  | .getk ..         => .getk
  | .getn ..         => .getn
  | .getkey ..       => .getkey
  | .readword ..     => .readword
  | .iscompat ..     => .iscompat
  | .verifycompat .. => .verifycompat
  | .unionip ..      => .unionip
  | .union ..        => .union
  | .copy ..         => .copy

/-- The command of an instruction's row with the given slot fields and operand words. -/
def Op.command (o : Op) (sd sa sb : SlotNum) (k32 : KeyCount) (words : List Word) : Command where
  header := Header.pack { op := o.byte, sa := sa, sb := sb, sd := sd, k32 := k32 }
  words  := words

/-- The encoder, from the tables of R71, R72 and R74; the fields a command does not use are 0. -/
def encode : Instr → Command
  | .create sd m keys    => Op.create.command sd 0#8 0#8 (BitVec.ofNat 32 keys.length) (m :: keys)
  | .newcompat sd sa     => Op.newcompat.command sd sa 0#8 0#32 []
  | .release sa          => Op.release.command 0#8 sa 0#8 0#32 []
  | .add sa hash         => Op.add.command 0#8 sa 0#8 0#32 [hash]
  | .addc sa hash        => Op.addc.command 0#8 sa 0#8 0#32 [hash]
  | .contains sa hash    => Op.contains.command 0#8 sa 0#8 0#32 [hash]
  | .getm sa             => Op.getm.command 0#8 sa 0#8 0#32 []
  | .getk sa             => Op.getk.command 0#8 sa 0#8 0#32 []
  | .getn sa             => Op.getn.command 0#8 sa 0#8 0#32 []
  | .getkey sa index     => Op.getkey.command 0#8 sa 0#8 0#32 [index]
  | .readword sa index   => Op.readword.command 0#8 sa 0#8 0#32 [index]
  | .iscompat sa sb      => Op.iscompat.command 0#8 sa sb 0#32 []
  | .verifycompat sa sb  => Op.verifycompat.command 0#8 sa sb 0#32 []
  | .unionip sa sb       => Op.unionip.command 0#8 sa sb 0#32 []
  | .union sd sa sb      => Op.union.command sd sa sb 0#32 []
  | .copy sd sa          => Op.copy.command sd sa 0#8 0#32 []

/-! ## A command as a number (the numbering of opcode_table.json) -/

/-- The command whose bits are the low `nbits` bits of `w`, numbered from bit 0 of the header word, a
later word's bits counting on; bits above `nbits` are 0 and the number of operand words is `N(H)`
(log entry 12). -/
def commandOfBits (nbits w : Nat) : Command :=
  let bits := w % 2 ^ nbits
  let header := BitVec.ofNat 64 bits
  { header := header
    words  := (List.range (operandCount header)).map fun j =>
      BitVec.ofNat 64 (bits >>> (64 * (j + 1))) }

/-- The instruction the decoder reads from a row's bits, none where it refuses them. -/
def decodeTableWord (nbits w : Nat) : Option Instr :=
  (decode (commandOfBits nbits w)).toOption

/-! ## Status numbers, response words, bytes -/

/-- The status code (R150). -/
def Status.code : Status → BitVec 8
  | .ok              => 0x00#8
  | .invalidKeyCount => 0x01#8
  | .invalidSize     => 0x02#8
  | .duplicateKeys   => 0x03#8
  | .hashMismatch    => 0x04#8
  | .incompatible    => 0x05#8
  | .illegalOpcode   => 0x10#8
  | .badOperand      => 0x11#8
  | .badSlot         => 0x12#8
  | .slotBusy        => 0x13#8
  | .resourceLimit   => 0x14#8

/-- A response on a word transport: `zext_64(STATUS)`, then `RESULT` (R80). -/
def Response.words (r : Response) : List Word :=
  [r.status.code.setWidth 64, r.result]

/-- A command on a word transport: the header, then the operand words (R70). -/
def Command.allWords (c : Command) : List Word :=
  c.header :: c.words

/-- A word on a transport of bytes: least-significant byte first, byte `b` holding bits
`[8b+7 : 8b]` (R43). -/
def wordBytes (w : Word) : List (BitVec 8) :=
  (List.range 8).map fun b => w.extractLsb' (8 * b) 8

/-! ## Assembler syntax (R83) -/

/-- A slot operand, `s<number>`. -/
def asmSlot (x : SlotNum) : String := "s" ++ toString x.toNat

/-- A number, in decimal. -/
def asmNumber (w : Word) : String := toString w.toNat

/-- The assembly line of an instruction (R83). -/
def Instr.asm : Instr → String
  | .create sd m keys    => "CREATE " ++ asmSlot sd ++ ", m=" ++ asmNumber m ++ ", keys=["
                              ++ ", ".intercalate (keys.map asmNumber) ++ "]"
  | .newcompat sd sa     => "NEWCOMPAT " ++ asmSlot sd ++ ", " ++ asmSlot sa
  | .release sa          => "RELEASE " ++ asmSlot sa
  | .add sa hash         => "ADD " ++ asmSlot sa ++ ", " ++ asmNumber hash
  | .addc sa hash        => "ADDC " ++ asmSlot sa ++ ", " ++ asmNumber hash
  | .contains sa hash    => "CONTAINS " ++ asmSlot sa ++ ", " ++ asmNumber hash
  | .getm sa             => "GETM " ++ asmSlot sa
  | .getk sa             => "GETK " ++ asmSlot sa
  | .getn sa             => "GETN " ++ asmSlot sa
  | .getkey sa index     => "GETKEY " ++ asmSlot sa ++ ", " ++ asmNumber index
  | .readword sa index   => "READWORD " ++ asmSlot sa ++ ", " ++ asmNumber index
  | .iscompat sa sb      => "ISCOMPAT " ++ asmSlot sa ++ ", " ++ asmSlot sb
  | .verifycompat sa sb  => "VERIFYCOMPAT " ++ asmSlot sa ++ ", " ++ asmSlot sb
  | .unionip sa sb       => "UNIONIP " ++ asmSlot sa ++ ", " ++ asmSlot sb
  | .union sd sa sb      => "UNION " ++ asmSlot sd ++ ", " ++ asmSlot sa ++ ", " ++ asmSlot sb
  | .copy sd sa          => "COPY " ++ asmSlot sd ++ ", " ++ asmSlot sa

end Sys2Proof
end

