-- ==== Sys2Proof/Config.lean ====
section
/-! DEFINITION. The configuration (spec 00_scope.md R6 to R9, R11) and the free values: what the spec
leaves open and a run may take to be anything. -/

namespace Sys2Proof

/-- `LOCK_ORDER` (R9): the order in which a two-filter command acquires its guards. -/
inductive LockOrder where
  /-- Ascending slot number: the spec's default. -/
  | canonical
  /-- Operand order, `SA` then `SB`: the source's behaviour. -/
  | argOrder
  deriving DecidableEq, Repr

/-- The parameters of the block (R6 to R9). They are fixed for a run and are not state (R20); State
carries them so that a statement about every state is one about every configuration (log entry 1). -/
structure Config where
  numSlots  : Nat
  numPorts  : Nat
  minM      : Nat
  minK      : Nat
  maxM      : Nat
  maxK      : Nat
  lockOrder : LockOrder
  deriving DecidableEq, Repr

/-- The bounds R6 to R8 set on the parameters. -/
def Config.legal (c : Config) : Bool :=
  decide (1 ≤ c.numSlots ∧ c.numSlots ≤ 256 ∧ 1 ≤ c.numPorts ∧
    1 ≤ c.minM ∧ c.minM ≤ c.maxM ∧ c.maxM ≤ 2 ^ 64 - 1 ∧
    1 ≤ c.minK ∧ c.minK ≤ c.maxK ∧ c.maxK ≤ 2 ^ 32 - 1)

/-- TESTCFG (R11), the configuration of the spec's own vectors. DESIGN CHOICE (log entry 1): the one
the model's `State.reset` uses. -/
def Config.testcfg : Config where
  numSlots  := 4
  numPorts  := 2
  minM      := 2
  minK      := 1
  maxM      := 4096
  maxK      := 16
  lockOrder := .canonical

/-- Which of the enabled ports moves where the schedule in State says nothing (R47, R54; 93 I8, I20;
log entry 3). A free value: nothing constrains it. -/
opaque Config.freeChoice : Nat → Nat

/-- `m` of a slot after `RELEASE` (R102, 93 I10; log entry 5). A free value. -/
opaque Config.freeBitCount : Nat → Word

/-- `k` of a slot after `RELEASE` (R102, 93 I10; log entry 5). A free value. -/
opaque Config.freeKeyCount : Nat → KeyCount

/-- The keys of a slot after `RELEASE` (R102, 93 I10; log entry 5). A free value. -/
opaque Config.freeKeys : Nat → List Word

/-- The words of a slot after `RELEASE` (R102, 93 I10; log entry 5). A free value. -/
opaque Config.freeBits : Nat → List (Nat × Word)

/-- `n` of a slot after `RELEASE` (R102, 93 I10; log entry 5). A free value. -/
opaque Config.freeCount : Nat → Word

end Sys2Proof
end

