-- ==== Sys2Proof/Machine/State.lean ====
section
/-! DEFINITION. The whole state of the block (spec 10_state.md R20 to R34) as plain data, its stops,
and its reset values. -/

namespace Sys2Proof.Machine

/-- The words of one slot's bit vector (R24, R40): pairs of a word index and a word, the indices
rising, no word 0 listed; an unlisted word reads 0 (log entry 9). -/
abbrev Memory := List (Nat × Word)

/-- The lifecycle state of a slot (R21). -/
inductive SlotState where
  /-- The slot holds no filter. -/
  | free
  /-- A `COPY` or `UNION` in flight is building a filter in the slot. -/
  | reserved
  /-- The slot holds a filter. -/
  | valid
  deriving DecidableEq, Repr

/-- One filter slot (R21 to R27). While `st` is not `valid`, the fields `m`, `k`, `keys`, `bits` and
`n` are unspecified and unobservable (R28). -/
structure Slot where
  /-- The lifecycle state (R21). -/
  st   : SlotState
  /-- The bit count (R22). -/
  m    : Word
  /-- The key count (R23). -/
  k    : KeyCount
  /-- The keys, in order (R23). -/
  keys : List Word
  /-- The bit vector's words (R24). -/
  bits : Memory
  /-- The insertion counter (R26). -/
  n    : Word
  /-- How many commands hold the guard in shared mode (R27). -/
  rd   : Nat
  /-- The port holding the guard in exclusive mode (R27). -/
  wr   : Option Nat
  deriving DecidableEq, Repr

/-- The two modes of a guard (R50). -/
inductive Mode where
  | shared
  | exclusive
  deriving DecidableEq, Repr

/-- The phase of a command within its pseudocode (R30; log entry 10): which micro-step is next. -/
inductive Phase where
  /-- The reservation step of `COPY` and `UNION`. -/
  | reserve
  /-- The acquisition of the next guard. -/
  | acquire
  /-- The load step for key number `pos` (`ADDC`, `CONTAINS`). -/
  | load
  /-- The set step for key number `pos` (`ADD`, `ADDC`). -/
  | set
  /-- The last, or the only, micro-step. -/
  | body
  deriving DecidableEq, Repr

/-- The micro-state of a command in flight (R30). -/
structure MicroState where
  /-- The decoded command. -/
  cmd      : Instr
  /-- The guards the command holds, each a slot number with its mode. -/
  held     : List (Nat × Mode)
  /-- The destination slot it reserved. -/
  reserved : Option Nat
  /-- Its loop position over the keys. -/
  pos      : Nat
  /-- Its accumulated flag (`ADDC`, `CONTAINS`). -/
  flag     : Bool
  /-- Its phase. -/
  phase    : Phase
  deriving DecidableEq, Repr

/-- One request port (R29). -/
structure Port where
  /-- The port's command list, an argument of the run (log entry 2). -/
  prog : List Command
  /-- The index in `prog` of the next command to issue. -/
  pc   : Nat
  /-- The command in flight. -/
  busy : Option MicroState
  /-- The responses delivered so far, in order. -/
  resp : List Response
  deriving DecidableEq, Repr

/-- The state of the block (R20), with the configuration and the model's own three fields. -/
structure State where
  /-- The configuration: fixed for the run (R6 to R9; log entry 1). -/
  cfg      : Config
  /-- The filter slots (R21 to R27). -/
  slots    : List Slot
  /-- The request ports (R29, R30). -/
  ports    : List Port
  /-- The model's own: the port whose micro-step is being taken (log entry 3). -/
  turn     : Nat
  /-- The model's own: the arbitration choices of the coming steps (R47, R54; log entry 3). -/
  schedule : List Nat
  /-- The model's own: the counter the free values are read at (log entries 3 and 5). -/
  fresh    : Nat
  deriving DecidableEq, Repr

/-- Why a step stops. None of these is an error of the spec, whose errors are responses (R161); all
are safe: the model goes no further than the spec gives it a transition (log entries 6 and 7). -/
inductive Fault where
  /-- Raised by `step` where every port is done: the run has ended (R183). Safe. -/
  | runEnded
  /-- Raised by `step` where the run has not ended and no port has an enabled micro-step: a deadlock
  (R183, R185). Safe. -/
  | stuck
  /-- Raised by a guard acquisition, `RELEASE` and `READWORD` where the await is false: the micro-step
  is not enabled (R14). `step` never picks such a port. Safe. -/
  | waiting
  /-- Raised by `stepPort` for a port whose list is done (R82, R168). `step` never picks such a port.
  Safe. -/
  | idle
  /-- Raised by `stepPort` and every meaning for a port number at or above `NUM_PORTS`, which names no
  port (R7). Safe. -/
  | noPort
  /-- Raised by a meaning for a micro-state whose phase the command's pseudocode does not have (R30);
  no run reaches one. Safe. -/
  | badMicroState
  deriving DecidableEq, Repr

/-- Why an instruction has no meaning. -/
inductive Refusal where
  /-- Raised by `exec` for an instruction that has no meaning in the model; no arm raises it. Safe. -/
  | notModelled (mnemonic : String)
  deriving DecidableEq, Repr

/-- The outcome of a micro-step. -/
abbrev Result := Host.Outcome State Fault Refusal

/-- A slot after reset (R34): `FREE`, its guard idle. The five fields R34 leaves unspecified are 0 or
empty: DESIGN CHOICE, log entry 4. -/
def Slot.reset : Slot where
  st   := .free
  m    := 0#64
  k    := 0#32
  keys := []
  bits := []
  n    := 0#64
  rd   := 0
  wr   := none

/-- A port after reset (R34), its command list empty (log entry 2). -/
def Port.reset : Port where
  prog := []
  pc   := 0
  busy := none
  resp := []

/-- The state after reset in a given configuration (R34, R180). -/
def State.resetOf (cfg : Config) : State where
  cfg      := cfg
  slots    := List.replicate cfg.numSlots Slot.reset
  ports    := List.replicate cfg.numPorts Port.reset
  turn     := 0
  schedule := []
  fresh    := 0

/-- The state after reset in TESTCFG (R11, R34; log entry 1). -/
def State.reset : State := State.resetOf Config.testcfg

end Sys2Proof.Machine
end

