-- ==== Sys2Proof/Machine/Ops.lean ====
section
/-! DEFINITION. The named operations over storage, slots, ports and guards (spec 00_scope.md R13, R14,
20_memory.md R40 to R63): every meaning is written over these. -/

namespace Sys2Proof.Machine

/-! ## The words of a bit vector -/

/-- The word at an index; an unlisted word reads 0 (log entry 9). -/
def Memory.load (mem : Memory) (j : Nat) : Word :=
  match mem with
  | [] => 0#64
  | (a, w) :: rest => if a = j then w else Memory.load rest j

/-- The memory with word `j` written, in the one canonical form: a word 0 is not listed. -/
def Memory.store (mem : Memory) (j : Nat) (v : Word) : Memory :=
  match mem with
  | [] => if v = 0#64 then [] else [(j, v)]
  | (a, w) :: rest =>
    if j < a then (if v = 0#64 then (a, w) :: rest else (j, v) :: (a, w) :: rest)
    else if j = a then (if v = 0#64 then rest else (j, v) :: rest)
    else (a, w) :: Memory.store rest j v

/-- The canonical form: indices strictly rising, no word 0 listed. -/
def Memory.wf (mem : Memory) : Bool :=
  match mem with
  | [] => true
  | (a, w) :: rest => w != 0#64 && rest.all (fun c => decide (a < c.1)) && Memory.wf rest

/-- A bit vector of zero words (R100, R101). -/
def Memory.zero : Memory := []

/-- The words `f 0 .. f (count - 1)`, in index order; it lists no word 0. -/
def Memory.build (count : Nat) (f : Nat → Word) : Memory :=
  (List.range count).filterMap fun j => if f j = 0#64 then none else some (j, f j)

/-- The memory that holds the listed words, later ones winning, in canonical form. -/
def Memory.ofList (cells : List (Nat × Word)) : Memory :=
  cells.foldl (fun mem c => Memory.store mem c.1 c.2) Memory.zero

/-- `W(m) = ceil(m / 64)`, over the natural numbers (R12). -/
def wordCount (m : Word) : Nat := (m.toNat + 63) / 64

/-! ## Slots and ports -/

/-- Slot `x`; a number that names no slot reads as a slot that holds nothing (log entry 7). -/
def State.slot (s : State) (x : Nat) : Slot := s.slots.getD x Slot.reset

/-- Slot `x` changed; a number that names no slot changes nothing (log entry 7). -/
def State.modifySlot (s : State) (x : Nat) (f : Slot → Slot) : State :=
  { s with slots := s.slots.modify x f }

/-- Port `p`; a number that names no port reads as an idle port without commands (log entry 7). -/
def State.port (s : State) (p : Nat) : Port := s.ports.getD p Port.reset

/-- Port `p` changed; a number that names no port changes nothing (log entry 7). -/
def State.modifyPort (s : State) (p : Nat) (f : Port → Port) : State :=
  { s with ports := s.ports.modify p f }

/-- Slot `x` holds a filter (R21, R62). -/
def State.isValid (s : State) (x : Nat) : Bool := (s.slot x).st == .valid

/-- Slot `x` is free (R21, R63). -/
def State.isFree (s : State) (x : Nat) : Bool := (s.slot x).st == .free

/-! ## Storage primitives (R13, R45) -/

/-- `WordLoad(x, j)`: word `j` of slot `x`. -/
def State.wordLoad (s : State) (x j : Nat) : Word := Memory.load (s.slot x).bits j

/-- `WordStore(x, j, v)`: word `j` of slot `x` becomes `v`. -/
def State.wordStore (s : State) (x j : Nat) (v : Word) : State :=
  s.modifySlot x fun t => { t with bits := Memory.store t.bits j v }

/-- `WordOr(x, j, v)`: word `j` of slot `x` becomes `word OR v` (R64). -/
def State.wordOr (s : State) (x j : Nat) (v : Word) : State :=
  s.wordStore x j (s.wordLoad x j ||| v)

/-- `CounterInc(x)`: `n` becomes `(n + 1) mod 2^64` (R121). -/
def State.counterInc (s : State) (x : Nat) : State :=
  s.modifySlot x fun t => { t with n := t.n + 1 }

/-- `CounterLoad(x)`: the insertion counter. -/
def State.counterLoad (s : State) (x : Nat) : Word := (s.slot x).n

/-! ## The end of a command (R14, R53) -/

/-- The command in flight of the port whose turn it is. -/
def State.inFlight (s : State) : Option MicroState := (s.port s.turn).busy

/-- Release one guard: shared mode counts one holder less, exclusive mode has no holder (R53). -/
def State.releaseGuard (s : State) (g : Nat × Mode) : State :=
  match g.2 with
  | .shared => s.modifySlot g.1 fun t => { t with rd := t.rd - 1 }
  | .exclusive => s.modifySlot g.1 fun t => { t with wr := none }

/-- Release every guard the command in flight holds (R53). -/
def State.releaseGuards (s : State) : State :=
  match s.inFlight with
  | none => s
  | some mu => mu.held.foldl State.releaseGuard s

/-- Return the slot the command in flight reserved to `FREE` (R14, R21). -/
def State.freeReserved (s : State) : State :=
  match s.inFlight.bind MicroState.reserved with
  | none => s
  | some x => s.modifySlot x fun t => { t with st := .free }

/-- `respond(status, result)` (R14): the response is delivered, no command is in flight, and the
port's command index advances. -/
def State.respond (s : State) (status : Status) (result : Word) : State :=
  s.modifyPort s.turn fun p =>
    { p with busy := none, pc := p.pc + 1, resp := p.resp ++ [{ status := status, result := result }] }

/-- Release every guard the command holds, then respond: the end of a command that succeeds (R53). -/
def State.finish (s : State) (status : Status) (result : Word) : State :=
  s.releaseGuards.respond status result

/-- `fail(status, result)` (R14): release every guard the command holds, return the slot it reserved
to `FREE`, then respond. This is the block's one way to report an error (R156, R161). -/
def State.fail (s : State) (status : Status) (result : Word) : State :=
  s.releaseGuards.freeReserved.respond status result

/-! ## The command in flight (R30) -/

/-- The micro-state of the port whose turn it is becomes `mu`. -/
def State.setInFlight (s : State) (mu : MicroState) : State :=
  s.modifyPort s.turn fun p => { p with busy := some mu }

/-- The first phase of a command's pseudocode (R82's phase 0; log entry 10). -/
def firstPhase : Instr → Phase
  | .add .. | .addc .. | .contains .. | .iscompat .. | .verifycompat .. | .unionip .. => .acquire
  | .union .. | .copy .. => .reserve
  | .create .. | .newcompat .. | .release .. | .getm .. | .getk .. | .getn .. | .getkey ..
  | .readword .. => .body

/-- The initial micro-state of a command (R82): its first phase, no guards, no reservation, the loop
at key 0 and the flag 1. -/
def MicroState.init (i : Instr) : MicroState where
  cmd      := i
  held     := []
  reserved := none
  pos      := 0
  flag     := true
  phase    := firstPhase i

/-- The decode step of a command the decoder accepted (R82): the slot numbers are compared with
`NUM_SLOTS` (R155 step 4), and the command is in flight. -/
def State.issue (s : State) (i : Instr) : State :=
  if i.slotsBelow s.cfg.numSlots then s.setInFlight (MicroState.init i)
  else s.respond .badSlot 0#64

/-- What every meaning shares: the port whose turn it is issues the command where it is idle, and
otherwise takes the next micro-step of the command in flight (R14, R82). -/
def State.microStep (s : State) (i : Instr) (next : MicroState → Result) : Result :=
  match s.ports[s.turn]? with
  | none => .fault .noPort
  | some p =>
    match p.busy with
    | none => .next (s.issue i)
    | some mu => next mu

/-- The shape of a command with one micro-step after decode. -/
def State.oneStep (s : State) (i : Instr) (body : MicroState → Result) : Result :=
  s.microStep i fun mu =>
    match mu.phase with
    | .body => body mu
    | .reserve | .acquire | .load | .set => .fault .badMicroState

/-! ## The guard (R50 to R57) -/

/-- The await of a shared acquisition: no exclusive holder (R51). -/
def State.sharedGrantable (s : State) (x : Nat) : Bool := (s.slot x).wr == none

/-- The await of an exclusive acquisition: no holder at all (R52). -/
def State.exclusiveGrantable (s : State) (x : Nat) : Bool :=
  (s.slot x).wr == none && (s.slot x).rd == 0

/-- Shared acquisition of slot `x` (R51); the command goes on in the given phase. -/
def State.acquireShared (s : State) (mu : MicroState) (x : Nat) (phase : Phase) : Result :=
  if !s.sharedGrantable x then .fault .waiting
  else if !s.isValid x then .next (s.fail .badSlot 0#64)
  else .next ((s.modifySlot x fun t => { t with rd := t.rd + 1 }).setInFlight
    { mu with held := mu.held ++ [(x, .shared)], phase := phase })

/-- Exclusive acquisition of slot `x` (R52); the command goes on in the given phase. -/
def State.acquireExclusive (s : State) (mu : MicroState) (x : Nat) (phase : Phase) : Result :=
  if !s.exclusiveGrantable x then .fault .waiting
  else if !s.isValid x then .next (s.fail .badSlot 0#64)
  else .next ((s.modifySlot x fun t => { t with wr := some s.turn }).setInFlight
    { mu with held := mu.held ++ [(x, .exclusive)], phase := phase })

/-- `LockOrder(SA, SB)` (R56, R57). -/
def lockOrder (mode : LockOrder) (a b : Nat) : List Nat :=
  if a = b then [a]
  else
    match mode with
    | .canonical => [min a b, max a b]
    | .argOrder => [a, b]

/-- The acquisition of the next guard of a list: the command holds a guard for each earlier slot of
the list, and goes on to its body once it holds them all (R56, R58). -/
def State.acquireNext (s : State) (mu : MicroState) (order : List Nat) : Result :=
  match order[mu.held.length]? with
  | none => .fault .badMicroState
  | some x =>
    s.acquireExclusive mu x (if mu.held.length + 1 = order.length then .body else .acquire)

/-- The reservation step of `COPY` and `UNION` (R63, R135, R136). -/
def State.reserve (s : State) (mu : MicroState) (x : Nat) : Result :=
  if !s.isFree x then .next (s.fail .slotBusy 0#64)
  else .next ((s.modifySlot x fun t => { t with st := .reserved }).setInFlight
    { mu with reserved := some x, phase := .acquire })

/-! ## Filling and freeing a slot (R21) -/

/-- Slot `x` receives a filter and becomes `VALID`; its guard is untouched (R100, R101, R135, R136). -/
def State.fillSlot (s : State) (x : Nat) (m : Word) (k : KeyCount) (keys : List Word) (bits : Memory)
    (n : Word) : State :=
  s.modifySlot x fun t => { t with st := .valid, m := m, k := k, keys := keys, bits := bits, n := n }

/-- Slot `x` becomes `FREE`, and its `m`, `k`, `keys`, `bits` and `n` become unspecified: free values,
read at the counter `fresh` (R102; log entry 5). -/
def State.freeSlot (s : State) (x : Nat) : State :=
  s.modifySlot x fun t =>
    { t with
      st   := .free
      m    := Config.freeBitCount s.fresh
      k    := Config.freeKeyCount s.fresh
      keys := Config.freeKeys s.fresh
      bits := Memory.ofList (Config.freeBits s.fresh)
      n    := Config.freeCount s.fresh }

end Sys2Proof.Machine
end

