-- ==== Sys2Proof/Machine/Operands.lean ====
section
/-! DEFINITION. How the operands of a command select what it acts on: the index derivation of the
hash operand (spec 00_scope.md R15, 41_core.md R121), the keys, and the slots of the two-filter
commands (20_memory.md R56). -/

namespace Sys2Proof.Machine

/-- `Index(h, key, m) = (h XOR key) mod m` (R15, R121). -/
def bitIndex (h key m : Word) : Nat := (h ^^^ key).toNat % m.toNat

/-- The word of a bit index (R15). -/
def bitWord (i : Nat) : Nat := i / 64

/-- The mask of a bit index within its word (R15). -/
def bitMask (i : Nat) : Word := 1#64 <<< (i % 64)

/-- Bit `i` of slot `x`'s vector: `(WordLoad(x, i div 64) >> (i mod 64)) AND 1` (R24, R116). -/
def State.bit (s : State) (x i : Nat) : Bool := (s.wordLoad x (bitWord i)).getLsbD (i % 64)

/-- `keys[i]` of slot `x` (R23). -/
def State.key (s : State) (x i : Nat) : Word := (s.slot x).keys.getD i 0#64

/-- The key count of slot `x` as a number (R23). -/
def State.keyCount (s : State) (x : Nat) : Nat := (s.slot x).k.toNat

/-- The bit index that hash `h` and key number `i` of slot `x` select (R115). -/
def State.target (s : State) (x : Nat) (h : Word) (i : Nat) : Nat :=
  bitIndex h (s.key x i) (s.slot x).m

/-- The phase of a loop over the keys of slot `x` at key number `i`: the loop's own while a key is
left, else the command's last micro-step (R115 to R117). -/
def State.loopPhase (s : State) (x i : Nat) (inLoop : Phase) : Phase :=
  if i < s.keyCount x then inLoop else .body

/-- Set the bit that hash `h` and key number `i` of slot `x` select (R115, R116). -/
def State.setTarget (s : State) (x : Nat) (h : Word) (i : Nat) : State :=
  s.wordOr x (bitWord (s.target x h i)) (bitMask (s.target x h i))

/-- The slots a two-filter command locks, in the configuration's order (R56). -/
def State.lockList (s : State) (sa sb : SlotNum) : List Nat :=
  lockOrder s.cfg.lockOrder sa.toNat sb.toNat

end Sys2Proof.Machine
end

