-- ==== Sys2Proof/Machine/Flags.lean ====
section
/-! DEFINITION. The flag a command accumulates and returns, and the comparator (spec 41_core.md R116,
R117, 42_union.md R130, R131). The block has no condition flags (10_state.md R31). -/

namespace Sys2Proof.Machine

/-- A flag as a result word, 0 or 1 (R80). -/
def flagWord (b : Bool) : Word := if b then 1#64 else 0#64

/-- `flag AND prior`: the flag after the load step for the bit that hash `h` and key number `i` of slot
`x` select (R116, R117). -/
def State.andBit (s : State) (x : Nat) (h : Word) (i : Nat) (flag : Bool) : Bool :=
  flag && s.bit x (s.target x h i)

/-- The OR of the per-position XORs of the first `k` keys: every position, no early exit (R131). -/
def keyDiff (k : Nat) (a b : List Word) : Word :=
  (List.range k).foldl (fun acc i => acc ||| (a.getD i 0#64 ^^^ b.getD i 0#64)) 0#64

/-- The key sequences differ (R131): always where the counts differ. -/
def keysDiffer (a b : Slot) : Bool :=
  a.k != b.k || keyDiff a.k.toNat a.keys b.keys != 0#64

/-- `CompatMask(a, b)`: bit 0 size, bit 1 key count, bit 2 keys (R131). -/
def compatMask (a b : Slot) : Word :=
  (if keysDiffer a b then 4#64 else 0#64) ||| (if a.k != b.k then 2#64 else 0#64) |||
    (if a.m != b.m then 1#64 else 0#64)

/-- `CompatMask(SA, SB)` of two slots of the state. -/
def State.compat (s : State) (sa sb : SlotNum) : Word :=
  compatMask (s.slot sa.toNat) (s.slot sb.toNat)

/-- The word-wise OR of two bit vectors of `count` words (R134, R135, R138). -/
def mergeWords (count : Nat) (a b : Memory) : Memory :=
  Memory.build count fun j => Memory.load a j ||| Memory.load b j

/-- The words `0 .. count - 1` of a bit vector (R136). -/
def copyWords (count : Nat) (a : Memory) : Memory :=
  Memory.build count fun j => Memory.load a j

end Sys2Proof.Machine
end

