-- ==== Sys2Proof/Machine/BitVector.lean ====
section
/-! DEFINITION. The bit-vector core commands: the reads, and insert and test (spec 41_core.md). -/

namespace Sys2Proof.Machine

/-! ## Reads -/

/-- A read that takes no guard: `BadSlot` on a slot that is not `VALID`, else what `read` answers
(R110 to R113). -/
def State.readSlot (s : State) (x : Nat) (read : Slot → Status × Word) : Result :=
  if !s.isValid x then .next (s.fail .badSlot 0#64)
  else
    match read (s.slot x) with
    | (.ok, v) => .next (s.finish .ok v)
    | (status, v) => .next (s.fail status v)

/-- `GETM sA` (R110): the bit count. -/
def execGetm (sa : SlotNum) (s : State) : Result :=
  s.oneStep (.getm sa) fun _ => s.readSlot sa.toNat fun t => (.ok, t.m)

/-- `GETK sA` (R111): the key count, zero-extended. -/
def execGetk (sa : SlotNum) (s : State) : Result :=
  s.oneStep (.getk sa) fun _ => s.readSlot sa.toNat fun t => (.ok, t.k.setWidth 64)

/-- `GETN sA` (R112): the insertion count. -/
def execGetn (sa : SlotNum) (s : State) : Result :=
  s.oneStep (.getn sa) fun _ => s.readSlot sa.toNat fun _ => (.ok, s.counterLoad sa.toNat)

/-- `GETKEY sA, I` (R113): key number `I`, `BadOperand` where there is none. -/
def execGetkey (sa : SlotNum) (index : Word) (s : State) : Result :=
  s.oneStep (.getkey sa index) fun _ =>
    s.readSlot sa.toNat fun _ =>
      if index.toNat ≥ s.keyCount sa.toNat then (.badOperand, 0#64)
      else (.ok, s.key sa.toNat index.toNat)

/-- `READWORD sA, J` (R114): word `J`, `BadOperand` where there is none. The shared guard is taken and
released within the step, which waits while an exclusive command holds the slot. -/
def execReadword (sa : SlotNum) (index : Word) (s : State) : Result :=
  s.oneStep (.readword sa index) fun _ =>
    if !s.sharedGrantable sa.toNat then .fault .waiting
    else
      s.readSlot sa.toNat fun t =>
        if index.toNat ≥ wordCount t.m then (.badOperand, 0#64)
        else (.ok, s.wordLoad sa.toNat index.toNat)

/-! ## Insert and test -/

/-- `ADD sA, HASH` (R115): the shared guard; one set step per key, in key order; then `n` grows by 1
and the guard is released. -/
def execAdd (sa : SlotNum) (hash : Word) (s : State) : Result :=
  s.microStep (.add sa hash) fun mu =>
    match mu.phase with
    | .acquire => s.acquireShared mu sa.toNat (s.loopPhase sa.toNat mu.pos .set)
    | .set =>
      .next ((s.setTarget sa.toNat hash mu.pos).setInFlight
        { mu with pos := mu.pos + 1, phase := s.loopPhase sa.toNat (mu.pos + 1) .set })
    | .body => .next ((s.counterInc sa.toNat).finish .ok 0#64)
    | .reserve | .load => .fault .badMicroState

/-- `ADDC sA, HASH` (R116): the shared guard; per key a load step that ANDs the bit into the flag, then
a set step; then `n` grows by 1, the guard is released and the flag is the result. -/
def execAddc (sa : SlotNum) (hash : Word) (s : State) : Result :=
  s.microStep (.addc sa hash) fun mu =>
    match mu.phase with
    | .acquire => s.acquireShared mu sa.toNat (s.loopPhase sa.toNat mu.pos .load)
    | .load =>
      .next (s.setInFlight
        { mu with flag := s.andBit sa.toNat hash mu.pos mu.flag, phase := .set })
    | .set =>
      .next ((s.setTarget sa.toNat hash mu.pos).setInFlight
        { mu with pos := mu.pos + 1, phase := s.loopPhase sa.toNat (mu.pos + 1) .load })
    | .body => .next ((s.counterInc sa.toNat).finish .ok (flagWord mu.flag))
    | .reserve => .fault .badMicroState

/-- `CONTAINS sA, HASH` (R117): the shared guard; one load step per key that ANDs the bit into the
flag, all of them made; then the guard is released and the flag is the result. -/
def execContains (sa : SlotNum) (hash : Word) (s : State) : Result :=
  s.microStep (.contains sa hash) fun mu =>
    match mu.phase with
    | .acquire => s.acquireShared mu sa.toNat (s.loopPhase sa.toNat mu.pos .load)
    | .load =>
      .next (s.setInFlight
        { mu with
          flag  := s.andBit sa.toNat hash mu.pos mu.flag
          pos   := mu.pos + 1
          phase := s.loopPhase sa.toNat (mu.pos + 1) .load })
    | .body => .next (s.finish .ok (flagWord mu.flag))
    | .reserve | .set => .fault .badMicroState

end Sys2Proof.Machine
end

