-- ==== Sys2Proof/Machine/Compat.lean ====
section
/-! DEFINITION. The comparator and bit-merger commands `ISCOMPAT`, `VERIFYCOMPAT`, `UNIONIP`, `UNION`
and `COPY` (spec 42_union.md). -/

namespace Sys2Proof.Machine

/-- The shape of a command that takes exclusive guards: its reservation step where it has one, the
guards of `order` one micro-step each, then its body, one micro-step (R56, R58, R63). -/
def State.exclusiveSteps (s : State) (i : Instr) (dest : Option SlotNum) (order : List Nat)
    (body : Result) : Result :=
  s.microStep i fun mu =>
    match mu.phase with
    | .reserve =>
      match dest with
      | some sd => s.reserve mu sd.toNat
      | none => .fault .badMicroState
    | .acquire => s.acquireNext mu order
    | .body => body
    | .load | .set => .fault .badMicroState

/-- `ISCOMPAT sA, sB` (R132): 1 where the two filters are compatible, else 0. -/
def execIscompat (sa sb : SlotNum) (s : State) : Result :=
  s.exclusiveSteps (.iscompat sa sb) none (s.lockList sa sb)
    (.next (s.finish .ok (flagWord (s.compat sa sb == 0#64))))

/-- `VERIFYCOMPAT sA, sB` (R133): `Incompatible` with the mask where the two filters differ. -/
def execVerifycompat (sa sb : SlotNum) (s : State) : Result :=
  s.exclusiveSteps (.verifycompat sa sb) none (s.lockList sa sb)
    (if s.compat sa sb ≠ 0#64 then .next (s.fail .incompatible (s.compat sa sb))
     else .next (s.finish .ok 0#64))

/-- `UNIONIP sA, sB` (R134): every word of `SB` is ORed into the matching word of `SA`, where the two
are compatible; `n` of `SA` stays. -/
def execUnionip (sa sb : SlotNum) (s : State) : Result :=
  s.exclusiveSteps (.unionip sa sb) none (s.lockList sa sb)
    (if s.compat sa sb ≠ 0#64 then .next (s.fail .incompatible (s.compat sa sb))
     else
       let a := s.slot sa.toNat
       let b := s.slot sb.toNat
       .next ((s.modifySlot sa.toNat fun t =>
         { t with bits := mergeWords (wordCount a.m) a.bits b.bits }).finish .ok 0#64))

/-- `UNION sD, sA, sB` (R135): slot `SD`, reserved first, receives `SA`'s `m` and keys, the word-wise
OR of the two vectors, and `n = 0`. -/
def execUnion (sd sa sb : SlotNum) (s : State) : Result :=
  s.exclusiveSteps (.union sd sa sb) (some sd) (s.lockList sa sb)
    (if s.compat sa sb ≠ 0#64 then .next (s.fail .incompatible (s.compat sa sb))
     else
       let a := s.slot sa.toNat
       let b := s.slot sb.toNat
       .next ((s.fillSlot sd.toNat a.m a.k a.keys (mergeWords (wordCount a.m) a.bits b.bits) 0#64).finish
         .ok 0#64))

/-- `COPY sD, sA` (R136): slot `SD`, reserved first, receives `SA`'s `m`, keys, words and `n`. -/
def execCopy (sd sa : SlotNum) (s : State) : Result :=
  s.exclusiveSteps (.copy sd sa) (some sd) [sa.toNat]
    (let a := s.slot sa.toNat
     .next ((s.fillSlot sd.toNat a.m a.k a.keys (copyWords (wordCount a.m) a.bits)
       (s.counterLoad sa.toNat)).finish .ok 0#64))

end Sys2Proof.Machine
end

