-- ==== Sys2Proof/Machine/Lifecycle.lean ====
section
/-! DEFINITION. The lifecycle commands `CREATE`, `NEWCOMPAT` and `RELEASE` (spec 40_lifecycle.md). -/

namespace Sys2Proof.Machine

/-- The construction-time checks of `CREATE`, in the order of R100 (R155 steps 5 and 7): the first
that fails names the status. -/
def createCheck (cfg : Config) (dest : Slot) (m : Word) (keys : List Word) : Option Status :=
  if dest.st ≠ .free then some .slotBusy
  else if keys.length < cfg.minK then some .invalidKeyCount
  else if m.toNat < cfg.minM then some .invalidSize
  else if ¬ keys.Nodup then some .duplicateKeys
  else if keys.length > cfg.maxK ∨ m.toNat > cfg.maxM then some .resourceLimit
  else none

/-- `CREATE sD, m=M, keys=[...]` (R100): slot `SD` receives a new, empty filter. -/
def execCreate (sd : SlotNum) (m : Word) (keys : List Word) (s : State) : Result :=
  s.oneStep (.create sd m keys) fun _ =>
    match createCheck s.cfg (s.slot sd.toNat) m keys with
    | some status => .next (s.fail status 0#64)
    | none => .next ((s.fillSlot sd.toNat m (BitVec.ofNat 32 keys.length) keys Memory.zero 0#64).finish
        .ok 0#64)

/-- `NEWCOMPAT sD, sA` (R101): slot `SD` receives an empty filter with `SA`'s `m` and keys. -/
def execNewcompat (sd sa : SlotNum) (s : State) : Result :=
  s.oneStep (.newcompat sd sa) fun _ =>
    if !s.isFree sd.toNat then .next (s.fail .slotBusy 0#64)
    else if !s.isValid sa.toNat then .next (s.fail .badSlot 0#64)
    else
      let src := s.slot sa.toNat
      .next ((s.fillSlot sd.toNat src.m src.k src.keys Memory.zero 0#64).finish .ok 0#64)

/-- `RELEASE sA` (R102): awaits the exclusive guard, takes and releases it within the step, and frees
the slot. -/
def execRelease (sa : SlotNum) (s : State) : Result :=
  s.oneStep (.release sa) fun _ =>
    if !s.exclusiveGrantable sa.toNat then .fault .waiting
    else if !s.isValid sa.toNat then .next (s.fail .badSlot 0#64)
    else .next ((s.freeSlot sa.toNat).finish .ok 0#64)

end Sys2Proof.Machine
end

