-- ==== Sys2Proof/Machine/Dispatch.lean ====
section
/-! DEFINITION. One arm per instruction: its next micro-step at the port whose turn it is. -/

namespace Sys2Proof.Machine

def exec (i : Instr) (s : State) : Host.Outcome State Fault Refusal :=
  match i with
  | .create sd m keys => Sys2Proof.Machine.execCreate sd m keys s
  | .newcompat sd sa => Sys2Proof.Machine.execNewcompat sd sa s
  | .release sa => Sys2Proof.Machine.execRelease sa s
  | .add sa hash => Sys2Proof.Machine.execAdd sa hash s
  | .addc sa hash => Sys2Proof.Machine.execAddc sa hash s
  | .contains sa hash => Sys2Proof.Machine.execContains sa hash s
  | .getm sa => Sys2Proof.Machine.execGetm sa s
  | .getk sa => Sys2Proof.Machine.execGetk sa s
  | .getn sa => Sys2Proof.Machine.execGetn sa s
  | .getkey sa index => Sys2Proof.Machine.execGetkey sa index s
  | .readword sa index => Sys2Proof.Machine.execReadword sa index s
  | .iscompat sa sb => Sys2Proof.Machine.execIscompat sa sb s
  | .verifycompat sa sb => Sys2Proof.Machine.execVerifycompat sa sb s
  | .unionip sa sb => Sys2Proof.Machine.execUnionip sa sb s
  | .union sd sa sb => Sys2Proof.Machine.execUnion sd sa sb s
  | .copy sd sa => Sys2Proof.Machine.execCopy sd sa s

end Sys2Proof.Machine
end

