-- ==== Sys2Proof/Machine/Ports.lean ====
section
/-! DEFINITION. A port's next micro-step (spec 30_encoding.md R82), and which port moves next
(20_memory.md R47, R54). -/

namespace Sys2Proof.Machine

/-- The command a port would issue next: the one at its command index (R29, R82). -/
def Port.nextCommand (p : Port) : Option Command := p.prog[p.pc]?

/-- Port `p` issues a command (R82): the decoder's rejections are responded at once, and a decoded
command is issued by its meaning. -/
def State.issueCommand (s : State) (c : Command) : Result :=
  match decode c with
  | .error status => .next (s.respond status 0#64)
  | .ok i => exec i s

/-- The micro-step of port `p`: the next one of its command in flight, or else the decode step of its
next command (R14, R82). It stops by name where the port has no enabled micro-step. -/
def State.stepPort (s : State) (p : Nat) : Result :=
  match s.ports[p]? with
  | none => .fault .noPort
  | some port =>
    match port.busy with
    | some mu => exec mu.cmd { s with turn := p }
    | none =>
      match port.nextCommand with
      | none => .fault .idle
      | some c => State.issueCommand { s with turn := p } c

/-- Port `p` has an enabled micro-step: it is neither done nor waiting at a guard (R14, R47, R168). -/
def State.enabled (s : State) (p : Nat) : Bool :=
  match s.stepPort p with
  | .fault .waiting | .fault .idle | .fault .noPort => false
  | .next _ | .fault .runEnded | .fault .stuck | .fault .badMicroState | .refused _ => true

/-- The ports with an enabled micro-step, in port order. -/
def State.enabledPorts (s : State) : List Nat :=
  (List.range s.ports.length).filter fun p => s.enabled p

/-- One of the enabled ports, any of them (R47, R54): where there are several, the schedule's entry
picks one, and a free value where the schedule is at its end (log entry 3). -/
def State.pick (s : State) (ps : List Nat) : Option Nat :=
  match ps with
  | [] => none
  | [p] => some p
  | p :: q :: rest =>
    let choice := s.schedule.headD (Config.freeChoice s.fresh)
    (p :: q :: rest)[choice % (rest.length + 2)]?

/-- The state a step begins from: this step's entry of the schedule and this value of the counter are
used up (log entry 3). -/
def State.advance (s : State) : State :=
  { s with schedule := s.schedule.tail, fresh := s.fresh + 1 }

/-- The run has ended (R183): every port is at the end of its list with no command in flight. -/
def State.ended (s : State) : Bool :=
  s.ports.all fun p => p.busy.isNone && p.pc == p.prog.length

end Sys2Proof.Machine
end

