-- ==== Sys2Proof/Machine/Step.lean ====
section
/-! DEFINITION. One step of the block: one micro-step of one enabled port (spec 20_memory.md R47). -/

namespace Sys2Proof.Machine

/-- One micro-step of one port, any of the enabled ones (R47). Where none is enabled the run has ended
or is stuck (R183; log entry 6). -/
def step (s : State) : Host.Outcome State Fault Refusal :=
  match s.pick s.enabledPorts with
  | some p => s.advance.stepPort p
  | none => if s.ended then .fault .runEnded else .fault .stuck

/-- The state with a command as the next one of port 0, which is idle and moves next (log entry 12). -/
def State.withFetchWord (s : State) (nbits w : Nat) : State :=
  { s.modifyPort 0 fun p =>
      { p with prog := p.prog.take p.pc ++ [commandOfBits nbits w]
               pc   := min p.pc p.prog.length
               busy := none } with
    schedule := 0 :: s.schedule }

end Sys2Proof.Machine
end

