-- ==== Sys2Proof/Safety.lean ====
section
/-! DEFINITION. The terms claims use: runs over every interleaving, the invariant of a sound state,
launch states, the work a run has left, and the statuses a command can give. -/

namespace Sys2Proof.Machine

/-! ## Runs -/

/-- One micro-step of any one port (R47). Every answer of `step` is such a move, whichever port its
schedule picks. -/
def Moves (s t : State) : Prop := ∃ p, s.advance.stepPort p = .next t

/-- A run of moves from `s` to `t` in which every state has the property `P` (R47). -/
inductive RunWith (P : State → Prop) (s : State) : State → Prop where
  | start : P s → RunWith P s s
  | move {t u : State} : RunWith P s t → Moves t u → P u → RunWith P s u

/-- `n` micro-steps of port `p` and of no other port. -/
def State.solo (p : Nat) : Nat → State → Result
  | 0, s => .next s
  | n + 1, s =>
    match s.stepPort p with
    | .next t => State.solo p n t
    | .fault f => .fault f
    | .refused r => .refused r

/-- Port `p` is idle and the next command of its list decodes to `i` (R82). -/
abbrev AboutTo (s : State) (p : Nat) (i : Instr) : Prop :=
  (s.port p).busy = none ∧ ((s.port p).nextCommand.bind fun c => (decode c).toOption) = some i

/-- The first response port `p` delivered after `s`, as `t` shows it, is `r` (R80). -/
abbrev FirstResponse (s t : State) (p : Nat) (r : Response) : Prop :=
  (t.port p).resp[(s.port p).resp.length]? = some r

/-- From `s` to `t` the port whose turn it is in `s` delivers one response, ends its command and
advances its command index, and no other port changes (R14); nothing is said of the slots. -/
def Answers (s t : State) (status : Status) (result : Word) : Prop :=
  t.cfg = s.cfg ∧ t.turn = s.turn ∧ t.schedule = s.schedule ∧ t.fresh = s.fresh ∧
  t.slots.length = s.slots.length ∧ t.ports.length = s.ports.length ∧
  (∀ q, q ≠ s.turn → t.port q = s.port q) ∧
  t.port s.turn =
    { s.port s.turn with
      pc   := (s.port s.turn).pc + 1
      busy := none
      resp := (s.port s.turn).resp ++ [{ status := status, result := result }] }

/-- From `s` to `t` the command in flight of the port whose turn it is in `s` goes on with micro-state
`mu`, and nothing else of the ports changes; nothing is said of the slots. -/
def GoesOn (s t : State) (mu : MicroState) : Prop :=
  t.cfg = s.cfg ∧ t.turn = s.turn ∧ t.schedule = s.schedule ∧ t.fresh = s.fresh ∧
  t.slots.length = s.slots.length ∧ t.ports.length = s.ports.length ∧
  (∀ q, q ≠ s.turn → t.port q = s.port q) ∧
  t.port s.turn = { s.port s.turn with busy := some mu }

/-- The micro-step answers a next state in which the port whose turn it is has delivered the response
and ended its command, and every slot `x` is `slots x`: all that changes is said. -/
def EndsWith (s : State) (r : Result) (status : Status) (result : Word) (slots : Nat → Slot) : Prop :=
  ∃ t, r = .next t ∧ Answers s t status result ∧ ∀ x, t.slot x = slots x

/-- The micro-step answers a next state in which the command in flight goes on with micro-state `mu`,
and every slot `x` is `slots x`: all that changes is said. -/
def ContinuesWith (s : State) (r : Result) (mu : MicroState) (slots : Nat → Slot) : Prop :=
  ∃ t, r = .next t ∧ GoesOn s t mu ∧ ∀ x, t.slot x = slots x

/-- The slots of `s` with slot `x` replaced. -/
def State.slotsWith (s : State) (x : Nat) (t : Slot) : Nat → Slot :=
  fun y => if y = x then t else s.slot y

/-- The port whose turn it is has command `i` in flight in the given phase. -/
abbrev InPhase (s : State) (i : Instr) (ph : Phase) (mu : MicroState) : Prop :=
  s.inFlight = some mu ∧ mu.cmd = i ∧ mu.phase = ph

/-! ## The invariant -/

/-- What R22 to R25 say of a slot while it is `VALID`: the bounds on `m` and `k`, `k` pairwise distinct
keys, and no bit set at an index `>= m` (so no word beyond `W(m)` either). -/
def Slot.filterOk (cfg : Config) (t : Slot) : Bool :=
  t.st != .valid ||
    (decide (cfg.minM ≤ t.m.toNat ∧ t.m.toNat ≤ cfg.maxM) &&
     decide (cfg.minK ≤ t.k.toNat ∧ t.k.toNat ≤ cfg.maxK) &&
     decide (t.keys.length = t.k.toNat) && decide t.keys.Nodup &&
     t.bits.all fun c =>
       (List.range 64).all fun b => !c.2.getLsbD b || decide (64 * c.1 + b < t.m.toNat))

/-- What R27 says of a guard: an exclusive holder excludes shared ones, and the guard is idle while the
slot is not `VALID`. -/
def Slot.guardOk (t : Slot) : Bool :=
  (t.wr.isNone || t.rd == 0) && (t.st == .valid || (t.wr.isNone && t.rd == 0))

/-- The guards a port's command in flight holds. -/
def Port.holds (p : Port) : List (Nat × Mode) :=
  match p.busy with
  | none => []
  | some mu => mu.held

/-- The slot a port's command in flight reserved. -/
def Port.reserves (p : Port) : Option Nat := p.busy.bind MicroState.reserved

/-- The fields of slot number `x` agree with the micro-states of the ports (R27, R30): `rd` counts the
shared holders, `wr` is the exclusive holder, and exactly one command reserves a `RESERVED` slot. -/
def State.holdersOk (s : State) (x : Nat) : Bool :=
  decide ((s.ports.map fun p => p.holds.count (x, .shared)).sum = (s.slot x).rd) &&
  ((List.range s.ports.length).all fun p =>
    decide ((s.port p).holds.count (x, .exclusive) = if (s.slot x).wr = some p then 1 else 0)) &&
  (match (s.slot x).wr with
   | none => true
   | some p => decide (p < s.ports.length)) &&
  decide ((s.ports.countP fun p => p.reserves == some x) =
    if (s.slot x).st = .reserved then 1 else 0)

/-- A micro-state of a loop over the keys of slot `x` (R115 to R117): before the acquisition, inside
the loop at a key that exists, or at its last micro-step with every key done. -/
def State.loopOk (s : State) (mu : MicroState) (x : Nat) (inLoop : List Phase) : Bool :=
  mu.reserved.isNone &&
    ((mu.phase == .acquire && mu.held.isEmpty && mu.pos == 0) ||
     (mu.held == [(x, .shared)] &&
       ((inLoop.contains mu.phase && decide (mu.pos < s.keyCount x)) ||
        (mu.phase == .body && mu.pos == s.keyCount x))))

/-- A micro-state of a command that takes the exclusive guards of `order` (R56, R58, R63): before the
reservation, with the first guards of `order` and another to come, or with all of them at its body. -/
def exclusiveOk (mu : MicroState) (dest : Option Nat) (order : List Nat) : Bool :=
  mu.pos == 0 &&
  ((mu.phase == .reserve && dest.isSome && mu.held.isEmpty && mu.reserved.isNone) ||
   (mu.reserved == dest &&
    ((mu.phase == .acquire && decide (mu.held.length < order.length) &&
        mu.held == (order.take mu.held.length).map fun x => (x, Mode.exclusive)) ||
     (mu.phase == .body && mu.held == order.map fun x => (x, Mode.exclusive)))))

/-- A micro-state of a command with one micro-step. -/
def oneStepOk (mu : MicroState) : Bool :=
  mu.phase == .body && mu.held.isEmpty && mu.reserved.isNone && mu.pos == 0

/-- The micro-state is one the command's pseudocode passes through (R30), and its slots exist. -/
def State.microOk (s : State) (mu : MicroState) : Bool :=
  mu.cmd.slotsBelow s.cfg.numSlots &&
    match mu.cmd with
    | .add sa _ => s.loopOk mu sa.toNat [.set]
    | .addc sa _ => s.loopOk mu sa.toNat [.load, .set]
    | .contains sa _ => s.loopOk mu sa.toNat [.load]
    | .iscompat sa sb | .verifycompat sa sb | .unionip sa sb =>
      exclusiveOk mu none (s.lockList sa sb)
    | .union sd sa sb => exclusiveOk mu (some sd.toNat) (s.lockList sa sb)
    | .copy sd sa => exclusiveOk mu (some sd.toNat) [sa.toNat]
    | .create .. | .newcompat .. | .release .. | .getm .. | .getk .. | .getn .. | .getkey ..
    | .readword .. => oneStepOk mu

/-- A port's index lies within its list, and a command in flight is the one at the index (R14, R29,
R30), in a micro-state of its pseudocode. -/
def State.portOk (s : State) (p : Port) : Bool :=
  decide (p.pc ≤ p.prog.length) &&
    match p.busy with
    | none => true
    | some mu =>
      (match p.nextCommand with
       | none => false
       | some c => (decode c).toOption == some mu.cmd) && s.microOk mu

/-- The invariant: the parameters are legal, every slot and port is there, and the rules on slots
(R22 to R25, R27), guards and reservations (R21, R27) and ports (R29, R30) hold. -/
def State.inv (s : State) : Bool :=
  s.cfg.legal &&
  decide (s.slots.length = s.cfg.numSlots) && decide (s.ports.length = s.cfg.numPorts) &&
  (s.slots.all fun t => Memory.wf t.bits && t.filterOk s.cfg && t.guardOk) &&
  ((List.range s.slots.length).all fun x => s.holdersOk x) &&
  s.ports.all fun p => s.portOk p

/-- A launch state (R182): valid filters, no reservation, idle guards, idle ports without responses,
each index within its list. The reset state is one. -/
def State.launchOk (s : State) : Bool :=
  s.cfg.legal &&
  decide (s.slots.length = s.cfg.numSlots) && decide (s.ports.length = s.cfg.numPorts) &&
  (s.slots.all fun t => Memory.wf t.bits && t.filterOk s.cfg && t.st != .reserved &&
    t.wr.isNone && t.rd == 0) &&
  s.ports.all fun p => p.busy.isNone && p.resp.isEmpty && decide (p.pc ≤ p.prog.length)

/-- In an `ADD` or `ADDC` that holds its guard, the bits of the keys already passed are set (R48 (d)). -/
def State.bitsBeforeCount (s : State) : Prop :=
  ∀ p mu, (s.port p).busy = some mu → mu.held ≠ [] →
    ∀ sa h, (mu.cmd = .add sa h ∨ mu.cmd = .addc sa h) →
      ∀ i, i < mu.pos → s.bit sa.toNat (s.target sa.toNat h i) = true

/-! ## The work a run has left (R187) -/

/-- The bound R187 puts on a command's micro-steps, the decode step counted, with `k <= MAX_K`. -/
def stepBound (cfg : Config) : Instr → Nat
  | .addc .. => 2 * cfg.maxK + 3
  | .add .. | .contains .. => cfg.maxK + 3
  | .create .. | .newcompat .. | .release .. | .getm .. | .getk .. | .getn .. | .getkey ..
  | .readword .. | .iscompat .. | .verifycompat .. | .unionip .. | .union .. | .copy .. => 5

/-- A bound on the micro-steps a command in flight has left. -/
def State.stepsLeft (s : State) (mu : MicroState) : Nat :=
  match mu.cmd with
  | .add sa _ | .contains sa _ =>
    match mu.phase with
    | .acquire => s.cfg.maxK + 2
    | .load | .set => (s.keyCount sa.toNat - mu.pos) + 1
    | .reserve | .body => 1
  | .addc sa _ =>
    match mu.phase with
    | .acquire => 2 * s.cfg.maxK + 2
    | .load => 2 * (s.keyCount sa.toNat - mu.pos) + 1
    | .set => 2 * (s.keyCount sa.toNat - mu.pos)
    | .reserve | .body => 1
  | .create .. | .newcompat .. | .release .. | .getm .. | .getk .. | .getn .. | .getkey ..
  | .readword .. | .iscompat .. | .verifycompat .. | .unionip .. | .union .. | .copy .. =>
    match mu.phase with
    | .reserve => 4
    | .acquire => 3 - mu.held.length
    | .load | .set | .body => 1

/-- The work of a command not yet issued: one micro-step where the decoder rejects it, else its bound. -/
def commandWork (cfg : Config) (c : Command) : Nat :=
  match decode c with
  | .error _ => 1
  | .ok i => stepBound cfg i

/-- The work of a port: what its command in flight has left, and the commands after it. -/
def State.portWork (s : State) (p : Port) : Nat :=
  match p.busy with
  | none => ((p.prog.drop p.pc).map (commandWork s.cfg)).sum
  | some mu => s.stepsLeft mu + ((p.prog.drop (p.pc + 1)).map (commandWork s.cfg)).sum

/-- The work a run has left. -/
def State.work (s : State) : Nat := (s.ports.map s.portWork).sum

/-! ## Statuses and observations -/

/-- The statuses a decoded command can give (R152); `BadSlot` also where a slot number is out of
range (R155 step 4). -/
def possibleStatuses : Instr → List Status
  | .create .. => [.ok, .slotBusy, .invalidKeyCount, .invalidSize, .duplicateKeys, .resourceLimit, .badSlot]
  | .newcompat .. | .copy .. => [.ok, .slotBusy, .badSlot]
  | .release .. | .getm .. | .getk .. | .getn .. | .add .. | .addc .. | .contains .. | .iscompat .. =>
    [.ok, .badSlot]
  | .getkey .. | .readword .. => [.ok, .badSlot, .badOperand]
  | .verifycompat .. | .unionip .. => [.ok, .badSlot, .incompatible]
  | .union .. => [.ok, .slotBusy, .badSlot, .incompatible]

/-- The two slots differ at most in what R28 calls unobservable: the five filter fields, while the slot
is not `VALID`. -/
def Slot.sameView (a b : Slot) : Prop :=
  a.st = b.st ∧ a.rd = b.rd ∧ a.wr = b.wr ∧
  (a.st = .valid → a.m = b.m ∧ a.k = b.k ∧ a.keys = b.keys ∧ a.bits = b.bits ∧ a.n = b.n)

/-- The two states differ at most in the unobservable fields of slots (R28). -/
def State.sameView (s t : State) : Prop :=
  s.cfg = t.cfg ∧ s.ports = t.ports ∧ s.turn = t.turn ∧ s.schedule = t.schedule ∧ s.fresh = t.fresh ∧
  s.slots.length = t.slots.length ∧ ∀ x, (s.slot x).sameView (t.slot x)

/-- Two filters are compatible (R130). -/
def Slot.compatible (a b : Slot) : Prop :=
  a.m = b.m ∧ a.k = b.k ∧ ∀ i, i < a.k.toNat → a.keys.getD i 0#64 = b.keys.getD i 0#64

/-- The five filter fields of two slots are the same. -/
def Slot.sameFilter (a b : Slot) : Prop :=
  a.m = b.m ∧ a.k = b.k ∧ a.keys = b.keys ∧ a.bits = b.bits ∧ a.n = b.n

end Sys2Proof.Machine
end

