-- ==== Sys2Proof/Certificates/Slice0/Obligations.lean ====
section
/-! DEFINITION. The statements for the provers. A statement's docstring names the rules of spec/ it
formalises, or the sections it rests on. A statement about a command in flight names the phase of its
micro-state, one per atomic block of the rule's pseudocode; the names are the model's (log entry 10). -/

open Sys2Proof Sys2Proof.Machine

/-! ## Encoding and decode -/

/-- Decoding an encoded instruction gives the instruction back, every operand at every value (R70 to
R74, R78). -/
def Obligations.DecodeOfEncodeIsTheInstruction : Prop :=
  ∀ i : Instr, i.wellFormed = true → decode (encode i) = .ok i

/-- A command the decoder accepts is the encoding of the instruction it gives: no two commands decode
to one instruction, and no bit of a command is dropped (R71 to R75, R77). -/
def Obligations.EncodeOfDecodeIsTheCommand : Prop :=
  ∀ (c : Command) (i : Instr), decode c = .ok i → i.wellFormed = true ∧ encode i = c

/-- The decoder accepts a command for a row exactly where its header fits the row's mask and match of
opcode_table.json and it has the operand words R78 gives (R74, R78). -/
def Obligations.DecoderAcceptsExactlyTheTableRows : Prop :=
  ∀ o mask bits, (o, mask, bits) ∈ opcodeTable → ∀ c : Command,
    (∃ i, i.op = o ∧ decode c = .ok i) ↔
      c.header &&& mask = bits ∧
      c.words.length =
        (if bits = 0x01#64 then 1 + (c.header >>> 32).toNat
         else if bits ∈ [0x10#64, 0x11#64, 0x12#64, 0x23#64, 0x24#64] then 1 else 0)

/-- R76: the illegal opcode values, and that a command with one of them does nothing and is answered
`(IllegalOpcode, 0)`; no other opcode value is illegal. -/
def Obligations.IllegalOpcodesDoNothing : Prop :=
  ∀ (c : Command) (op : Nat), op = c.header.toNat % 256 →
    (decode c = .error .illegalOpcode ↔
      op = 0x00 ∨ (0x04 ≤ op ∧ op ≤ 0x0F) ∨ (0x13 ≤ op ∧ op ≤ 0x1F) ∨ (0x25 ≤ op ∧ op ≤ 0x2F) ∨
      (0x35 ≤ op ∧ op ≤ 0xFF)) ∧
    ∀ (s : State) (p : Nat), (s.port p).busy = none → (s.port p).nextCommand = some c →
      decode c = .error .illegalOpcode →
      EndsWith { s with turn := p } (s.stepPort p) .illegalOpcode 0 s.slot

/-- R75: a command of the opcode map with a nonzero header field its row does not use (a header that
does not fit the row's mask and match) does nothing and is answered `(BadOperand, 0)`. -/
def Obligations.NonzeroUnusedFieldsDoNothing : Prop :=
  ∀ o mask bits, (o, mask, bits) ∈ opcodeTable →
    ∀ (s : State) (p : Nat) (c : Command), (s.port p).busy = none →
      (s.port p).nextCommand = some c →
      (Header.unpack c.header).op = o.byte → c.header &&& mask ≠ bits →
      EndsWith { s with turn := p } (s.stepPort p) .badOperand 0 s.slot

/-- R77: a command of the opcode map with more or fewer operand words than R78 gives does nothing and
is answered `(BadOperand, 0)`. -/
def Obligations.WrongOperandCountsDoNothing : Prop :=
  ∀ o mask bits, (o, mask, bits) ∈ opcodeTable →
    ∀ (s : State) (p : Nat) (c : Command), (s.port p).busy = none →
      (s.port p).nextCommand = some c →
      (Header.unpack c.header).op = o.byte →
      c.words.length ≠
        (if bits = 0x01#64 then 1 + (c.header >>> 32).toNat
         else if bits ∈ [0x10#64, 0x11#64, 0x12#64, 0x23#64, 0x24#64] then 1 else 0) →
      EndsWith { s with turn := p } (s.stepPort p) .badOperand 0 s.slot

/-- The decode step (R82) with the checks of R155 steps 1 to 4 in their order: the first that fails is
answered and changes nothing else; where none fails, the command is in flight in its initial
micro-state, with no guard and no reservation. The names of the phases are the model's (log entry 10). -/
def Obligations.DecodeStepChecksThenStarts : Prop :=
  ∀ (s : State) (p : Nat) (c : Command), (s.port p).busy = none → (s.port p).nextCommand = some c →
    (∀ st, decode c = .error st →
      EndsWith { s with turn := p } (s.stepPort p) st 0 s.slot) ∧
    (∀ i, decode c = .ok i → (∃ x ∈ i.slots, s.cfg.numSlots ≤ x.toNat) →
      EndsWith { s with turn := p } (s.stepPort p) .badSlot 0 s.slot) ∧
    (∀ i, decode c = .ok i → (∀ x ∈ i.slots, x.toNat < s.cfg.numSlots) →
      ContinuesWith { s with turn := p } (s.stepPort p)
        { cmd := i, held := [], reserved := none, pos := 0, flag := true, phase := firstPhase i }
        s.slot)

/-- The encodings R84 works out decode to the instructions they stand for. -/
def Obligations.WorkedEncodingsDecode : Prop :=
  decode { header := 0x0000000000000010#64, words := [0x0000000000000005#64] } =
    .ok (.add 0#8 5#64) ∧
  decode { header := 0x0000000100000001#64,
           words := [0x0000000000000040#64, 0x0000000000000001#64] } =
    .ok (.create 0#8 64#64 [1#64]) ∧
  decode { header := 0x0000000002010033#64, words := [] } = .ok (.union 2#8 0#8 1#8) ∧
  decode { header := 0x0000000000000132#64, words := [] } = .ok (.unionip 1#8 0#8)

/-- The status codes of R150. -/
def Obligations.StatusCodesFollowTheTable : Prop :=
  Status.ok.code = 0x00#8 ∧ Status.invalidKeyCount.code = 0x01#8 ∧
  Status.invalidSize.code = 0x02#8 ∧ Status.duplicateKeys.code = 0x03#8 ∧
  Status.hashMismatch.code = 0x04#8 ∧ Status.incompatible.code = 0x05#8 ∧
  Status.illegalOpcode.code = 0x10#8 ∧ Status.badOperand.code = 0x11#8 ∧
  Status.badSlot.code = 0x12#8 ∧ Status.slotBusy.code = 0x13#8 ∧
  Status.resourceLimit.code = 0x14#8

/-! ## A step -/

/-- A step runs the command of the port that moves: the one in flight, or else the next one of its
list, decoded. What the step adds around `exec` is the arbitration (log entry 3): the port is the one
`pick` names, `turn` is that port, and this step's schedule entry and counter value are used up. -/
def Obligations.StepRunsTheDecodedCommand : Prop :=
  ∀ (s : State) (p : Nat), s.pick s.enabledPorts = some p →
    (∀ mu, (s.port p).busy = some mu → step s = exec mu.cmd { s.advance with turn := p }) ∧
    (∀ i, AboutTo s p i → step s = exec i { s.advance with turn := p })

/-- The command `withFetchWord` places is the one the very next step runs, at port 0 (log entry 12). -/
def Obligations.PlacedWordRunsNext : Prop :=
  ∀ (s : State) (nbits w : Nat) (i : Instr), s.ports ≠ [] →
    decodeTableWord nbits w = some i →
    step (s.withFetchWord nbits w) = exec i { (s.withFetchWord nbits w).advance with turn := 0 }

/-- Any port whose next micro-step is enabled may take it (R47, R54): some schedule entry makes the
step that port's micro-step; and every step is a micro-step of an enabled port. -/
def Obligations.AnyEnabledPortMayMove : Prop :=
  (∀ (s : State) (p : Nat), s.enabled p = true →
    ∃ choice, step { s with schedule := choice :: s.schedule } =
      State.stepPort { s with fresh := s.fresh + 1 } p) ∧
  (∀ s t : State, step s = .next t →
    ∃ p, s.enabled p = true ∧ s.advance.stepPort p = .next t)

/-- A step stops only where the run has ended, or where no port has an enabled micro-step though the
run has not ended, which is stuck (R183); from a sound state it stops for no other reason. -/
def Obligations.StepStopsOnlyAtTheEndOrStuck : Prop :=
  ∀ s : State, s.inv = true →
    (∃ t, step s = .next t) ∨
    ((∀ q, q < s.ports.length → (s.port q).busy = none ∧ (s.port q).pc = (s.port q).prog.length) ∧
      step s = .fault .runEnded) ∨
    ((∃ q, q < s.ports.length ∧ ((s.port q).busy ≠ none ∨ (s.port q).pc < (s.port q).prog.length)) ∧
      (∀ q, s.enabled q = false) ∧ step s = .fault .stuck)

/-- A port's micro-step touches no other port (R30), and either keeps the port's command in flight or
ends it with exactly one response and one advance of its index (R14, R29, R80). Command lists and the
configuration never change (R20, R29). -/
def Obligations.MicroStepsAnswerOnceAndKeepOtherPorts : Prop :=
  ∀ (s t : State) (p : Nat), s.stepPort p = .next t →
    t.cfg = s.cfg ∧ t.ports.length = s.ports.length ∧ t.slots.length = s.slots.length ∧
    (∀ q, q ≠ p → t.port q = s.port q) ∧
    (t.port p).prog = (s.port p).prog ∧
    (((t.port p).busy ≠ none ∧ (t.port p).pc = (s.port p).pc ∧ (t.port p).resp = (s.port p).resp) ∨
     ((t.port p).busy = none ∧ (t.port p).pc = (s.port p).pc + 1 ∧
       ∃ r, (t.port p).resp = (s.port p).resp ++ [r]))

/-! ## Guards and reservations -/

/-- R51: the shared acquisition of `ADD`, `ADDC` and `CONTAINS`, one micro-step. It waits while there
is an exclusive holder, fails where the slot is not `VALID`, and otherwise counts one holder more and
goes on to the loop over the keys. -/
def Obligations.SharedAcquisition : Prop :=
  ∀ (s : State) (mu : MicroState) (sa : SlotNum) (h : Word) (i : Instr) (inLoop : Phase),
    ((i = .add sa h ∧ inLoop = .set) ∨ (i = .addc sa h ∧ inLoop = .load) ∨
      (i = .contains sa h ∧ inLoop = .load)) →
    InPhase s i .acquire mu → mu.held = [] → mu.reserved = none → sa.toNat < s.slots.length →
    ((s.slot sa.toNat).wr ≠ none → exec i s = .fault .waiting) ∧
    ((s.slot sa.toNat).wr = none → (s.slot sa.toNat).st ≠ .valid →
      EndsWith s (exec i s) .badSlot 0 s.slot) ∧
    ((s.slot sa.toNat).wr = none → (s.slot sa.toNat).st = .valid →
      ContinuesWith s (exec i s)
        { mu with
          held  := [(sa.toNat, .shared)]
          phase := if mu.pos < (s.slot sa.toNat).k.toNat then inLoop else .body }
        (s.slotsWith sa.toNat { s.slot sa.toNat with rd := (s.slot sa.toNat).rd + 1 }))

/-- R52, R56, R57: the exclusive acquisitions of `ISCOMPAT`, `VERIFYCOMPAT`, `UNIONIP`, `UNION` and
`COPY`, one micro-step each, in the lock order, one guard where both operands name one slot. Each waits
while anyone holds the guard, fails where the slot is not `VALID` (releasing the guards held and the
reservation), and otherwise makes the port the holder. -/
def Obligations.ExclusiveAcquisitionInLockOrder : Prop :=
  ∀ (s : State) (mu : MicroState) (sd sa sb : SlotNum) (i : Instr) (order : List Nat) (j x : Nat),
    ((i ∈ [Instr.iscompat sa sb, .verifycompat sa sb, .unionip sa sb, .union sd sa sb] ∧
        order =
          (if sa = sb then [sa.toNat]
           else if s.cfg.lockOrder = .canonical then
             [min sa.toNat sb.toNat, max sa.toNat sb.toNat]
           else [sa.toNat, sb.toNat])) ∨
      (i = .copy sd sa ∧ order = [sa.toNat])) →
    InPhase s i .acquire mu → order[j]? = some x →
    mu.held = (order.take j).map (fun y => (y, Mode.exclusive)) → x < s.slots.length →
    ((s.slot x).wr ≠ none ∨ (s.slot x).rd ≠ 0 → exec i s = .fault .waiting) ∧
    ((s.slot x).wr = none → (s.slot x).rd = 0 → (s.slot x).st ≠ .valid →
      EndsWith s (exec i s) .badSlot 0 fun y =>
        { s.slot y with
          wr := if y ∈ order.take j then none else (s.slot y).wr
          st := if mu.reserved = some y then .free else (s.slot y).st }) ∧
    ((s.slot x).wr = none → (s.slot x).rd = 0 → (s.slot x).st = .valid →
      ContinuesWith s (exec i s)
        { mu with
          held  := (order.take (j + 1)).map fun y => (y, Mode.exclusive)
          phase := if j + 1 = order.length then .body else .acquire }
        (s.slotsWith x { s.slot x with wr := some s.turn }))

/-- The reservation step of `UNION` and `COPY` (R63, R135, R136): `SlotBusy` where the destination is
not `FREE`, else it is `RESERVED` and recorded as reserved by the command. -/
def Obligations.ReservationStep : Prop :=
  ∀ (s : State) (mu : MicroState) (sd sa sb : SlotNum) (i : Instr),
    (i = .union sd sa sb ∨ i = .copy sd sa) →
    InPhase s i .reserve mu → mu.held = [] → mu.reserved = none → sd.toNat < s.slots.length →
    ((s.slot sd.toNat).st ≠ .free → EndsWith s (exec i s) .slotBusy 0 s.slot) ∧
    ((s.slot sd.toNat).st = .free →
      ContinuesWith s (exec i s) { mu with reserved := some sd.toNat, phase := .acquire }
        (s.slotsWith sd.toNat { s.slot sd.toNat with st := .reserved }))

/-! ## Lifecycle commands -/

/-- R100: `CREATE`. The checks in their order, each failure changing nothing; then slot `SD` holds the
filter with `m`, the keys, no bit set and `n = 0`, and no other slot changes. -/
def Obligations.CreateChecksThenFills : Prop :=
  ∀ (s : State) (mu : MicroState) (sd : SlotNum) (m : Word) (keys : List Word),
    InPhase s (.create sd m keys) .body mu → mu.held = [] → mu.reserved = none →
    sd.toNat < s.slots.length →
    (if (s.slot sd.toNat).st ≠ .free then
      EndsWith s (exec (.create sd m keys) s) .slotBusy 0 s.slot
    else if keys.length < s.cfg.minK then
      EndsWith s (exec (.create sd m keys) s) .invalidKeyCount 0 s.slot
    else if m.toNat < s.cfg.minM then
      EndsWith s (exec (.create sd m keys) s) .invalidSize 0 s.slot
    else if ∃ j, j < keys.length ∧ ∃ i, i < j ∧ keys.getD i 0 = keys.getD j 0 then
      EndsWith s (exec (.create sd m keys) s) .duplicateKeys 0 s.slot
    else if s.cfg.maxK < keys.length ∨ s.cfg.maxM < m.toNat then
      EndsWith s (exec (.create sd m keys) s) .resourceLimit 0 s.slot
    else
      EndsWith s (exec (.create sd m keys) s) .ok 0
        (s.slotsWith sd.toNat
          { s.slot sd.toNat with
            st := .valid, m := m, k := BitVec.ofNat 32 keys.length, keys := keys, bits := []
            n := 0 }))

/-- R101: `NEWCOMPAT`. `SlotBusy`, then `BadSlot`; then slot `SD` holds a filter with `SA`'s `m` and
keys, no bit set and `n = 0`, and no other slot changes. -/
def Obligations.NewcompatClonesEmpty : Prop :=
  ∀ (s : State) (mu : MicroState) (sd sa : SlotNum),
    InPhase s (.newcompat sd sa) .body mu → mu.held = [] → mu.reserved = none →
    sd.toNat < s.slots.length →
    (if (s.slot sd.toNat).st ≠ .free then
      EndsWith s (exec (.newcompat sd sa) s) .slotBusy 0 s.slot
    else if (s.slot sa.toNat).st ≠ .valid then
      EndsWith s (exec (.newcompat sd sa) s) .badSlot 0 s.slot
    else
      EndsWith s (exec (.newcompat sd sa) s) .ok 0
        (s.slotsWith sd.toNat
          { s.slot sd.toNat with
            st := .valid, m := (s.slot sa.toNat).m, k := (s.slot sa.toNat).k
            keys := (s.slot sa.toNat).keys, bits := [], n := 0 }))

/-- R102: `RELEASE`. It waits while anyone holds the guard; `BadSlot` where the slot is not `VALID`;
else the slot is `FREE`, its guard stays idle, and no other slot changes. Nothing is said of its other
fields, which become unspecified. -/
def Obligations.ReleaseWaitsThenFrees : Prop :=
  ∀ (s : State) (mu : MicroState) (sa : SlotNum),
    InPhase s (.release sa) .body mu → mu.held = [] → mu.reserved = none →
    sa.toNat < s.slots.length →
    ((s.slot sa.toNat).wr ≠ none ∨ (s.slot sa.toNat).rd ≠ 0 →
      exec (.release sa) s = .fault .waiting) ∧
    ((s.slot sa.toNat).wr = none → (s.slot sa.toNat).rd = 0 → (s.slot sa.toNat).st ≠ .valid →
      EndsWith s (exec (.release sa) s) .badSlot 0 s.slot) ∧
    ((s.slot sa.toNat).wr = none → (s.slot sa.toNat).rd = 0 → (s.slot sa.toNat).st = .valid →
      ∃ t, exec (.release sa) s = .next t ∧ Answers s t .ok 0 ∧
        (t.slot sa.toNat).st = .free ∧ (t.slot sa.toNat).wr = none ∧ (t.slot sa.toNat).rd = 0 ∧
        ∀ x, x ≠ sa.toNat → t.slot x = s.slot x)

/-! ## Reads -/

/-- R110, R111, R112: `GETM`, `GETK` and `GETN` take no guard and never wait; `BadSlot` where the slot
is not `VALID`, else `m`, `k` zero-extended, and `n`. No slot changes. -/
def Obligations.GetmGetkGetnAnswer : Prop :=
  ∀ (s : State) (mu : MicroState) (sa : SlotNum) (i : Instr) (v : Word),
    ((i = .getm sa ∧ v = (s.slot sa.toNat).m) ∨
      (i = .getk sa ∧ v = BitVec.ofNat 64 (s.slot sa.toNat).k.toNat) ∨
      (i = .getn sa ∧ v = (s.slot sa.toNat).n)) →
    InPhase s i .body mu → mu.held = [] → mu.reserved = none →
    (if (s.slot sa.toNat).st = .valid then EndsWith s (exec i s) .ok v s.slot
     else EndsWith s (exec i s) .badSlot 0 s.slot)

/-- R113: `GETKEY` takes no guard; `BadSlot`, then `BadOperand` for an index not below `k`, compared as
a full 64-bit value; else the key. No slot changes. -/
def Obligations.GetkeyAnswersTheKey : Prop :=
  ∀ (s : State) (mu : MicroState) (sa : SlotNum) (index : Word),
    InPhase s (.getkey sa index) .body mu → mu.held = [] → mu.reserved = none →
    (if (s.slot sa.toNat).st ≠ .valid then EndsWith s (exec (.getkey sa index) s) .badSlot 0 s.slot
     else if (s.slot sa.toNat).k.toNat ≤ index.toNat then
      EndsWith s (exec (.getkey sa index) s) .badOperand 0 s.slot
     else
      EndsWith s (exec (.getkey sa index) s) .ok ((s.slot sa.toNat).keys.getD index.toNat 0) s.slot)

/-- R114: `READWORD` waits while there is an exclusive holder; `BadSlot`, then `BadOperand` for an index
not below `ceil(m / 64)`; else the word. No slot changes. -/
def Obligations.ReadwordAnswersTheWord : Prop :=
  ∀ (s : State) (mu : MicroState) (sa : SlotNum) (index : Word),
    InPhase s (.readword sa index) .body mu → mu.held = [] → mu.reserved = none →
    (if (s.slot sa.toNat).wr ≠ none then exec (.readword sa index) s = .fault .waiting
     else if (s.slot sa.toNat).st ≠ .valid then
      EndsWith s (exec (.readword sa index) s) .badSlot 0 s.slot
     else if ((s.slot sa.toNat).m.toNat + 63) / 64 ≤ index.toNat then
      EndsWith s (exec (.readword sa index) s) .badOperand 0 s.slot
     else
      EndsWith s (exec (.readword sa index) s) .ok (s.wordLoad sa.toNat index.toNat) s.slot)

/-! ## Insert and test -/

/-- The steps of `ADD` after its acquisition (R115): the set step of key number `pos` ORs the mask of
the index `(h XOR key) mod m` into the index's word and changes no other word, field or slot; the last
step adds 1 to `n`, releases the guard and answers `(OK, 0)`. -/
def Obligations.AddSetsOneBitPerKeyThenCounts : Prop :=
  ∀ (s : State) (mu : MicroState) (sa : SlotNum) (h : Word),
    s.inv = true →
    (InPhase s (.add sa h) .set mu →
      ∀ idx, idx = (h ^^^ (s.slot sa.toNat).keys.getD mu.pos 0).toNat % (s.slot sa.toNat).m.toNat →
      ∃ t, exec (.add sa h) s = .next t ∧
        GoesOn s t { mu with
          pos   := mu.pos + 1
          phase := if mu.pos + 1 < (s.slot sa.toNat).k.toNat then .set else .body } ∧
        (∀ j, t.wordLoad sa.toNat j =
          if j = idx / 64 then s.wordLoad sa.toNat j ||| (1#64 <<< (idx % 64))
          else s.wordLoad sa.toNat j) ∧
        ∀ x, t.slot x =
          if x = sa.toNat then { s.slot x with bits := (t.slot x).bits } else s.slot x) ∧
    (InPhase s (.add sa h) .body mu →
      EndsWith s (exec (.add sa h) s) .ok 0
        (s.slotsWith sa.toNat
          { s.slot sa.toNat with
            n := (s.slot sa.toNat).n + 1, rd := (s.slot sa.toNat).rd - 1 }))

/-- The steps of `ADDC` after its acquisition (R116): the load step of key number `pos` ANDs the bit at
the index `(h XOR key) mod m` into the flag and changes no slot; the set step ORs the same index's mask
into its word; the last step adds 1 to `n`, releases the guard and answers the flag. -/
def Obligations.AddcLoadsThenSetsPerKeyThenCounts : Prop :=
  ∀ (s : State) (mu : MicroState) (sa : SlotNum) (h : Word) (idx : Nat),
    s.inv = true →
    idx = (h ^^^ (s.slot sa.toNat).keys.getD mu.pos 0).toNat % (s.slot sa.toNat).m.toNat →
    (InPhase s (.addc sa h) .load mu →
      ContinuesWith s (exec (.addc sa h) s)
        { mu with
          flag  := mu.flag && (s.wordLoad sa.toNat (idx / 64)).getLsbD (idx % 64)
          phase := .set }
        s.slot) ∧
    (InPhase s (.addc sa h) .set mu →
      ∃ t, exec (.addc sa h) s = .next t ∧
        GoesOn s t { mu with
          pos   := mu.pos + 1
          phase := if mu.pos + 1 < (s.slot sa.toNat).k.toNat then .load else .body } ∧
        (∀ j, t.wordLoad sa.toNat j =
          if j = idx / 64 then s.wordLoad sa.toNat j ||| (1#64 <<< (idx % 64))
          else s.wordLoad sa.toNat j) ∧
        ∀ x, t.slot x =
          if x = sa.toNat then { s.slot x with bits := (t.slot x).bits } else s.slot x) ∧
    (InPhase s (.addc sa h) .body mu →
      EndsWith s (exec (.addc sa h) s) .ok (if mu.flag then 1 else 0)
        (s.slotsWith sa.toNat
          { s.slot sa.toNat with
            n := (s.slot sa.toNat).n + 1, rd := (s.slot sa.toNat).rd - 1 }))

/-- The steps of `CONTAINS` after its acquisition (R117): the load step of key number `pos` ANDs the bit
at the index `(h XOR key) mod m` into the flag; the last step releases the guard and answers the flag.
No word and no counter changes. -/
def Obligations.ContainsLoadsPerKeyAndWritesNothing : Prop :=
  ∀ (s : State) (mu : MicroState) (sa : SlotNum) (h : Word) (idx : Nat),
    s.inv = true →
    idx = (h ^^^ (s.slot sa.toNat).keys.getD mu.pos 0).toNat % (s.slot sa.toNat).m.toNat →
    (InPhase s (.contains sa h) .load mu →
      ContinuesWith s (exec (.contains sa h) s)
        { mu with
          flag  := mu.flag && (s.wordLoad sa.toNat (idx / 64)).getLsbD (idx % 64)
          pos   := mu.pos + 1
          phase := if mu.pos + 1 < (s.slot sa.toNat).k.toNat then .load else .body }
        s.slot) ∧
    (InPhase s (.contains sa h) .body mu →
      EndsWith s (exec (.contains sa h) s) .ok (if mu.flag then 1 else 0)
        (s.slotsWith sa.toNat
          { s.slot sa.toNat with rd := (s.slot sa.toNat).rd - 1 }))

/-- `ADD` alone on a `VALID` slot without an exclusive holder (R115, R187): it takes `k + 3`
micro-steps, the decode step counted, answers `(OK, 0)`, sets exactly the `k` bits its hash selects,
adds 1 to `n`, and changes nothing else. -/
def Obligations.AddAloneSetsItsBits : Prop :=
  ∀ (s : State) (p : Nat) (sa : SlotNum) (h : Word),
    s.inv = true → AboutTo s p (.add sa h) →
    (s.slot sa.toNat).st = .valid → (s.slot sa.toNat).wr = none →
    ∃ t, State.solo p (s.keyCount sa.toNat + 3) s = .next t ∧
      Answers { s with turn := p } t .ok 0 ∧
      (∀ i, t.bit sa.toNat i = true ↔
        s.bit sa.toNat i = true ∨
          ∃ j, j < s.keyCount sa.toNat ∧ i = s.target sa.toNat h j) ∧
      ∀ x, t.slot x =
        if x = sa.toNat then { s.slot x with bits := (t.slot x).bits, n := (s.slot x).n + 1 }
        else s.slot x

/-- R119: an `ADDC` during which no other command writes the slot (here it moves alone) answers 1
exactly where every bit its hash selects was set before; it sets those bits and adds 1 to `n`, in
`2k + 3` micro-steps (R187). -/
def Obligations.AddcAloneTellsWhetherAllWereSet : Prop :=
  ∀ (s : State) (p : Nat) (sa : SlotNum) (h : Word),
    s.inv = true → AboutTo s p (.addc sa h) →
    (s.slot sa.toNat).st = .valid → (s.slot sa.toNat).wr = none →
    ∃ t result, State.solo p (2 * s.keyCount sa.toNat + 3) s = .next t ∧
      Answers { s with turn := p } t .ok result ∧
      ((∀ j, j < s.keyCount sa.toNat → s.bit sa.toNat (s.target sa.toNat h j) = true) →
        result = 1) ∧
      (¬ (∀ j, j < s.keyCount sa.toNat → s.bit sa.toNat (s.target sa.toNat h j) = true) →
        result = 0) ∧
      (∀ i, t.bit sa.toNat i = true ↔
        s.bit sa.toNat i = true ∨
          ∃ j, j < s.keyCount sa.toNat ∧ i = s.target sa.toNat h j) ∧
      ∀ x, t.slot x =
        if x = sa.toNat then { s.slot x with bits := (t.slot x).bits, n := (s.slot x).n + 1 }
        else s.slot x

/-- `CONTAINS` alone (R117, R120): it answers 1 exactly where every bit its hash selects is set,
whether or not any `ADD` was given that hash, and leaves every slot as it was, in `k + 3`
micro-steps. -/
def Obligations.ContainsAloneTellsWhetherAllAreSet : Prop :=
  ∀ (s : State) (p : Nat) (sa : SlotNum) (h : Word),
    s.inv = true → AboutTo s p (.contains sa h) →
    (s.slot sa.toNat).st = .valid → (s.slot sa.toNat).wr = none →
    ∃ t result, State.solo p (s.keyCount sa.toNat + 3) s = .next t ∧
      Answers { s with turn := p } t .ok result ∧
      ((∀ j, j < s.keyCount sa.toNat → s.bit sa.toNat (s.target sa.toNat h j) = true) →
        result = 1) ∧
      (¬ (∀ j, j < s.keyCount sa.toNat → s.bit sa.toNat (s.target sa.toNat h j) = true) →
        result = 0) ∧
      ∀ x, t.slot x = s.slot x

/-! ## Comparator, merger and copy -/

/-- R130, R131: bit 0 of the mask says the `m` values differ, bit 1 that the `k` values do, bit 2 that
the key sequences do (always where the counts do); no other bit is set; the mask is 0 exactly for
compatible filters, and it is symmetric. -/
def Obligations.CompatMaskNamesTheDifferences : Prop :=
  ∀ a b : Slot,
    ((compatMask a b).getLsbD 0 = true ↔ a.m ≠ b.m) ∧
    ((compatMask a b).getLsbD 1 = true ↔ a.k ≠ b.k) ∧
    ((compatMask a b).getLsbD 2 = true ↔
      a.k ≠ b.k ∨ ∃ i, i < a.k.toNat ∧ a.keys.getD i 0 ≠ b.keys.getD i 0) ∧
    (∀ j, 3 ≤ j → (compatMask a b).getLsbD j = false) ∧
    (compatMask a b = 0 ↔ a.compatible b) ∧
    compatMask a b = compatMask b a

/-- The body of `ISCOMPAT` (R132): it answers 1 for compatible filters, else 0, releases both guards and
changes nothing else. -/
def Obligations.IscompatAnswersCompatibility : Prop :=
  ∀ (s : State) (mu : MicroState) (sa sb : SlotNum) (result : Word),
    s.inv = true → InPhase s (.iscompat sa sb) .body mu →
    ((s.slot sa.toNat).compatible (s.slot sb.toNat) → result = 1) →
    (¬ (s.slot sa.toNat).compatible (s.slot sb.toNat) → result = 0) →
    EndsWith s (exec (.iscompat sa sb) s) .ok result fun x =>
      if x = sa.toNat ∨ x = sb.toNat then { s.slot x with wr := none } else s.slot x

/-- The body of `VERIFYCOMPAT` (R133): `(OK, 0)` for compatible filters, else `Incompatible` with the
mask of R131; it releases both guards and changes nothing else. -/
def Obligations.VerifycompatReportsTheMask : Prop :=
  ∀ (s : State) (mu : MicroState) (sa sb : SlotNum),
    s.inv = true → InPhase s (.verifycompat sa sb) .body mu →
    ((s.slot sa.toNat).compatible (s.slot sb.toNat) →
      EndsWith s (exec (.verifycompat sa sb) s) .ok 0 fun x =>
        if x = sa.toNat ∨ x = sb.toNat then { s.slot x with wr := none } else s.slot x) ∧
    (¬ (s.slot sa.toNat).compatible (s.slot sb.toNat) →
      EndsWith s (exec (.verifycompat sa sb) s) .incompatible
        (compatMask (s.slot sa.toNat) (s.slot sb.toNat)) fun x =>
        if x = sa.toNat ∨ x = sb.toNat then { s.slot x with wr := none } else s.slot x)

/-- The body of `UNIONIP` (R134): for compatible filters every word of `SA` becomes the OR of the two
operands' words, and `SA`'s `n` and every other field of every slot stay, but for the released guards;
otherwise `Incompatible` with the mask, and no filter changes. -/
def Obligations.UnionipMergesIntoTheFirst : Prop :=
  ∀ (s : State) (mu : MicroState) (sa sb : SlotNum),
    s.inv = true → InPhase s (.unionip sa sb) .body mu →
    ((s.slot sa.toNat).compatible (s.slot sb.toNat) →
      ∃ t, exec (.unionip sa sb) s = .next t ∧ Answers s t .ok 0 ∧
        (∀ j, t.wordLoad sa.toNat j = s.wordLoad sa.toNat j ||| s.wordLoad sb.toNat j) ∧
        ∀ x, t.slot x =
          if x = sa.toNat then { s.slot x with bits := (t.slot x).bits, wr := none }
          else if x = sb.toNat then { s.slot x with wr := none } else s.slot x) ∧
    (¬ (s.slot sa.toNat).compatible (s.slot sb.toNat) →
      EndsWith s (exec (.unionip sa sb) s) .incompatible
        (compatMask (s.slot sa.toNat) (s.slot sb.toNat)) fun x =>
        if x = sa.toNat ∨ x = sb.toNat then { s.slot x with wr := none } else s.slot x)

/-- The body of `UNION` (R135): for compatible filters the reserved slot `SD` becomes `VALID` with
`SA`'s `m` and keys, the OR of the two operands' words and `n = 0`, and the operands change in nothing
but the released guards; otherwise `Incompatible` with the mask, `SD` back to `FREE`. -/
def Obligations.UnionBuildsTheMerge : Prop :=
  ∀ (s : State) (mu : MicroState) (sd sa sb : SlotNum),
    s.inv = true → InPhase s (.union sd sa sb) .body mu →
    ((s.slot sa.toNat).compatible (s.slot sb.toNat) →
      ∃ t, exec (.union sd sa sb) s = .next t ∧ Answers s t .ok 0 ∧
        (∀ j, t.wordLoad sd.toNat j = s.wordLoad sa.toNat j ||| s.wordLoad sb.toNat j) ∧
        ∀ x, t.slot x =
          if x = sd.toNat then
            { s.slot x with
              st := .valid, m := (s.slot sa.toNat).m, k := (s.slot sa.toNat).k
              keys := (s.slot sa.toNat).keys, bits := (t.slot x).bits, n := 0 }
          else if x = sa.toNat ∨ x = sb.toNat then { s.slot x with wr := none } else s.slot x) ∧
    (¬ (s.slot sa.toNat).compatible (s.slot sb.toNat) →
      EndsWith s (exec (.union sd sa sb) s) .incompatible
        (compatMask (s.slot sa.toNat) (s.slot sb.toNat)) fun x =>
        if x = sd.toNat then { s.slot x with st := .free }
        else if x = sa.toNat ∨ x = sb.toNat then { s.slot x with wr := none } else s.slot x)

/-- The body of `COPY` (R136): the reserved slot `SD` becomes `VALID` with `SA`'s `m`, keys, words and
`n`, and `SA` changes in nothing but the released guard. -/
def Obligations.CopySnapshotsTheSource : Prop :=
  ∀ (s : State) (mu : MicroState) (sd sa : SlotNum),
    s.inv = true → InPhase s (.copy sd sa) .body mu →
    EndsWith s (exec (.copy sd sa) s) .ok 0 fun x =>
      if x = sd.toNat then
        { s.slot x with
          st := .valid, m := (s.slot sa.toNat).m, k := (s.slot sa.toNat).k
          keys := (s.slot sa.toNat).keys, bits := (s.slot sa.toNat).bits, n := (s.slot sa.toNat).n }
      else if x = sa.toNat then { s.slot x with wr := none } else s.slot x

/-- One slot named twice, for a command alone on a `VALID` slot nobody holds, under either lock order:
`ISCOMPAT s, s` answers `(OK, 1)` and `VERIFYCOMPAT s, s` and `UNIONIP s, s` answer `(OK, 0)` after three
micro-steps (decode, one guard, body), every slot as it was; and `UNION d, s, s` into a `FREE` slot
answers `(OK, 0)` after four, every other slot as it was. It rests on R57, R132 to R135, R137 and R187;
that one guard is acquired in general is in `ExclusiveAcquisitionInLockOrder`. -/
def Obligations.SameSlotTakesOneGuard : Prop :=
  ∀ (s : State) (p : Nat) (sd sa : SlotNum) (i : Instr) (result : Word),
    s.inv = true → AboutTo s p i →
    (s.slot sa.toNat).st = .valid → (s.slot sa.toNat).wr = none → (s.slot sa.toNat).rd = 0 →
    ((i = .iscompat sa sa ∧ result = 1) ∨ (i = .verifycompat sa sa ∧ result = 0) ∨
        (i = .unionip sa sa ∧ result = 0) →
      EndsWith { s with turn := p } (State.solo p 3 s) .ok result s.slot) ∧
    (i = .union sd sa sa → (s.slot sd.toNat).st = .free → sd.toNat < s.cfg.numSlots →
      ∃ t, State.solo p 4 s = .next t ∧ Answers { s with turn := p } t .ok 0 ∧
        ∀ x, x ≠ sd.toNat → t.slot x = s.slot x)

/-! ## Errors -/

/-- The statuses each command can give are those of R152, `HashMismatch` is never given (R151), and a
command the decoder rejects is answered with the decoder's status and 0 (R155). -/
def Obligations.StatusesFollowTheTable : Prop :=
  ∀ (s t : State) (p : Nat) (c : Command) (r : Response),
    s.inv = true → (s.port p).nextCommand = some c → s.stepPort p = .next t →
    (t.port p).resp = (s.port p).resp ++ [r] →
    (∀ i, decode c = .ok i → r.status ∈ possibleStatuses i) ∧
    (∀ st, decode c = .error st → r = { status := st, result := 0 }) ∧
    r.status ≠ .hashMismatch

/-- R80: `RESULT` is 0 in every response but the `OK` responses of the commands that return a value and
the `Incompatible` responses, which carry a nonzero 3-bit mask; a returned flag is 0 or 1. -/
def Obligations.ResultsAreZeroButWhereR80SaysOtherwise : Prop :=
  ∀ (s t : State) (p : Nat) (i : Instr) (r : Response),
    s.inv = true → (s.port p).nextCommand.bind (fun c => (decode c).toOption) = some i →
    s.stepPort p = .next t → (t.port p).resp = (s.port p).resp ++ [r] →
    (r.result ≠ 0 →
      (r.status = .ok ∧
        i.op ∈ [Op.addc, .contains, .iscompat, .getm, .getk, .getn, .getkey, .readword]) ∨
      (r.status = .incompatible ∧ i.op ∈ [Op.verifycompat, .unionip, .union])) ∧
    (r.status = .incompatible → r.result ≠ 0 ∧ r.result.toNat < 8) ∧
    (i.op ∈ [Op.addc, .contains, .iscompat] → r.result = 0 ∨ r.result = 1)

/-- Errors are precise (R156, R104, R14): a command that fails releases its guards, returns the slot it
reserved to `FREE`, and leaves every other field of every slot; and it had set no bit before (an `ADD`
or `ADDC` fails at its first key or before). -/
def Obligations.FailuresLeaveNoTrace : Prop :=
  ∀ (s t : State) (p : Nat) (mu : MicroState) (r : Response),
    s.inv = true → (s.port p).busy = some mu → s.stepPort p = .next t →
    (t.port p).resp = (s.port p).resp ++ [r] → r.status ≠ .ok →
    mu.pos = 0 ∧
    ∀ x, t.slot x =
      { s.slot x with
        st := if mu.reserved = some x then .free else (s.slot x).st
        rd := (s.slot x).rd - mu.held.count (x, .shared)
        wr := if (x, Mode.exclusive) ∈ mu.held then none else (s.slot x).wr }

/-- No read has a side effect (R46): the reading commands change no lifecycle state and no filter field
of any slot, at any of their micro-steps. -/
def Obligations.ReadsHaveNoSideEffect : Prop :=
  ∀ (s t : State) (i : Instr),
    i.op ∈ [Op.getm, .getk, .getn, .getkey, .readword, .contains, .iscompat, .verifycompat] →
    (∀ mu, s.inFlight = some mu → mu.reserved = none) →
    exec i s = .next t →
    ∀ x, (t.slot x).st = (s.slot x).st ∧ (t.slot x).sameFilter (s.slot x)

/-! ## Reset and the invariant -/

/-- R34: the state after reset, in every configuration: every slot `FREE` with an idle guard, every port
at index 0 with no command in flight and no responses. -/
def Obligations.ResetStateFollowsR34 : Prop :=
  ∀ cfg : Config,
    (State.resetOf cfg).cfg = cfg ∧
    (State.resetOf cfg).slots.length = cfg.numSlots ∧
    (State.resetOf cfg).ports.length = cfg.numPorts ∧
    (∀ x, ((State.resetOf cfg).slot x).st = .free ∧ ((State.resetOf cfg).slot x).rd = 0 ∧
      ((State.resetOf cfg).slot x).wr = none) ∧
    (∀ p, ((State.resetOf cfg).port p).pc = 0 ∧ ((State.resetOf cfg).port p).busy = none ∧
      ((State.resetOf cfg).port p).resp = [])

/-- The reset state of every legal configuration meets the invariant (R34), `State.reset` among them. -/
def Obligations.ResetMeetsTheInvariant : Prop :=
  (∀ cfg : Config, cfg.legal = true → (State.resetOf cfg).inv = true) ∧ State.reset.inv = true

/-- Every launch state (R182) meets the invariant. -/
def Obligations.LaunchStatesMeetTheInvariant : Prop :=
  ∀ s : State, s.launchOk = true → s.inv = true

/-- Every step, and every move of any port, keeps the invariant: the bounds and distinct keys of every
filter and its zero padding (R22, R23, R25), the guards (R27), the reservations (R21), the micro-states
(R30), and the canonical form of every memory. -/
def Obligations.StepsKeepTheInvariant : Prop :=
  ∀ s t : State, s.inv = true →
    (step s = .next t → t.inv = true) ∧ (Moves s t → t.inv = true)

/-- R25: while a slot is `VALID`, every bit of its vector at a bit index `>= m` is 0. -/
def Obligations.PaddingBitsAreZero : Prop :=
  ∀ (s : State) (x : Nat), s.inv = true → (s.slot x).st = .valid →
    ∀ i, (s.slot x).m.toNat ≤ i → s.bit x i = false

/-- While a slot stays `VALID`, no bit of its vector falls from 1 to 0, and a word changes only in a
set step of an `ADD` or `ADDC` on the slot or in the body of a `UNIONIP` into it (R49). -/
def Obligations.BitsOfAValidSlotNeverFall : Prop :=
  ∀ (s t : State) (p x : Nat), s.inv = true → s.advance.stepPort p = .next t →
    (s.slot x).st = .valid → (t.slot x).st = .valid →
    (∀ i, s.bit x i = true → t.bit x i = true) ∧
    ((t.slot x).bits ≠ (s.slot x).bits →
      ∃ mu, (s.port p).busy = some mu ∧
        ((∃ sa h, (mu.cmd = .add sa h ∨ mu.cmd = .addc sa h) ∧ sa.toNat = x ∧ mu.phase = .set) ∨
         (∃ sa sb, mu.cmd = .unionip sa sb ∧ sa.toNat = x ∧ mu.phase = .body)))

/-- While a slot stays `VALID`, its `m`, its `k` and its keys never change (R22, R23). -/
def Obligations.SizeAndKeysAreImmutable : Prop :=
  ∀ (s t : State) (x : Nat), s.inv = true → Moves s t →
    (s.slot x).st = .valid → (t.slot x).st = .valid →
    (t.slot x).m = (s.slot x).m ∧ (t.slot x).k = (s.slot x).k ∧ (t.slot x).keys = (s.slot x).keys

/-- The counter `n` of a `VALID` slot changes only in the ways of R26: the last step of an `ADD` or
`ADDC` on the slot adds 1 modulo `2^64`; `CREATE`, `NEWCOMPAT` and `UNION` leave 0 in the slot they fill;
`COPY` leaves its source's. -/
def Obligations.CounterChangesOnlyAsR26Says : Prop :=
  ∀ (s t : State) (p x : Nat), s.inv = true → s.advance.stepPort p = .next t →
    (t.slot x).st = .valid →
    ((s.slot x).st = .valid ∧ (t.slot x).n = (s.slot x).n) ∨
    ((s.slot x).st = .valid ∧ (t.slot x).n = (s.slot x).n + 1 ∧
      ∃ mu sa h, (s.port p).busy = some mu ∧ (mu.cmd = .add sa h ∨ mu.cmd = .addc sa h) ∧
        sa.toNat = x ∧ mu.phase = .body) ∨
    ((s.slot x).st ≠ .valid ∧ (t.slot x).n = 0 ∧
      ∃ mu, (s.port p).busy = some mu ∧
        ((∃ sd m keys, mu.cmd = .create sd m keys ∧ sd.toNat = x) ∨
         (∃ sd sa, mu.cmd = .newcompat sd sa ∧ sd.toNat = x) ∨
         (∃ sd sa sb, mu.cmd = .union sd sa sb ∧ sd.toNat = x))) ∨
    ((s.slot x).st ≠ .valid ∧
      ∃ mu sd sa, (s.port p).busy = some mu ∧ mu.cmd = .copy sd sa ∧ sd.toNat = x ∧
        (t.slot x).n = (s.slot sa.toNat).n)

/-- The transitions of a slot's lifecycle state are those of R21's table, each by the command the table
names. -/
def Obligations.LifecycleFollowsTheTable : Prop :=
  ∀ (s t : State) (p x : Nat), s.inv = true → s.advance.stepPort p = .next t →
    (t.slot x).st ≠ (s.slot x).st →
    ∃ mu, (s.port p).busy = some mu ∧
      (((s.slot x).st = .free ∧ (t.slot x).st = .valid ∧
          ((∃ sd m keys, mu.cmd = .create sd m keys ∧ sd.toNat = x) ∨
           (∃ sd sa, mu.cmd = .newcompat sd sa ∧ sd.toNat = x))) ∨
       ((s.slot x).st = .free ∧ (t.slot x).st = .reserved ∧ mu.phase = .reserve ∧
          ((∃ sd sa, mu.cmd = .copy sd sa ∧ sd.toNat = x) ∨
           (∃ sd sa sb, mu.cmd = .union sd sa sb ∧ sd.toNat = x))) ∨
       ((s.slot x).st = .reserved ∧ (t.slot x).st = .valid ∧ mu.reserved = some x ∧
          mu.phase = .body ∧
          ((∃ sd sa, mu.cmd = .copy sd sa ∧ sd.toNat = x) ∨
           (∃ sd sa sb, mu.cmd = .union sd sa sb ∧ sd.toNat = x))) ∨
       ((s.slot x).st = .reserved ∧ (t.slot x).st = .free ∧ mu.reserved = some x ∧
          (∃ r, (t.port p).resp = (s.port p).resp ++ [r] ∧ r.status ≠ .ok) ∧
          ((∃ sd sa, mu.cmd = .copy sd sa ∧ sd.toNat = x) ∨
           (∃ sd sa sb, mu.cmd = .union sd sa sb ∧ sd.toNat = x))) ∨
       ((s.slot x).st = .valid ∧ (t.slot x).st = .free ∧ ∃ sa, mu.cmd = .release sa ∧ sa.toNat = x))

/-- R62: once a command holds a guard on a slot, the slot stays `VALID` until that command releases the
guard. -/
def Obligations.HeldSlotsStayValid : Prop :=
  ∀ (s t : State) (p x : Nat) (mode : Mode), s.inv = true → Moves s t →
    (x, mode) ∈ (s.port p).holds → (s.slot x).st = .valid ∧
      ((x, mode) ∈ (t.port p).holds → (t.slot x).st = .valid)

/-! ## Concurrency -/

/-- While a command holds a slot's guard in exclusive mode, no micro-step of another port changes
anything of the slot (R50, R58, R59): nobody sees a part of its work, and nobody writes under it. -/
def Obligations.ExclusiveHolderIsAlone : Prop :=
  ∀ (s t : State) (p q x : Nat), s.inv = true → (x, Mode.exclusive) ∈ (s.port p).holds →
    q ≠ p → s.advance.stepPort q = .next t → t.slot x = s.slot x

/-- What R28 calls unobservable is so: two sound states that differ at most in the filter fields of
slots that are not `VALID` step to states that differ at most so, with the same responses, or stop
alike. -/
def Obligations.FieldsOfUnfilledSlotsAreUnobservable : Prop :=
  ∀ s s' : State, s.inv = true → s.sameView s' →
    (∀ t, step s = .next t → ∃ t', step s' = .next t' ∧ t.sameView t') ∧
    (∀ f, step s = .fault f → step s' = .fault f) ∧
    (∀ p t, s.stepPort p = .next t → ∃ t', s'.stepPort p = .next t' ∧ t.sameView t')

/-- In an `ADD` or `ADDC` in flight the bits of the keys already passed are set, at every interleaving
(R48 (d), R193): it holds at every launch state and every move keeps it. With it, the increment of `n`
comes after all `k` bits. -/
def Obligations.BitsAreSetBeforeTheCount : Prop :=
  (∀ s : State, s.launchOk = true → s.bitsBeforeCount) ∧
  (∀ s t : State, s.inv = true → s.bitsBeforeCount → Moves s t → t.bitsBeforeCount) ∧
  (∀ (s : State) (p : Nat) (mu : MicroState) (sa : SlotNum) (h : Word),
    s.inv = true → s.bitsBeforeCount → (s.port p).busy = some mu →
    (mu.cmd = .add sa h ∨ mu.cmd = .addc sa h) → mu.phase = .body →
    ∀ j, j < s.keyCount sa.toNat → s.bit sa.toNat (s.target sa.toNat h j) = true)

/-- R118, no false negatives, at every interleaving of any other commands: an `ADD` or `ADDC` of a hash
has responded `OK` at `s1`, a `CONTAINS` of the hash is decoded after that, and the slot stays `VALID`
from the one to the other's response; then the `CONTAINS` responds `(OK, 1)`. -/
def Obligations.NoFalseNegatives : Prop :=
  ∀ (s0 s1 s2 : State) (p q : Nat) (sa : SlotNum) (h : Word) (r r' : Response),
    s0.inv = true →
    (AboutTo s0 p (.add sa h) ∨ AboutTo s0 p (.addc sa h)) →
    RunWith (fun s => (s.slot sa.toNat).st = .valid) s0 s1 →
    FirstResponse s0 s1 p r → r.status = .ok →
    AboutTo s1 q (.contains sa h) →
    RunWith (fun s => (s.slot sa.toNat).st = .valid) s1 s2 →
    FirstResponse s1 s2 q r' →
    r' = { status := .ok, result := 1 }

/-- R190: two `ADDC` commands with the same hash, in flight at the same time on one slot, may both
respond 0: some launch state and some interleaving from it show it. -/
def Obligations.RacingAddcsMayBothSayNew : Prop :=
  ∃ (s u t : State) (sa : SlotNum) (h : Word) (mu mu' : MicroState),
    s.launchOk = true ∧ RunWith (fun _ => True) s u ∧
    (u.port 0).busy = some mu ∧ mu.cmd = .addc sa h ∧
    (u.port 1).busy = some mu' ∧ mu'.cmd = .addc sa h ∧
    RunWith (fun _ => True) u t ∧
    FirstResponse u t 0 { status := .ok, result := 0 } ∧
    FirstResponse u t 1 { status := .ok, result := 0 }

/-- Under `ARG_ORDER`, two two-filter commands with opposite operands, each holding its first guard, wait
for each other for good (R185): whatever the other ports do, neither port ever has an enabled
micro-step or another response, and the run never ends. -/
def Obligations.OppositeOperandOrdersDeadlock : Prop :=
  ∀ (s : State) (p q : Nat) (a b : SlotNum) (mu mu' : MicroState),
    s.inv = true → s.cfg.lockOrder = .argOrder → a ≠ b →
    (s.port p).busy = some mu → (s.port q).busy = some mu' →
    mu.cmd ∈ [Instr.unionip a b, .iscompat a b, .verifycompat a b] ∨
      (∃ sd, mu.cmd = .union sd a b) →
    mu'.cmd ∈ [Instr.unionip b a, .iscompat b a, .verifycompat b a] ∨
      (∃ sd, mu'.cmd = .union sd b a) →
    mu.phase = .acquire → mu'.phase = .acquire →
    mu.held = [(a.toNat, .exclusive)] → mu'.held = [(b.toNat, .exclusive)] →
    ∀ t, RunWith (fun _ => True) s t →
      t.stepPort p = .fault .waiting ∧ t.stepPort q = .fault .waiting ∧
      t.port p = s.port p ∧ t.port q = s.port q ∧ step t ≠ .fault .runEnded

/-- R186: under `CANONICAL` no run is ever stuck: in every sound state where some port has a command in
flight or a command left, some port has an enabled micro-step, and the step takes one. -/
def Obligations.CanonicalRunsAreNeverStuck : Prop :=
  ∀ s : State, s.inv = true → s.cfg.lockOrder = .canonical →
    (∃ q, q < s.ports.length ∧ ((s.port q).busy ≠ none ∨ (s.port q).pc < (s.port q).prog.length)) →
    (∃ p, s.enabled p = true) ∧ ∃ t, step s = .next t

/-- R187: every run is finite. Every move of any port leaves less work, where the work counts for each
command not yet issued at most the bound of R187 (`2k + 3` for `ADDC`, `k + 3` for `ADD` and `CONTAINS`,
5 for every other command, with `k` at its largest), so a run from a sound state takes no more
micro-steps than its work. -/
def Obligations.EveryRunIsFinite : Prop :=
  (∀ s t : State, s.inv = true → Moves s t → t.work < s.work) ∧
  (∀ (n : Nat) (s t : State), s.inv = true → Host.Core.run Sys2Proof.core n s = .next t →
    n ≤ s.work) ∧
  (∀ s : State, s.launchOk = true →
    s.work = (s.ports.map fun p => ((p.prog.drop p.pc).map (commandWork s.cfg)).sum).sum)

/-- Every command of the table, issued while no other command is in flight, runs to its response within
the bound of R187, counting the decode step, and its status is one R152 gives it. -/
def Obligations.EveryCommandAloneResponds : Prop :=
  ∀ (s : State) (p : Nat) (i : Instr), s.inv = true → AboutTo s p i →
    (∀ q, q ≠ p → (s.port q).busy = none) →
    ∃ n t r, n ≤ stepBound s.cfg i ∧ State.solo p n s = .next t ∧
      (t.port p).busy = none ∧ (t.port p).pc = (s.port p).pc + 1 ∧
      (t.port p).resp = (s.port p).resp ++ [r] ∧ r.status ∈ possibleStatuses i
end

