-- ==== Sys2Proof/Laws/Decode.lean ====
section
/-! SUPPORT. The header's fields survive packing, the opcode map selects each row by its own value,
and what the decoder's acceptance says. -/

namespace Sys2Proof

/-- Unpacking a packed header gives its fields back (R71). -/
theorem unpack_pack (f : Header) : Header.unpack (Header.pack f) = f := by
  obtain ⟨op, sa, sb, sd, k32⟩ := f
  simp only [Header.unpack, Header.pack, Header.mk.injEq]
  refine ⟨?_, ?_, ?_, ?_, ?_⟩ <;>
  · ext i hi
    simp only [BitVec.getElem_extractLsb', BitVec.getLsbD_append]
    rw [← BitVec.getLsbD_eq_getElem]
    split_ifs <;> first | omega | (congr 1; omega)

/-- Packing the fields of a header gives the header back (R71). -/
theorem pack_unpack (h : Word) : Header.pack (Header.unpack h) = h := by
  simp only [Header.unpack, Header.pack]
  ext i hi
  rw [← BitVec.getLsbD_eq_getElem, ← BitVec.getLsbD_eq_getElem]
  simp only [BitVec.getLsbD_append, BitVec.getLsbD_extractLsb']
  split_ifs with h1 h2 h3 h4
  · simp [h1]
  · simp only [show i - 8 < 8 by omega, decide_true, Bool.true_and]; congr 1; omega
  · simp only [show i - 8 - 8 < 8 by omega, decide_true, Bool.true_and]; congr 1; omega
  · simp only [show i - 8 - 8 - 8 < 8 by omega, decide_true, Bool.true_and]; congr 1; omega
  · simp only [show i - 8 - 8 - 8 - 8 < 32 by omega, decide_true, Bool.true_and]; congr 1; omega

/-- The opcode value of a row selects the row (R74). -/
@[simp] theorem ofByte_byte (o : Op) : Op.ofByte o.byte = some o := by cases o <;> decide

/-- A selected row has the opcode value (R74). -/
theorem byte_of_ofByte {b : BitVec 8} {o : Op} (h : Op.ofByte b = some o) : o.byte = b := by
  have := List.find?_some h
  simpa using this

/-- The header of a row's command carries its fields (R71). -/
@[simp] theorem unpack_command (o : Op) (sd sa sb : SlotNum) (k32 : KeyCount) (words : List Word) :
    Header.unpack (o.command sd sa sb k32 words).header =
      { op := o.byte, sa := sa, sb := sb, sd := sd, k32 := k32 } := unpack_pack _

/-- What a command the decoder accepts is (R155 steps 1 to 3). -/
theorem decode_eq_ok {c : Command} {i : Instr} :
    decode c = .ok i ↔ ∃ o, Op.ofByte (Header.unpack c.header).op = some o ∧
      o.reservedZero (Header.unpack c.header) = true ∧
      c.words.length = o.operandCount (Header.unpack c.header).k32 ∧
      o.assemble (Header.unpack c.header) c.words = i := by
  unfold decode
  cases Op.ofByte (Header.unpack c.header).op with
  | none => simp
  | some o =>
    by_cases hr : o.reservedZero (Header.unpack c.header) = true <;>
      by_cases hl : c.words.length = o.operandCount (Header.unpack c.header).k32 <;>
      simp [hr, hl]

/-- The decoder rejects by three names only, and the first failing check gives the name (R155). -/
theorem decode_eq_error {c : Command} {st : Status} (h : decode c = .error st) :
    st = .illegalOpcode ∧ Op.ofByte (Header.unpack c.header).op = none ∨
    st = .badOperand ∧ ∃ o, Op.ofByte (Header.unpack c.header).op = some o := by
  unfold decode at h
  cases ho : Op.ofByte (Header.unpack c.header).op with
  | none => simp [ho] at h; simp [h]
  | some o =>
    simp only [ho] at h
    split at h
    · simp at h; simp [h]
    · split at h <;> simp at h
      simp [h]

end Sys2Proof
end

