-- ==== Sys2Proof/Laws/Memory.lean ====
section
/-! SUPPORT. The laws of the words of a bit vector: reads after writes, the canonical form every
operation keeps, and that memories of equal contents are equal data. -/

namespace Sys2Proof.Machine

@[simp] theorem load_zero (j : Nat) : Memory.load Memory.zero j = 0#64 := rfl
@[simp] theorem load_nil (j : Nat) : Memory.load [] j = 0#64 := rfl
@[simp] theorem zero_wf : Memory.wf Memory.zero = true := rfl

theorem load_cons (a j : Nat) (w : Word) (rest : Memory) :
    Memory.load ((a, w) :: rest) j = if a = j then w else Memory.load rest j := rfl

theorem wf_cons {a : Nat} {w : Word} {rest : Memory} :
    Memory.wf ((a, w) :: rest) = true ↔ w ≠ 0#64 ∧ (∀ c ∈ rest, a < c.1) ∧ Memory.wf rest = true := by
  simp [Memory.wf, and_assoc]

/-- An index below every listed one reads 0. -/
theorem load_of_lt {mem : Memory} {j : Nat} (h : ∀ c ∈ mem, j < c.1) : Memory.load mem j = 0#64 := by
  induction mem with
  | nil => rfl
  | cons c rest ih =>
    obtain ⟨a, w⟩ := c
    have ha : j < a := h (a, w) (by simp)
    rw [load_cons, if_neg (by omega)]
    exact ih fun c hc => h c (by simp [hc])

/-- The cells after a write are the written one or old ones. -/
theorem mem_store {mem : Memory} {j : Nat} {v : Word} {c : Nat × Word}
    (h : c ∈ Memory.store mem j v) : c = (j, v) ∨ c ∈ mem := by
  induction mem with
  | nil => simp only [Memory.store] at h; split at h <;> simp_all
  | cons d rest ih =>
    obtain ⟨a, w⟩ := d
    simp only [Memory.store] at h
    split at h
    · split at h <;> simp_all
    · split at h
      · split at h
        · simp_all
        · simp_all; tauto
      · rcases List.mem_cons.1 h with h | h
        · exact .inr (by simp [h])
        · rcases ih h with h | h
          · exact .inl h
          · exact .inr (by simp [h])

/-- A write keeps the canonical form. -/
theorem store_wf {mem : Memory} (j : Nat) (v : Word) (h : Memory.wf mem = true) :
    Memory.wf (Memory.store mem j v) = true := by
  induction mem with
  | nil => simp only [Memory.store]; split <;> simp_all [Memory.wf]
  | cons c rest ih =>
    obtain ⟨a, w⟩ := c
    obtain ⟨hw, hlt, hrest⟩ := wf_cons.1 h
    simp only [Memory.store]
    split
    next hja =>
      split
      · exact h
      · exact wf_cons.2 ⟨‹_›, by
          intro c hc
          rcases List.mem_cons.1 hc with rfl | hc
          · exact hja
          · exact Nat.lt_trans hja (hlt c hc), h⟩
    next hja =>
      split
      next hj =>
        split
        · exact hrest
        · exact wf_cons.2 ⟨‹_›, by subst hj; exact hlt, hrest⟩
      next hj =>
        refine wf_cons.2 ⟨hw, fun c hc => ?_, ih hrest⟩
        rcases mem_store hc with rfl | hc
        · show a < j; omega
        · exact hlt c hc

/-- A read after a write: the written word at its index, every other word as before. -/
theorem load_store {mem : Memory} (h : Memory.wf mem = true) (j i : Nat) (v : Word) :
    Memory.load (Memory.store mem j v) i = if i = j then v else Memory.load mem i := by
  induction mem with
  | nil =>
    by_cases hv : v = 0#64 <;> by_cases hi : i = j <;>
      simp [Memory.store, Memory.load, hv, hi, eq_comm (a := j) (b := i)]
  | cons c rest ih =>
    obtain ⟨a, w⟩ := c
    obtain ⟨hw, hlt, hrest⟩ := wf_cons.1 h
    have ih := ih hrest
    simp only [Memory.store]
    split
    next hja =>
      have h0 : Memory.load ((a, w) :: rest) j = 0#64 := load_of_lt fun c hc => by
        rcases List.mem_cons.1 hc with rfl | hc
        · exact hja
        · exact Nat.lt_trans hja (hlt c hc)
      by_cases hv : v = 0#64
      · by_cases hi : i = j
        · subst hi; simp [hv, h0]
        · simp [hv, hi]
      · rw [if_neg hv, load_cons]
        by_cases hi : i = j
        · simp [hi]
        · simp [hi, Ne.symm hi]
    next hja =>
      split
      next hj =>
        subst hj
        have h0 : Memory.load rest j = 0#64 := load_of_lt hlt
        by_cases hv : v = 0#64
        · by_cases hi : i = j
          · subst hi; simp [hv, h0]
          · simp [hv, hi, load_cons, Ne.symm hi]
        · by_cases hi : i = j
          · simp [hv, hi, load_cons]
          · simp [hv, hi, load_cons, Ne.symm hi]
      next hj =>
        rw [load_cons, load_cons, ih]
        by_cases ha : a = i
        · have : i ≠ j := by omega
          simp [ha, this]
        · simp [ha]

/-- Equal contents in the canonical form are equal data. -/
theorem memory_ext {a b : Memory} (ha : Memory.wf a = true) (hb : Memory.wf b = true)
    (h : ∀ j, Memory.load a j = Memory.load b j) : a = b := by
  induction a generalizing b with
  | nil =>
    cases b with
    | nil => rfl
    | cons d rest =>
      obtain ⟨j, w⟩ := d
      have := h j
      simp [load_cons] at this
      exact absurd this.symm (wf_cons.1 hb).1
  | cons c rest ih =>
    obtain ⟨i, v⟩ := c
    obtain ⟨hv, hlt, hwf⟩ := wf_cons.1 ha
    cases b with
    | nil => exact absurd (by simpa [load_cons] using h i) hv
    | cons d rest' =>
      obtain ⟨j, w⟩ := d
      obtain ⟨hw, hlt', hwf'⟩ := wf_cons.1 hb
      have hij : i = j := by
        rcases Nat.lt_trichotomy i j with hc | hc | hc
        · have h0 : Memory.load ((j, w) :: rest') i = 0#64 := load_of_lt fun c hm => by
            rcases List.mem_cons.1 hm with rfl | hm
            · exact hc
            · exact Nat.lt_trans hc (hlt' c hm)
          exact absurd (by simpa [load_cons, h0] using h i) hv
        · exact hc
        · have h0 : Memory.load ((i, v) :: rest) j = 0#64 := load_of_lt fun c hm => by
            rcases List.mem_cons.1 hm with rfl | hm
            · exact hc
            · exact Nat.lt_trans hc (hlt c hm)
          exact absurd (by simpa [load_cons, h0] using (h j).symm) hw
      subst hij
      have hvw : v = w := by simpa [load_cons] using h i
      subst hvw
      rw [ih hwf hwf' fun j => ?_]
      have := h j
      rw [load_cons, load_cons] at this
      by_cases hj : i = j
      · subst hj; rw [load_of_lt hlt, load_of_lt hlt']
      · simpa [hj] using this

/-! ## Memories built word by word -/

/-- The cells of a built memory. -/
theorem mem_build {count : Nat} {f : Nat → Word} {c : Nat × Word} :
    c ∈ Memory.build count f ↔ c.1 < count ∧ c.2 = f c.1 ∧ c.2 ≠ 0#64 := by
  obtain ⟨a, w⟩ := c
  simp only [Memory.build, List.mem_filterMap, List.mem_range]
  constructor
  · rintro ⟨j, hj, he⟩
    split at he
    · simp at he
    · simp only [Option.some.injEq, Prod.mk.injEq] at he
      obtain ⟨rfl, rfl⟩ := he
      exact ⟨hj, rfl, ‹_›⟩
  · rintro ⟨ha, rfl, h0⟩
    exact ⟨a, ha, by simp [show f a ≠ 0#64 from h0]⟩

theorem build_succ (count : Nat) (f : Nat → Word) :
    Memory.build (count + 1) f =
      Memory.build count f ++ (if f count = 0#64 then [] else [(count, f count)]) := by
  simp only [Memory.build, List.range_succ, List.filterMap_append]
  by_cases h : f count = 0#64 <;> simp [h]

theorem wf_append {a b : Memory} (ha : Memory.wf a = true) (hb : Memory.wf b = true)
    (h : ∀ c ∈ a, ∀ d ∈ b, c.1 < d.1) : Memory.wf (a ++ b) = true := by
  induction a with
  | nil => simpa using hb
  | cons c rest ih =>
    obtain ⟨i, w⟩ := c
    obtain ⟨hw, hlt, hwf⟩ := wf_cons.1 ha
    rw [List.cons_append, wf_cons]
    refine ⟨hw, fun d hd => ?_, ih hwf fun c hc => h c (by simp [hc])⟩
    rcases List.mem_append.1 hd with hd | hd
    · exact hlt d hd
    · exact h (i, w) (by simp) d hd

/-- A built memory is in the canonical form. -/
theorem build_wf (count : Nat) (f : Nat → Word) : Memory.wf (Memory.build count f) = true := by
  induction count with
  | zero => rfl
  | succ count ih =>
    rw [build_succ]
    refine wf_append ih ?_ ?_
    · split
      · rfl
      · simp_all [Memory.wf]
    · intro c hc d hd
      split at hd
      · simp at hd
      · simp at hd; subst hd; exact (mem_build.1 hc).1

theorem load_append {a b : Memory} (j : Nat) (h : ∀ c ∈ a, c.1 ≠ j) :
    Memory.load (a ++ b) j = Memory.load b j := by
  induction a with
  | nil => rfl
  | cons c rest ih =>
    obtain ⟨i, w⟩ := c
    rw [List.cons_append, load_cons, if_neg (h (i, w) (by simp))]
    exact ih fun c hc => h c (by simp [hc])

theorem load_append_left {a b : Memory} (j : Nat) (h : ∀ c ∈ b, c.1 ≠ j) :
    Memory.load (a ++ b) j = Memory.load a j := by
  induction a with
  | nil =>
    induction b with
    | nil => rfl
    | cons c rest ih =>
      obtain ⟨i, w⟩ := c
      have := ih fun c hc => h c (by simp [hc])
      simp only [List.nil_append] at this ⊢
      rw [load_cons, if_neg (h (i, w) (by simp)), this]
  | cons c rest ih =>
    obtain ⟨i, w⟩ := c
    rw [List.cons_append, load_cons, load_cons, ih]

/-- A word of a built memory. -/
theorem load_build (count : Nat) (f : Nat → Word) (j : Nat) :
    Memory.load (Memory.build count f) j = if j < count then f j else 0#64 := by
  induction count with
  | zero => rfl
  | succ count ih =>
    rw [build_succ]
    by_cases hj : j = count
    · subst hj
      rw [load_append j fun c hc => by have := (mem_build.1 hc).1; omega]
      split <;> simp_all [Memory.load]
    · rw [load_append_left j ?_, ih]
      · have : (j < count + 1) = (j < count) := by
          apply propext; omega
        simp [this]
      · intro c hc
        split at hc
        · simp at hc
        · simp at hc; subst hc; exact Ne.symm hj

/-- A word of a merge is the OR of the two operand words (R138). -/
theorem load_mergeWords (count : Nat) (a b : Memory) (j : Nat) :
    Memory.load (mergeWords count a b) j =
      if j < count then Memory.load a j ||| Memory.load b j else 0#64 := load_build ..

theorem mergeWords_wf (count : Nat) (a b : Memory) : Memory.wf (mergeWords count a b) = true :=
  build_wf ..

theorem load_copyWords (count : Nat) (a : Memory) (j : Nat) :
    Memory.load (copyWords count a) j = if j < count then Memory.load a j else 0#64 := load_build ..

theorem copyWords_wf (count : Nat) (a : Memory) : Memory.wf (copyWords count a) = true := build_wf ..

/-- A memory made from any list of cells is in the canonical form. -/
theorem ofList_wf (cells : List (Nat × Word)) : Memory.wf (Memory.ofList cells) = true := by
  suffices h : ∀ mem, Memory.wf mem = true →
      Memory.wf (cells.foldl (fun mem c => Memory.store mem c.1 c.2) mem) = true from h _ zero_wf
  induction cells with
  | nil => exact fun mem h => h
  | cons c cells ih => exact fun mem h => ih _ (store_wf _ _ h)

/-! ## The memories of a state -/

/-- Every slot's memory is in the canonical form. -/
def State.memoryWf (s : State) : Prop := ∀ t ∈ s.slots, Memory.wf t.bits = true

/-- An update of a slot that keeps its memory's form keeps that of every memory. -/
theorem modifySlot_memoryWf {s : State} (x : Nat) {f : Slot → Slot} (h : s.memoryWf)
    (hf : ∀ t, Memory.wf t.bits = true → Memory.wf (f t).bits = true) :
    (s.modifySlot x f).memoryWf := by
  intro t ht
  simp only [State.modifySlot] at ht
  obtain ⟨i, hi, rfl⟩ := List.mem_iff_getElem.1 ht
  have hi' : i < s.slots.length := by simpa using hi
  rw [List.getElem_modify]
  split
  · exact hf _ (h _ (List.getElem_mem _))
  · exact h _ (List.getElem_mem _)

theorem wordStore_memoryWf {s : State} (x j : Nat) (v : Word) (h : s.memoryWf) :
    (s.wordStore x j v).memoryWf := modifySlot_memoryWf x h fun _ ht => store_wf j v ht

theorem wordOr_memoryWf {s : State} (x j : Nat) (v : Word) (h : s.memoryWf) :
    (s.wordOr x j v).memoryWf := wordStore_memoryWf x j _ h

theorem counterInc_memoryWf {s : State} (x : Nat) (h : s.memoryWf) : (s.counterInc x).memoryWf :=
  modifySlot_memoryWf x h fun _ ht => ht

theorem fillSlot_memoryWf {s : State} (x : Nat) (m : Word) (k : KeyCount) (keys : List Word)
    (bits : Memory) (n : Word) (hb : Memory.wf bits = true) (h : s.memoryWf) :
    (s.fillSlot x m k keys bits n).memoryWf := modifySlot_memoryWf x h fun _ _ => hb

theorem freeSlot_memoryWf {s : State} (x : Nat) (h : s.memoryWf) : (s.freeSlot x).memoryWf :=
  modifySlot_memoryWf x h fun _ _ => ofList_wf _

/-- Every memory is in the canonical form after reset. -/
theorem resetOf_memoryWf (cfg : Config) : (State.resetOf cfg).memoryWf := by
  intro t ht
  simp only [State.resetOf] at ht
  rw [List.eq_of_mem_replicate ht]
  rfl

end Sys2Proof.Machine
end

