-- ==== Sys2Proof/Laws/State.lean ====
section
/-! SUPPORT. For each update of the state, what it leaves alone, field by field; and how a slot and a
port read after an update of one. -/

namespace Sys2Proof.Machine

variable (s : State) (x y p q j : Nat) (v : Word)

/-! ## Updates of one slot -/

@[simp] theorem modifySlot_cfg (f : Slot → Slot) : (s.modifySlot x f).cfg = s.cfg := rfl
@[simp] theorem modifySlot_ports (f : Slot → Slot) : (s.modifySlot x f).ports = s.ports := rfl
@[simp] theorem modifySlot_turn (f : Slot → Slot) : (s.modifySlot x f).turn = s.turn := rfl
@[simp] theorem modifySlot_schedule (f : Slot → Slot) : (s.modifySlot x f).schedule = s.schedule := rfl
@[simp] theorem modifySlot_fresh (f : Slot → Slot) : (s.modifySlot x f).fresh = s.fresh := rfl
@[simp] theorem modifySlot_port (f : Slot → Slot) : (s.modifySlot x f).port p = s.port p := rfl
@[simp] theorem modifySlot_inFlight (f : Slot → Slot) : (s.modifySlot x f).inFlight = s.inFlight := rfl

@[simp] theorem modifySlot_slots_length (f : Slot → Slot) :
    (s.modifySlot x f).slots.length = s.slots.length := by simp [State.modifySlot]

theorem slot_of_lt (h : x < s.slots.length) : s.slot x = s.slots[x] := by
  simp [State.slot, List.getD, h]

theorem slot_of_ge (h : s.slots.length ≤ x) : s.slot x = Slot.reset := by
  simp [State.slot, List.getD, h]

/-- A slot after an update of one: only the updated slot, where it exists, reads otherwise. -/
theorem slot_modifySlot (f : Slot → Slot) :
    (s.modifySlot x f).slot y = if y = x ∧ x < s.slots.length then f (s.slot x) else s.slot y := by
  by_cases hy : y < s.slots.length
  · by_cases h : y = x
    · subst h; simp [State.slot, State.modifySlot, hy, List.getD]
    · simp [State.slot, State.modifySlot, List.getD, h, Ne.symm h]
  · have hx : ¬ (y = x ∧ x < s.slots.length) := by omega
    simp [hx, slot_of_ge, Nat.le_of_not_lt hy]

@[simp] theorem slot_modifySlot_self (f : Slot → Slot) (h : x < s.slots.length) :
    (s.modifySlot x f).slot x = f (s.slot x) := by simp [slot_modifySlot, h]

@[simp] theorem slot_modifySlot_ne (f : Slot → Slot) (h : y ≠ x) :
    (s.modifySlot x f).slot y = s.slot y := by simp [slot_modifySlot, h]

/-! ## Updates of one port -/

@[simp] theorem modifyPort_cfg (f : Port → Port) : (s.modifyPort p f).cfg = s.cfg := rfl
@[simp] theorem modifyPort_slots (f : Port → Port) : (s.modifyPort p f).slots = s.slots := rfl
@[simp] theorem modifyPort_turn (f : Port → Port) : (s.modifyPort p f).turn = s.turn := rfl
@[simp] theorem modifyPort_schedule (f : Port → Port) : (s.modifyPort p f).schedule = s.schedule := rfl
@[simp] theorem modifyPort_fresh (f : Port → Port) : (s.modifyPort p f).fresh = s.fresh := rfl
@[simp] theorem modifyPort_slot (f : Port → Port) : (s.modifyPort p f).slot x = s.slot x := rfl

@[simp] theorem modifyPort_ports_length (f : Port → Port) :
    (s.modifyPort p f).ports.length = s.ports.length := by simp [State.modifyPort]

theorem port_of_lt (h : p < s.ports.length) : s.port p = s.ports[p] := by
  simp [State.port, List.getD, h]

theorem port_of_ge (h : s.ports.length ≤ p) : s.port p = Port.reset := by
  simp [State.port, List.getD, h]

theorem ports_getElem? (h : p < s.ports.length) : s.ports[p]? = some (s.port p) := by
  simp [port_of_lt, h]

/-- A port after an update of one: only the updated port, where it exists, reads otherwise. -/
theorem port_modifyPort (f : Port → Port) :
    (s.modifyPort p f).port q = if q = p ∧ p < s.ports.length then f (s.port p) else s.port q := by
  by_cases hq : q < s.ports.length
  · by_cases h : q = p
    · subst h; simp [State.port, State.modifyPort, hq, List.getD]
    · simp [State.port, State.modifyPort, List.getD, h, Ne.symm h]
  · have hp : ¬ (q = p ∧ p < s.ports.length) := by omega
    simp [hp, port_of_ge, Nat.le_of_not_lt hq]

@[simp] theorem port_modifyPort_self (f : Port → Port) (h : p < s.ports.length) :
    (s.modifyPort p f).port p = f (s.port p) := by simp [port_modifyPort, h]

@[simp] theorem port_modifyPort_ne (f : Port → Port) (h : q ≠ p) :
    (s.modifyPort p f).port q = s.port q := by simp [port_modifyPort, h]

/-- A port with a command in flight exists. -/
theorem turn_lt_of_inFlight {mu : MicroState} (h : s.inFlight = some mu) :
    s.turn < s.ports.length := by
  by_contra hlt
  rw [State.inFlight, port_of_ge _ _ (Nat.le_of_not_lt hlt)] at h
  simp [Port.reset] at h

/-! ## The storage primitives -/

@[simp] theorem wordStore_ports : (s.wordStore x j v).ports = s.ports := rfl
@[simp] theorem wordStore_cfg : (s.wordStore x j v).cfg = s.cfg := rfl
@[simp] theorem wordStore_turn : (s.wordStore x j v).turn = s.turn := rfl
@[simp] theorem wordStore_port : (s.wordStore x j v).port p = s.port p := rfl
@[simp] theorem wordOr_ports : (s.wordOr x j v).ports = s.ports := rfl
@[simp] theorem wordOr_cfg : (s.wordOr x j v).cfg = s.cfg := rfl
@[simp] theorem wordOr_turn : (s.wordOr x j v).turn = s.turn := rfl
@[simp] theorem wordOr_schedule : (s.wordOr x j v).schedule = s.schedule := rfl
@[simp] theorem wordOr_fresh : (s.wordOr x j v).fresh = s.fresh := rfl
@[simp] theorem wordOr_port : (s.wordOr x j v).port p = s.port p := rfl
@[simp] theorem wordOr_inFlight : (s.wordOr x j v).inFlight = s.inFlight := rfl
@[simp] theorem wordOr_slots_length : (s.wordOr x j v).slots.length = s.slots.length := by
  simp [State.wordOr, State.wordStore]
@[simp] theorem counterInc_ports : (s.counterInc x).ports = s.ports := rfl
@[simp] theorem counterInc_cfg : (s.counterInc x).cfg = s.cfg := rfl
@[simp] theorem counterInc_turn : (s.counterInc x).turn = s.turn := rfl
@[simp] theorem counterInc_port : (s.counterInc x).port p = s.port p := rfl
@[simp] theorem counterInc_inFlight : (s.counterInc x).inFlight = s.inFlight := rfl
@[simp] theorem counterInc_slots_length : (s.counterInc x).slots.length = s.slots.length := by
  simp [State.counterInc]

/-! ## The end of a command -/

@[simp] theorem releaseGuard_ports (g : Nat × Mode) : (s.releaseGuard g).ports = s.ports := by
  unfold State.releaseGuard; split <;> rfl
@[simp] theorem releaseGuard_cfg (g : Nat × Mode) : (s.releaseGuard g).cfg = s.cfg := by
  unfold State.releaseGuard; split <;> rfl
@[simp] theorem releaseGuard_turn (g : Nat × Mode) : (s.releaseGuard g).turn = s.turn := by
  unfold State.releaseGuard; split <;> rfl
@[simp] theorem releaseGuard_schedule (g : Nat × Mode) : (s.releaseGuard g).schedule = s.schedule := by
  unfold State.releaseGuard; split <;> rfl
@[simp] theorem releaseGuard_fresh (g : Nat × Mode) : (s.releaseGuard g).fresh = s.fresh := by
  unfold State.releaseGuard; split <;> rfl
@[simp] theorem releaseGuard_slots_length (g : Nat × Mode) :
    (s.releaseGuard g).slots.length = s.slots.length := by
  unfold State.releaseGuard; split <;> simp

/-- Releasing guards changes slots only. -/
theorem foldl_releaseGuard_frame (gs : List (Nat × Mode)) :
    (gs.foldl State.releaseGuard s).ports = s.ports ∧ (gs.foldl State.releaseGuard s).cfg = s.cfg ∧
    (gs.foldl State.releaseGuard s).turn = s.turn ∧
    (gs.foldl State.releaseGuard s).schedule = s.schedule ∧
    (gs.foldl State.releaseGuard s).fresh = s.fresh ∧
    (gs.foldl State.releaseGuard s).slots.length = s.slots.length := by
  induction gs generalizing s with
  | nil => simp
  | cons g gs ih => simpa using ih (s.releaseGuard g)

theorem releaseGuards_frame :
    s.releaseGuards.ports = s.ports ∧ s.releaseGuards.cfg = s.cfg ∧
    s.releaseGuards.turn = s.turn ∧ s.releaseGuards.schedule = s.schedule ∧
    s.releaseGuards.fresh = s.fresh ∧ s.releaseGuards.slots.length = s.slots.length := by
  unfold State.releaseGuards
  split
  · simp
  · exact foldl_releaseGuard_frame s _

@[simp] theorem releaseGuards_ports : s.releaseGuards.ports = s.ports := (releaseGuards_frame s).1
@[simp] theorem releaseGuards_cfg : s.releaseGuards.cfg = s.cfg := (releaseGuards_frame s).2.1
@[simp] theorem releaseGuards_turn : s.releaseGuards.turn = s.turn := (releaseGuards_frame s).2.2.1
@[simp] theorem releaseGuards_schedule : s.releaseGuards.schedule = s.schedule :=
  (releaseGuards_frame s).2.2.2.1
@[simp] theorem releaseGuards_fresh : s.releaseGuards.fresh = s.fresh :=
  (releaseGuards_frame s).2.2.2.2.1
@[simp] theorem releaseGuards_slots_length : s.releaseGuards.slots.length = s.slots.length :=
  (releaseGuards_frame s).2.2.2.2.2
@[simp] theorem releaseGuards_port : s.releaseGuards.port p = s.port p := by simp [State.port]
@[simp] theorem releaseGuards_inFlight : s.releaseGuards.inFlight = s.inFlight := by
  simp [State.inFlight]

@[simp] theorem freeReserved_ports : s.freeReserved.ports = s.ports := by
  unfold State.freeReserved; split <;> rfl
@[simp] theorem freeReserved_cfg : s.freeReserved.cfg = s.cfg := by
  unfold State.freeReserved; split <;> rfl
@[simp] theorem freeReserved_turn : s.freeReserved.turn = s.turn := by
  unfold State.freeReserved; split <;> rfl
@[simp] theorem freeReserved_schedule : s.freeReserved.schedule = s.schedule := by
  unfold State.freeReserved; split <;> rfl
@[simp] theorem freeReserved_fresh : s.freeReserved.fresh = s.fresh := by
  unfold State.freeReserved; split <;> rfl
@[simp] theorem freeReserved_slots_length : s.freeReserved.slots.length = s.slots.length := by
  unfold State.freeReserved; split <;> simp
@[simp] theorem freeReserved_port : s.freeReserved.port p = s.port p := by simp [State.port]

variable (st : Status) (r : Word)

@[simp] theorem respond_cfg : (s.respond st r).cfg = s.cfg := rfl
@[simp] theorem respond_slots : (s.respond st r).slots = s.slots := rfl
@[simp] theorem respond_turn : (s.respond st r).turn = s.turn := rfl
@[simp] theorem respond_schedule : (s.respond st r).schedule = s.schedule := rfl
@[simp] theorem respond_fresh : (s.respond st r).fresh = s.fresh := rfl
@[simp] theorem respond_slot : (s.respond st r).slot x = s.slot x := rfl
@[simp] theorem respond_ports_length : (s.respond st r).ports.length = s.ports.length := by
  simp [State.respond]

@[simp] theorem finish_cfg : (s.finish st r).cfg = s.cfg := by simp [State.finish]
@[simp] theorem finish_turn : (s.finish st r).turn = s.turn := by simp [State.finish]
@[simp] theorem finish_schedule : (s.finish st r).schedule = s.schedule := by simp [State.finish]
@[simp] theorem finish_fresh : (s.finish st r).fresh = s.fresh := by simp [State.finish]
@[simp] theorem finish_slots : (s.finish st r).slots = s.releaseGuards.slots := rfl
@[simp] theorem finish_slot : (s.finish st r).slot x = s.releaseGuards.slot x := rfl
@[simp] theorem finish_ports_length : (s.finish st r).ports.length = s.ports.length := by
  simp [State.finish]

@[simp] theorem fail_cfg : (s.fail st r).cfg = s.cfg := by simp [State.fail]
@[simp] theorem fail_turn : (s.fail st r).turn = s.turn := by simp [State.fail]
@[simp] theorem fail_schedule : (s.fail st r).schedule = s.schedule := by simp [State.fail]
@[simp] theorem fail_fresh : (s.fail st r).fresh = s.fresh := by simp [State.fail]
@[simp] theorem fail_slots : (s.fail st r).slots = s.releaseGuards.freeReserved.slots := rfl
@[simp] theorem fail_slot : (s.fail st r).slot x = s.releaseGuards.freeReserved.slot x := rfl
@[simp] theorem fail_ports_length : (s.fail st r).ports.length = s.ports.length := by
  simp [State.fail]

/-! ## The command in flight -/

variable (mu : MicroState)

@[simp] theorem setInFlight_cfg : (s.setInFlight mu).cfg = s.cfg := rfl
@[simp] theorem setInFlight_slots : (s.setInFlight mu).slots = s.slots := rfl
@[simp] theorem setInFlight_turn : (s.setInFlight mu).turn = s.turn := rfl
@[simp] theorem setInFlight_schedule : (s.setInFlight mu).schedule = s.schedule := rfl
@[simp] theorem setInFlight_fresh : (s.setInFlight mu).fresh = s.fresh := rfl
@[simp] theorem setInFlight_slot : (s.setInFlight mu).slot x = s.slot x := rfl
@[simp] theorem setInFlight_ports_length : (s.setInFlight mu).ports.length = s.ports.length := by
  simp [State.setInFlight]

/-! ## Filling and freeing a slot -/

section Fill

variable (m : Word) (k : KeyCount) (keys : List Word) (bits : Memory) (n : Word)

@[simp] theorem fillSlot_ports : (s.fillSlot x m k keys bits n).ports = s.ports := rfl
@[simp] theorem fillSlot_cfg : (s.fillSlot x m k keys bits n).cfg = s.cfg := rfl
@[simp] theorem fillSlot_turn : (s.fillSlot x m k keys bits n).turn = s.turn := rfl
@[simp] theorem fillSlot_schedule : (s.fillSlot x m k keys bits n).schedule = s.schedule := rfl
@[simp] theorem fillSlot_fresh : (s.fillSlot x m k keys bits n).fresh = s.fresh := rfl
@[simp] theorem fillSlot_port : (s.fillSlot x m k keys bits n).port p = s.port p := rfl
@[simp] theorem fillSlot_inFlight : (s.fillSlot x m k keys bits n).inFlight = s.inFlight := rfl
@[simp] theorem fillSlot_slots_length :
    (s.fillSlot x m k keys bits n).slots.length = s.slots.length := by simp [State.fillSlot]

end Fill

@[simp] theorem freeSlot_ports : (s.freeSlot x).ports = s.ports := rfl
@[simp] theorem freeSlot_cfg : (s.freeSlot x).cfg = s.cfg := rfl
@[simp] theorem freeSlot_turn : (s.freeSlot x).turn = s.turn := rfl
@[simp] theorem freeSlot_schedule : (s.freeSlot x).schedule = s.schedule := rfl
@[simp] theorem freeSlot_fresh : (s.freeSlot x).fresh = s.fresh := rfl
@[simp] theorem freeSlot_port : (s.freeSlot x).port p = s.port p := rfl
@[simp] theorem freeSlot_inFlight : (s.freeSlot x).inFlight = s.inFlight := rfl
@[simp] theorem freeSlot_slots_length : (s.freeSlot x).slots.length = s.slots.length := by
  simp [State.freeSlot]

/-! ## The model's own fields -/

@[simp] theorem advance_cfg : s.advance.cfg = s.cfg := rfl
@[simp] theorem advance_slots : s.advance.slots = s.slots := rfl
@[simp] theorem advance_ports : s.advance.ports = s.ports := rfl
@[simp] theorem advance_turn : s.advance.turn = s.turn := rfl
@[simp] theorem advance_slot : s.advance.slot x = s.slot x := rfl
@[simp] theorem advance_port : s.advance.port p = s.port p := rfl
@[simp] theorem withTurn_slot : State.slot { s with turn := q } x = s.slot x := rfl
@[simp] theorem withTurn_port : State.port { s with turn := q } p = s.port p := rfl

end Sys2Proof.Machine
end

