-- ==== Sys2Proof/Laws/Ops.lean ====
section
/-! SUPPORT. For each shared operation, everything it can do, once: responses, guards, reservations,
micro-steps, storage and bits. -/

namespace Sys2Proof.Machine

/-! ## Responses and micro-states -/

/-- `respond` answers, and leaves the slots alone. -/
theorem respond_answers {s : State} (h : s.turn < s.ports.length) (st : Status) (r : Word) :
    Answers s (s.respond st r) st r := by
  refine ⟨rfl, rfl, rfl, rfl, rfl, by simp, fun q hq => ?_, ?_⟩
  · simp [State.respond, hq]
  · simp [State.respond, h]

/-- `Answers` looks at the ports alone, so it passes over a change of slots before the answer. -/
theorem answers_of_slots {s s' t : State} {st : Status} {r : Word} (h : Answers s' t st r)
    (hc : s'.cfg = s.cfg) (ht : s'.turn = s.turn) (hs : s'.schedule = s.schedule)
    (hf : s'.fresh = s.fresh) (hl : s'.slots.length = s.slots.length) (hp : s'.ports = s.ports) :
    Answers s t st r := by
  obtain ⟨h1, h2, h3, h4, h5, h6, h7, h8⟩ := h
  have hport : ∀ q, s'.port q = s.port q := fun q => by simp [State.port, hp]
  exact ⟨h1.trans hc, h2.trans ht, h3.trans hs, h4.trans hf, h5.trans hl, by rw [h6, hp],
    fun q hq => (h7 q (by rwa [ht])).trans (hport q), by rw [← ht, h8, hport]⟩

theorem finish_answers {s : State} (h : s.turn < s.ports.length) (st : Status) (r : Word) :
    Answers s (s.finish st r) st r :=
  answers_of_slots (respond_answers (s := s.releaseGuards) (by simpa) st r)
    (by simp) (by simp) (by simp) (by simp) (by simp) (by simp)

theorem fail_answers {s : State} (h : s.turn < s.ports.length) (st : Status) (r : Word) :
    Answers s (s.fail st r) st r :=
  answers_of_slots (respond_answers (s := s.releaseGuards.freeReserved) (by simpa) st r)
    (by simp) (by simp) (by simp) (by simp) (by simp) (by simp)

theorem setInFlight_goesOn {s : State} (h : s.turn < s.ports.length) (mu : MicroState) :
    GoesOn s (s.setInFlight mu) mu := by
  refine ⟨rfl, rfl, rfl, rfl, rfl, by simp, fun q hq => ?_, ?_⟩
  · simp [State.setInFlight, hq]
  · simp [State.setInFlight, h]

theorem goesOn_of_slots {s s' t : State} {mu : MicroState} (h : GoesOn s' t mu)
    (hc : s'.cfg = s.cfg) (ht : s'.turn = s.turn) (hs : s'.schedule = s.schedule)
    (hf : s'.fresh = s.fresh) (hl : s'.slots.length = s.slots.length) (hp : s'.ports = s.ports) :
    GoesOn s t mu := by
  obtain ⟨h1, h2, h3, h4, h5, h6, h7, h8⟩ := h
  have hport : ∀ q, s'.port q = s.port q := fun q => by simp [State.port, hp]
  exact ⟨h1.trans hc, h2.trans ht, h3.trans hs, h4.trans hf, h5.trans hl, by rw [h6, hp],
    fun q hq => (h7 q (by rwa [ht])).trans (hport q), by rw [← ht, h8, hport]⟩

/-! ## Releasing guards and reservations -/

/-- A slot after guards are released: one shared holder less for each, no exclusive holder. -/
theorem slot_foldl_releaseGuard (s : State) (gs : List (Nat × Mode)) (x : Nat) :
    (gs.foldl State.releaseGuard s).slot x =
      { s.slot x with
        rd := (s.slot x).rd - gs.count (x, .shared)
        wr := if (x, Mode.exclusive) ∈ gs then none else (s.slot x).wr } := by
  induction gs generalizing s with
  | nil => simp
  | cons g gs ih =>
    obtain ⟨y, mode⟩ := g
    rw [List.foldl_cons, ih]
    by_cases hx : x < s.slots.length
    · cases mode <;> by_cases hy : x = y
      · subst hy
        simp [State.releaseGuard, hx, Nat.sub_sub, Nat.add_comm]
      · simp [State.releaseGuard, hy, Ne.symm hy]
      · subst hy
        simp [State.releaseGuard, hx]
      · simp [State.releaseGuard, hy]
    · have hr : ∀ t : State, t.slots.length = s.slots.length → t.slot x = Slot.reset := fun t ht =>
        slot_of_ge _ _ (by omega)
      rw [hr _ (by simp), hr s rfl]
      simp [Slot.reset]

theorem slot_releaseGuards {s : State} {mu : MicroState} (h : s.inFlight = some mu) (x : Nat) :
    s.releaseGuards.slot x =
      { s.slot x with
        rd := (s.slot x).rd - mu.held.count (x, .shared)
        wr := if (x, Mode.exclusive) ∈ mu.held then none else (s.slot x).wr } := by
  simp [State.releaseGuards, h, slot_foldl_releaseGuard]

/-- A slot after the reservation is given up: the reserved slot is `FREE`. -/
theorem slot_freeReserved {s : State} {mu : MicroState} (h : s.inFlight = some mu) (x : Nat) :
    s.freeReserved.slot x =
      if mu.reserved = some x ∧ x < s.slots.length then { s.slot x with st := .free } else s.slot x := by
  simp only [State.freeReserved, h, Option.bind_some]
  split
  next h0 => simp [h0]
  next y h0 => rw [slot_modifySlot, h0]; by_cases hxy : x = y
               · subst hxy; simp
               · simp [hxy, Ne.symm hxy]

/-- A command that holds no guard releases none. -/
theorem releaseGuards_of_nil {s : State} {mu : MicroState} (h : s.inFlight = some mu)
    (h0 : mu.held = []) : s.releaseGuards = s := by simp [State.releaseGuards, h, h0]

/-- A command that reserved no slot returns none. -/
theorem freeReserved_of_none {s : State} {mu : MicroState} (h : s.inFlight = some mu)
    (h0 : mu.reserved = none) : s.freeReserved = s := by simp [State.freeReserved, h, h0]

/-! ## Micro-steps -/

theorem microStep_inFlight {s : State} {mu : MicroState} (h : s.inFlight = some mu) (i : Instr)
    (next : MicroState → Result) : s.microStep i next = next mu := by
  have hb : (s.port s.turn).busy = some mu := h
  simp [State.microStep, ports_getElem? _ _ (turn_lt_of_inFlight _ h), hb]

theorem microStep_idle {s : State} (ht : s.turn < s.ports.length) (h : s.inFlight = none) (i : Instr)
    (next : MicroState → Result) : s.microStep i next = .next (s.issue i) := by
  have hb : (s.port s.turn).busy = none := h
  simp [State.microStep, ports_getElem? _ _ ht, hb]

/-- What a meaning can do, said once: there is no port, or the port issues, or the command in flight
takes its next micro-step. -/
theorem microStep_cases (s : State) (i : Instr) (next : MicroState → Result) :
    (s.ports.length ≤ s.turn ∧ s.microStep i next = .fault .noPort) ∨
    (s.turn < s.ports.length ∧ s.inFlight = none ∧ s.microStep i next = .next (s.issue i)) ∨
    (∃ mu, s.inFlight = some mu ∧ s.microStep i next = next mu) := by
  by_cases ht : s.turn < s.ports.length
  · cases hf : s.inFlight with
    | none => exact .inr (.inl ⟨ht, rfl, microStep_idle ht hf i next⟩)
    | some mu => exact .inr (.inr ⟨mu, rfl, microStep_inFlight hf i next⟩)
  · refine .inl ⟨by omega, ?_⟩
    simp [State.microStep, List.getElem?_eq_none (Nat.le_of_not_lt ht)]

theorem oneStep_body {s : State} {mu : MicroState} (h : s.inFlight = some mu) (hp : mu.phase = .body)
    (i : Instr) (body : MicroState → Result) : s.oneStep i body = body mu := by
  simp [State.oneStep, microStep_inFlight h, hp]

theorem exclusiveSteps_reserve {s : State} {mu : MicroState} (h : s.inFlight = some mu)
    (hp : mu.phase = .reserve) (i : Instr) (sd : SlotNum) (order : List Nat) (body : Result) :
    s.exclusiveSteps i (some sd) order body = s.reserve mu sd.toNat := by
  simp [State.exclusiveSteps, microStep_inFlight h, hp]

theorem exclusiveSteps_acquire {s : State} {mu : MicroState} (h : s.inFlight = some mu)
    (hp : mu.phase = .acquire) (i : Instr) (dest : Option SlotNum) (order : List Nat)
    (body : Result) : s.exclusiveSteps i dest order body = s.acquireNext mu order := by
  simp [State.exclusiveSteps, microStep_inFlight h, hp]

theorem exclusiveSteps_body {s : State} {mu : MicroState} (h : s.inFlight = some mu)
    (hp : mu.phase = .body) (i : Instr) (dest : Option SlotNum) (order : List Nat) (body : Result) :
    s.exclusiveSteps i dest order body = body := by
  simp [State.exclusiveSteps, microStep_inFlight h, hp]

/-! ## Guards -/

/-- What a shared acquisition can do (R51). -/
theorem acquireShared_cases (s : State) (mu : MicroState) (x : Nat) (ph : Phase) :
    ((s.slot x).wr ≠ none ∧ s.acquireShared mu x ph = .fault .waiting) ∨
    ((s.slot x).wr = none ∧ (s.slot x).st ≠ .valid ∧
      s.acquireShared mu x ph = .next (s.fail .badSlot 0#64)) ∨
    ((s.slot x).wr = none ∧ (s.slot x).st = .valid ∧
      s.acquireShared mu x ph =
        .next ((s.modifySlot x fun t => { t with rd := t.rd + 1 }).setInFlight
          { mu with held := mu.held ++ [(x, .shared)], phase := ph })) := by
  by_cases hw : (s.slot x).wr = none <;> by_cases hv : (s.slot x).st = .valid <;>
    simp [State.acquireShared, State.sharedGrantable, State.isValid, hw, hv]

/-- What an exclusive acquisition can do (R52). -/
theorem acquireExclusive_cases (s : State) (mu : MicroState) (x : Nat) (ph : Phase) :
    (((s.slot x).wr ≠ none ∨ (s.slot x).rd ≠ 0) ∧ s.acquireExclusive mu x ph = .fault .waiting) ∨
    ((s.slot x).wr = none ∧ (s.slot x).rd = 0 ∧ (s.slot x).st ≠ .valid ∧
      s.acquireExclusive mu x ph = .next (s.fail .badSlot 0#64)) ∨
    ((s.slot x).wr = none ∧ (s.slot x).rd = 0 ∧ (s.slot x).st = .valid ∧
      s.acquireExclusive mu x ph =
        .next ((s.modifySlot x fun t => { t with wr := some s.turn }).setInFlight
          { mu with held := mu.held ++ [(x, .exclusive)], phase := ph })) := by
  by_cases hw : (s.slot x).wr = none <;> by_cases hr : (s.slot x).rd = 0 <;>
    by_cases hv : (s.slot x).st = .valid <;>
    simp [State.acquireExclusive, State.exclusiveGrantable, State.isValid, hw, hr, hv]

/-- What a reservation step can do (R63). -/
theorem reserve_cases (s : State) (mu : MicroState) (x : Nat) :
    ((s.slot x).st ≠ .free ∧ s.reserve mu x = .next (s.fail .slotBusy 0#64)) ∨
    ((s.slot x).st = .free ∧
      s.reserve mu x = .next ((s.modifySlot x fun t => { t with st := .reserved }).setInFlight
        { mu with reserved := some x, phase := .acquire })) := by
  by_cases h : (s.slot x).st = .free <;> simp [State.reserve, State.isFree, h]

/-- The lock order lists each operand slot once (R56, R57). -/
theorem mem_lockOrder {mode : LockOrder} {a b x : Nat} : x ∈ lockOrder mode a b ↔ x = a ∨ x = b := by
  unfold lockOrder
  split
  · simp_all
  · cases mode
    · simp only [List.mem_cons, List.not_mem_nil, or_false]; omega
    · simp

theorem lockOrder_nodup (mode : LockOrder) (a b : Nat) : (lockOrder mode a b).Nodup := by
  unfold lockOrder
  split
  · simp
  · cases mode
    · simp only [List.nodup_cons, List.mem_singleton, List.not_mem_nil, not_false_eq_true,
        List.nodup_nil, and_self, and_true]; omega
    · simpa

/-- Under `CANONICAL` the lock order rises (R56). -/
theorem lockOrder_canonical_sorted (a b : Nat) :
    (lockOrder .canonical a b).Pairwise (· < ·) := by
  unfold lockOrder
  split
  · simp
  · simp; omega

/-! ## Storage and bits -/

theorem slot_wordOr_ne (s : State) {x y : Nat} (j : Nat) (v : Word) (h : y ≠ x) :
    (s.wordOr x j v).slot y = s.slot y := by simp [State.wordOr, State.wordStore, h]

/-- A word after `WordOr` (R13). -/
theorem wordLoad_wordOr {s : State} (h : s.memoryWf) {x : Nat} (hx : x < s.slots.length)
    (j i : Nat) (v : Word) :
    (s.wordOr x j v).wordLoad x i = if i = j then s.wordLoad x j ||| v else s.wordLoad x i := by
  have hwf : Memory.wf (s.slot x).bits = true := by
    rw [slot_of_lt _ _ hx]; exact h _ (List.getElem_mem _)
  simp only [State.wordOr, State.wordStore, State.wordLoad, slot_modifySlot_self _ _ _ hx]
  exact load_store hwf j i _

/-- `WordOr` leaves every field of its slot but the words. -/
theorem wordOr_fields (s : State) (x j y : Nat) (v : Word) :
    ((s.wordOr x j v).slot y).st = (s.slot y).st ∧ ((s.wordOr x j v).slot y).m = (s.slot y).m ∧
    ((s.wordOr x j v).slot y).k = (s.slot y).k ∧ ((s.wordOr x j v).slot y).keys = (s.slot y).keys ∧
    ((s.wordOr x j v).slot y).n = (s.slot y).n ∧ ((s.wordOr x j v).slot y).rd = (s.slot y).rd ∧
    ((s.wordOr x j v).slot y).wr = (s.slot y).wr := by
  simp only [State.wordOr, State.wordStore, slot_modifySlot]
  split
  · next h => obtain ⟨rfl, -⟩ := h; simp
  · simp

/-- One bit of a mask. -/
theorem getLsbD_bitMask (i j : Nat) : (bitMask i).getLsbD j = decide (j = i % 64) := by
  have h : i % 64 < 64 := Nat.mod_lt _ (by omega)
  unfold bitMask
  rw [BitVec.getLsbD_shiftLeft]
  by_cases hj : j = i % 64
  · subst hj; simp [h]
  · by_cases h1 : j < i % 64
    · simp [h1, hj]
    · have : j - i % 64 ≠ 0 := by omega
      simp [hj, BitVec.getLsbD_one, this]

/-- The bits of a slot after one of them is set (R115). -/
theorem bit_setTarget {s : State} (h : s.memoryWf) {x : Nat} (hx : x < s.slots.length) (hash : Word)
    (i b : Nat) :
    (s.setTarget x hash i).bit x b = (s.bit x b || decide (b = s.target x hash i)) := by
  unfold State.setTarget State.bit bitWord
  rw [wordLoad_wordOr h hx]
  by_cases hw : b / 64 = s.target x hash i / 64
  · rw [if_pos hw, BitVec.getLsbD_or, getLsbD_bitMask, ← hw]
    congr 1
    simp only [decide_eq_decide]
    omega
  · rw [if_neg hw]
    have : b ≠ s.target x hash i := by rintro rfl; exact hw rfl
    simp [this]

/-- The index of a filter with a bit lies below its bit count (R15). -/
theorem bitIndex_lt (h key : Word) {m : Word} (hm : 0 < m.toNat) : bitIndex h key m < m.toNat :=
  Nat.mod_lt _ hm

/-! ## The comparator -/

/-- The accumulated key difference is 0 exactly where the keys agree at every position (R131). -/
theorem keyDiff_eq_zero {k : Nat} {a b : List Word} :
    keyDiff k a b = 0#64 ↔ ∀ i, i < k → a.getD i 0#64 = b.getD i 0#64 := by
  induction k with
  | zero => simp [keyDiff]
  | succ k ih =>
    have hs : keyDiff (k + 1) a b = keyDiff k a b ||| (a.getD k 0#64 ^^^ b.getD k 0#64) := by
      simp [keyDiff, List.range_succ]
    rw [hs, BitVec.or_eq_zero_iff, ih, BitVec.xor_eq_zero_iff]
    constructor
    · rintro ⟨h1, h2⟩ i hi
      rcases Nat.lt_succ_iff_lt_or_eq.1 hi with hi | rfl
      · exact h1 i hi
      · exact h2
    · exact fun h => ⟨fun i hi => h i (by omega), h k (by omega)⟩

end Sys2Proof.Machine
end

