-- ==== Sys2Proof/Laws/Steps.lean ====
section
/-! SUPPORT. For each meaning, and for a port's micro-step, everything it can do when it answers a next
state, said once: the guard of each case and the whole next state. -/

namespace Sys2Proof.Machine

variable {s t : State} {mu : MicroState}

/-- What a port's micro-step can do (R82): reject its next command, reject its slot numbers, issue it,
or take the next micro-step of the command in flight. -/
theorem stepPort_next {p : Nat} (h : s.stepPort p = .next t) :
    p < s.ports.length ∧
    ((∃ c status, (s.port p).busy = none ∧ (s.port p).nextCommand = some c ∧
        decode c = .error status ∧ t = State.respond { s with turn := p } status 0#64) ∨
     (∃ c i, (s.port p).busy = none ∧ (s.port p).nextCommand = some c ∧ decode c = .ok i ∧
        ((i.slotsBelow s.cfg.numSlots = false ∧
            t = State.respond { s with turn := p } .badSlot 0#64) ∨
         (i.slotsBelow s.cfg.numSlots = true ∧
            t = State.setInFlight { s with turn := p } (MicroState.init i)))) ∨
     (∃ mu, (s.port p).busy = some mu ∧ exec mu.cmd { s with turn := p } = .next t)) := by
  unfold State.stepPort at h
  by_cases hp : p < s.ports.length
  · refine ⟨hp, ?_⟩
    rw [ports_getElem? _ _ hp] at h
    simp only at h
    cases hb : (s.port p).busy with
    | some mu => rw [hb] at h; exact .inr (.inr ⟨mu, rfl, h⟩)
    | none =>
      rw [hb] at h
      cases hn : (s.port p).nextCommand with
      | none => simp [hn] at h
      | some c =>
        simp only [hn, State.issueCommand] at h
        cases hd : decode c with
        | error status =>
          simp only [hd, Host.Outcome.next.injEq] at h
          exact .inl ⟨c, status, rfl, rfl, hd, h.symm⟩
        | ok i =>
          simp only [hd] at h
          refine .inr (.inl ⟨c, i, rfl, rfl, hd, ?_⟩)
          have hi : exec i { s with turn := p } = .next (State.issue { s with turn := p } i) := by
            have hidle : State.inFlight { s with turn := p } = none := hb
            cases i <;> exact microStep_idle (s := { s with turn := p }) hp hidle _ _
          rw [hi, Host.Outcome.next.injEq] at h
          rw [← h]
          unfold State.issue
          cases i.slotsBelow s.cfg.numSlots <;> simp
  · simp [List.getElem?_eq_none (Nat.le_of_not_lt hp)] at h

/-- What a shared acquisition that answers can do (R51). -/
theorem acquireShared_next {x : Nat} {ph : Phase} (h : s.acquireShared mu x ph = .next t) :
    (s.slot x).wr = none ∧
    (((s.slot x).st ≠ .valid ∧ t = s.fail .badSlot 0#64) ∨
     ((s.slot x).st = .valid ∧
      t = (s.modifySlot x fun u => { u with rd := u.rd + 1 }).setInFlight
        { mu with held := mu.held ++ [(x, .shared)], phase := ph })) := by
  rcases acquireShared_cases s mu x ph with ⟨-, e⟩ | ⟨a, b, e⟩ | ⟨a, b, e⟩ <;>
    simp only [e, Host.Outcome.next.injEq, reduceCtorEq] at h
  · exact ⟨a, .inl ⟨b, h.symm⟩⟩
  · exact ⟨a, .inr ⟨b, h.symm⟩⟩

/-- What an exclusive acquisition that answers can do (R52). -/
theorem acquireExclusive_next {x : Nat} {ph : Phase} (h : s.acquireExclusive mu x ph = .next t) :
    (s.slot x).wr = none ∧ (s.slot x).rd = 0 ∧
    (((s.slot x).st ≠ .valid ∧ t = s.fail .badSlot 0#64) ∨
     ((s.slot x).st = .valid ∧
      t = (s.modifySlot x fun u => { u with wr := some s.turn }).setInFlight
        { mu with held := mu.held ++ [(x, .exclusive)], phase := ph })) := by
  rcases acquireExclusive_cases s mu x ph with ⟨-, e⟩ | ⟨a, b, c, e⟩ | ⟨a, b, c, e⟩ <;>
    simp only [e, Host.Outcome.next.injEq, reduceCtorEq] at h
  · exact ⟨a, b, .inl ⟨c, h.symm⟩⟩
  · exact ⟨a, b, .inr ⟨c, h.symm⟩⟩

/-- What a command with one micro-step can do: its body, in its body phase. -/
theorem oneStep_next {i : Instr} {body : MicroState → Result} (hf : s.inFlight = some mu)
    (h : s.oneStep i body = .next t) : mu.phase = .body ∧ body mu = .next t := by
  simp only [State.oneStep, microStep_inFlight hf] at h
  cases hp : mu.phase <;> simp_all

/-- What a command that takes exclusive guards can do (R56, R58, R63): its reservation, the next guard
of its order, or its body. -/
theorem exclusiveSteps_next {i : Instr} {dest : Option SlotNum} {order : List Nat} {body : Result}
    (hf : s.inFlight = some mu) (h : s.exclusiveSteps i dest order body = .next t) :
    (mu.phase = .reserve ∧ ∃ sd, dest = some sd ∧
      (((s.slot sd.toNat).st ≠ .free ∧ t = s.fail .slotBusy 0#64) ∨
       ((s.slot sd.toNat).st = .free ∧
        t = (s.modifySlot sd.toNat fun u => { u with st := .reserved }).setInFlight
          { mu with reserved := some sd.toNat, phase := .acquire }))) ∨
    (mu.phase = .acquire ∧ ∃ x, order[mu.held.length]? = some x ∧
      (s.slot x).wr = none ∧ (s.slot x).rd = 0 ∧
      (((s.slot x).st ≠ .valid ∧ t = s.fail .badSlot 0#64) ∨
       ((s.slot x).st = .valid ∧
        t = (s.modifySlot x fun u => { u with wr := some s.turn }).setInFlight
          { mu with
            held  := mu.held ++ [(x, .exclusive)]
            phase := if mu.held.length + 1 = order.length then .body else .acquire }))) ∨
    (mu.phase = .body ∧ body = .next t) := by
  simp only [State.exclusiveSteps, microStep_inFlight hf] at h
  cases hp : mu.phase with
  | reserve =>
    simp only [hp] at h
    cases dest with
    | none => simp at h
    | some sd =>
      refine .inl ⟨rfl, sd, rfl, ?_⟩
      rcases reserve_cases s mu sd.toNat with ⟨a, e⟩ | ⟨a, e⟩ <;>
        simp only [e, Host.Outcome.next.injEq] at h
      · exact .inl ⟨a, h.symm⟩
      · exact .inr ⟨a, h.symm⟩
  | acquire =>
    simp only [hp, State.acquireNext] at h
    cases ho : order[mu.held.length]? with
    | none => simp [ho] at h
    | some x =>
      simp only [ho] at h
      exact .inr (.inl ⟨rfl, x, rfl, acquireExclusive_next h⟩)
  | body => simp only [hp] at h; exact .inr (.inr ⟨rfl, h⟩)
  | load => simp [hp] at h
  | set => simp [hp] at h

/-- What a read that takes no guard can do (R110 to R113): it responds and changes no slot. -/
theorem readSlot_next {x : Nat} {read : Slot → Status × Word} (h : s.readSlot x read = .next t) :
    ((s.slot x).st ≠ .valid ∧ t = s.fail .badSlot 0#64) ∨
    ((s.slot x).st = .valid ∧
      (((read (s.slot x)).1 = .ok ∧ t = s.finish .ok (read (s.slot x)).2) ∨
       ((read (s.slot x)).1 ≠ .ok ∧ t = s.fail (read (s.slot x)).1 (read (s.slot x)).2))) := by
  by_cases hv : (s.slot x).st = .valid
  · refine .inr ⟨hv, ?_⟩
    simp only [State.readSlot, State.isValid, hv, beq_self_eq_true, Bool.not_true,
      Bool.false_eq_true, ↓reduceIte] at h
    split at h
    · next v e => rw [e]; exact .inl ⟨rfl, by simpa using h.symm⟩
    · next status v hne e =>
        rw [e]; exact .inr ⟨hne, by simpa using h.symm⟩
  · refine .inl ⟨hv, ?_⟩
    simpa [State.readSlot, State.isValid, hv] using h.symm

/-! ## The meanings -/

/-- `CREATE` (R100). -/
theorem execCreate_next {sd : SlotNum} {m : Word} {keys : List Word} (hf : s.inFlight = some mu)
    (h : execCreate sd m keys s = .next t) :
    mu.phase = .body ∧
    ((∃ status, createCheck s.cfg (s.slot sd.toNat) m keys = some status ∧
        t = s.fail status 0#64) ∨
     ((s.slot sd.toNat).st = .free ∧ s.cfg.minK ≤ keys.length ∧ s.cfg.minM ≤ m.toNat ∧ keys.Nodup ∧
        keys.length ≤ s.cfg.maxK ∧ m.toNat ≤ s.cfg.maxM ∧
        t = (s.fillSlot sd.toNat m (BitVec.ofNat 32 keys.length) keys Memory.zero 0#64).finish
          .ok 0#64)) := by
  obtain ⟨hp, hb⟩ := oneStep_next hf h
  refine ⟨hp, ?_⟩
  cases hc : createCheck s.cfg (s.slot sd.toNat) m keys with
  | some status =>
    simp only [hc, Host.Outcome.next.injEq] at hb
    exact .inl ⟨status, rfl, hb.symm⟩
  | none =>
    simp only [hc, Host.Outcome.next.injEq] at hb
    unfold createCheck at hc
    split_ifs at hc with h1 h2 h3 h4 h5
    exact .inr ⟨not_not.1 h1, by omega, by omega, h4, by omega, by omega, hb.symm⟩

/-- The statuses of `CREATE`'s failures (R152). -/
theorem createCheck_status {cfg : Config} {d : Slot} {m : Word} {keys : List Word} {status : Status}
    (h : createCheck cfg d m keys = some status) :
    status ∈ [Status.slotBusy, .invalidKeyCount, .invalidSize, .duplicateKeys, .resourceLimit] := by
  unfold createCheck at h
  split_ifs at h <;> simp_all

/-- `NEWCOMPAT` (R101). -/
theorem execNewcompat_next {sd sa : SlotNum} (hf : s.inFlight = some mu)
    (h : execNewcompat sd sa s = .next t) :
    mu.phase = .body ∧
    (((s.slot sd.toNat).st ≠ .free ∧ t = s.fail .slotBusy 0#64) ∨
     ((s.slot sd.toNat).st = .free ∧ (s.slot sa.toNat).st ≠ .valid ∧ t = s.fail .badSlot 0#64) ∨
     ((s.slot sd.toNat).st = .free ∧ (s.slot sa.toNat).st = .valid ∧
        t = (s.fillSlot sd.toNat (s.slot sa.toNat).m (s.slot sa.toNat).k (s.slot sa.toNat).keys
          Memory.zero 0#64).finish .ok 0#64)) := by
  obtain ⟨hp, hb⟩ := oneStep_next hf h
  refine ⟨hp, ?_⟩
  by_cases h1 : (s.slot sd.toNat).st = .free <;> by_cases h2 : (s.slot sa.toNat).st = .valid <;>
    simp [State.isFree, State.isValid, h1, h2] at hb <;> simp [h1, h2, ← hb]

/-- `RELEASE` (R102). -/
theorem execRelease_next {sa : SlotNum} (hf : s.inFlight = some mu)
    (h : execRelease sa s = .next t) :
    mu.phase = .body ∧ (s.slot sa.toNat).wr = none ∧ (s.slot sa.toNat).rd = 0 ∧
    (((s.slot sa.toNat).st ≠ .valid ∧ t = s.fail .badSlot 0#64) ∨
     ((s.slot sa.toNat).st = .valid ∧ t = (s.freeSlot sa.toNat).finish .ok 0#64)) := by
  obtain ⟨hp, hb⟩ := oneStep_next hf h
  refine ⟨hp, ?_⟩
  cases h1 : (s.slot sa.toNat).wr <;> by_cases h2 : (s.slot sa.toNat).rd = 0 <;>
    by_cases h3 : (s.slot sa.toNat).st = .valid <;>
    simp [State.exclusiveGrantable, State.isValid, h1, h2, h3] at hb <;> simp [h2, h3, ← hb]

/-- `GETM` (R110). -/
theorem execGetm_next {sa : SlotNum} (hf : s.inFlight = some mu) (h : execGetm sa s = .next t) :
    mu.phase = .body ∧
    (((s.slot sa.toNat).st ≠ .valid ∧ t = s.fail .badSlot 0#64) ∨
     ((s.slot sa.toNat).st = .valid ∧ t = s.finish .ok (s.slot sa.toNat).m)) := by
  obtain ⟨hp, hb⟩ := oneStep_next hf h
  exact ⟨hp, by simpa using readSlot_next hb⟩

/-- `GETK` (R111). -/
theorem execGetk_next {sa : SlotNum} (hf : s.inFlight = some mu) (h : execGetk sa s = .next t) :
    mu.phase = .body ∧
    (((s.slot sa.toNat).st ≠ .valid ∧ t = s.fail .badSlot 0#64) ∨
     ((s.slot sa.toNat).st = .valid ∧ t = s.finish .ok ((s.slot sa.toNat).k.setWidth 64))) := by
  obtain ⟨hp, hb⟩ := oneStep_next hf h
  exact ⟨hp, by simpa using readSlot_next hb⟩

/-- `GETN` (R112). -/
theorem execGetn_next {sa : SlotNum} (hf : s.inFlight = some mu) (h : execGetn sa s = .next t) :
    mu.phase = .body ∧
    (((s.slot sa.toNat).st ≠ .valid ∧ t = s.fail .badSlot 0#64) ∨
     ((s.slot sa.toNat).st = .valid ∧ t = s.finish .ok (s.slot sa.toNat).n)) := by
  obtain ⟨hp, hb⟩ := oneStep_next hf h
  exact ⟨hp, by simpa [State.counterLoad] using readSlot_next hb⟩

/-- `GETKEY` (R113). -/
theorem execGetkey_next {sa : SlotNum} {index : Word} (hf : s.inFlight = some mu)
    (h : execGetkey sa index s = .next t) :
    mu.phase = .body ∧
    (((s.slot sa.toNat).st ≠ .valid ∧ t = s.fail .badSlot 0#64) ∨
     ((s.slot sa.toNat).st = .valid ∧ s.keyCount sa.toNat ≤ index.toNat ∧
        t = s.fail .badOperand 0#64) ∨
     ((s.slot sa.toNat).st = .valid ∧ index.toNat < s.keyCount sa.toNat ∧
        t = s.finish .ok (s.key sa.toNat index.toNat))) := by
  obtain ⟨hp, hb⟩ := oneStep_next hf h
  refine ⟨hp, ?_⟩
  have hr := readSlot_next hb
  by_cases hi : s.keyCount sa.toNat ≤ index.toNat
  · simpa [hi, Nat.not_lt.2 hi] using hr
  · simpa [hi, Nat.lt_of_not_le hi] using hr

/-- `READWORD` (R114). -/
theorem execReadword_next {sa : SlotNum} {index : Word} (hf : s.inFlight = some mu)
    (h : execReadword sa index s = .next t) :
    mu.phase = .body ∧ (s.slot sa.toNat).wr = none ∧
    (((s.slot sa.toNat).st ≠ .valid ∧ t = s.fail .badSlot 0#64) ∨
     ((s.slot sa.toNat).st = .valid ∧ wordCount (s.slot sa.toNat).m ≤ index.toNat ∧
        t = s.fail .badOperand 0#64) ∨
     ((s.slot sa.toNat).st = .valid ∧ index.toNat < wordCount (s.slot sa.toNat).m ∧
        t = s.finish .ok (s.wordLoad sa.toNat index.toNat))) := by
  obtain ⟨hp, hb⟩ := oneStep_next hf h
  refine ⟨hp, ?_⟩
  by_cases hw : (s.slot sa.toNat).wr = none
  · refine ⟨hw, ?_⟩
    have hg : (!s.sharedGrantable sa.toNat) = false := by simp [State.sharedGrantable, hw]
    rw [hg, if_neg Bool.false_ne_true] at hb
    have hr := readSlot_next hb
    by_cases hi : wordCount (s.slot sa.toNat).m ≤ index.toNat
    · simpa [hi, Nat.not_lt.2 hi] using hr
    · simpa [hi, Nat.lt_of_not_le hi] using hr
  · have hg : (!s.sharedGrantable sa.toNat) = true := by
      simpa [State.sharedGrantable, Option.isSome_iff_ne_none] using hw
    rw [if_pos hg] at hb
    simp at hb

/-- `ADD` (R115). -/
theorem execAdd_next {sa : SlotNum} {hash : Word} (hf : s.inFlight = some mu)
    (h : execAdd sa hash s = .next t) :
    (mu.phase = .acquire ∧ (s.slot sa.toNat).wr = none ∧
      (((s.slot sa.toNat).st ≠ .valid ∧ t = s.fail .badSlot 0#64) ∨
       ((s.slot sa.toNat).st = .valid ∧
        t = (s.modifySlot sa.toNat fun u => { u with rd := u.rd + 1 }).setInFlight
          { mu with
            held  := mu.held ++ [(sa.toNat, .shared)]
            phase := s.loopPhase sa.toNat mu.pos .set }))) ∨
    (mu.phase = .set ∧
      t = (s.setTarget sa.toNat hash mu.pos).setInFlight
        { mu with pos := mu.pos + 1, phase := s.loopPhase sa.toNat (mu.pos + 1) .set }) ∨
    (mu.phase = .body ∧ t = (s.counterInc sa.toNat).finish .ok 0#64) := by
  simp only [execAdd, microStep_inFlight hf] at h
  cases hp : mu.phase <;> simp only [hp, Host.Outcome.next.injEq, reduceCtorEq] at h
  · exact .inl ⟨rfl, acquireShared_next h⟩
  · exact .inr (.inl ⟨rfl, h.symm⟩)
  · exact .inr (.inr ⟨rfl, h.symm⟩)

/-- `ADDC` (R116). -/
theorem execAddc_next {sa : SlotNum} {hash : Word} (hf : s.inFlight = some mu)
    (h : execAddc sa hash s = .next t) :
    (mu.phase = .acquire ∧ (s.slot sa.toNat).wr = none ∧
      (((s.slot sa.toNat).st ≠ .valid ∧ t = s.fail .badSlot 0#64) ∨
       ((s.slot sa.toNat).st = .valid ∧
        t = (s.modifySlot sa.toNat fun u => { u with rd := u.rd + 1 }).setInFlight
          { mu with
            held  := mu.held ++ [(sa.toNat, .shared)]
            phase := s.loopPhase sa.toNat mu.pos .load }))) ∨
    (mu.phase = .load ∧
      t = s.setInFlight
        { mu with flag := s.andBit sa.toNat hash mu.pos mu.flag, phase := .set }) ∨
    (mu.phase = .set ∧
      t = (s.setTarget sa.toNat hash mu.pos).setInFlight
        { mu with pos := mu.pos + 1, phase := s.loopPhase sa.toNat (mu.pos + 1) .load }) ∨
    (mu.phase = .body ∧ t = (s.counterInc sa.toNat).finish .ok (flagWord mu.flag)) := by
  simp only [execAddc, microStep_inFlight hf] at h
  cases hp : mu.phase <;> simp only [hp, Host.Outcome.next.injEq, reduceCtorEq] at h
  · exact .inl ⟨rfl, acquireShared_next h⟩
  · exact .inr (.inl ⟨rfl, h.symm⟩)
  · exact .inr (.inr (.inl ⟨rfl, h.symm⟩))
  · exact .inr (.inr (.inr ⟨rfl, h.symm⟩))

/-- `CONTAINS` (R117). -/
theorem execContains_next {sa : SlotNum} {hash : Word} (hf : s.inFlight = some mu)
    (h : execContains sa hash s = .next t) :
    (mu.phase = .acquire ∧ (s.slot sa.toNat).wr = none ∧
      (((s.slot sa.toNat).st ≠ .valid ∧ t = s.fail .badSlot 0#64) ∨
       ((s.slot sa.toNat).st = .valid ∧
        t = (s.modifySlot sa.toNat fun u => { u with rd := u.rd + 1 }).setInFlight
          { mu with
            held  := mu.held ++ [(sa.toNat, .shared)]
            phase := s.loopPhase sa.toNat mu.pos .load }))) ∨
    (mu.phase = .load ∧
      t = s.setInFlight
        { mu with
          flag  := s.andBit sa.toNat hash mu.pos mu.flag
          pos   := mu.pos + 1
          phase := s.loopPhase sa.toNat (mu.pos + 1) .load }) ∨
    (mu.phase = .body ∧ t = s.finish .ok (flagWord mu.flag)) := by
  simp only [execContains, microStep_inFlight hf] at h
  cases hp : mu.phase <;> simp only [hp, Host.Outcome.next.injEq, reduceCtorEq] at h
  · exact .inl ⟨rfl, acquireShared_next h⟩
  · exact .inr (.inl ⟨rfl, h.symm⟩)
  · exact .inr (.inr ⟨rfl, h.symm⟩)

end Sys2Proof.Machine
end

