-- ==== Sys2Proof/Laws/Invariant.lean ====
section
/-! SUPPORT. The invariant taken apart into facts about one slot or one port, and what one micro-step
of one port must show to keep it. -/

namespace Sys2Proof.Machine

variable {s t : State}

/-! ## Sums over the ports after a change of one port -/

theorem sum_modify {α : Type} (l : List α) (f : α → Nat) (g : α → α) {p : Nat} (h : p < l.length) :
    ((l.modify p g).map f).sum + f l[p] = (l.map f).sum + f (g l[p]) := by
  induction l generalizing p with
  | nil => simp at h
  | cons a l ih =>
    cases p with
    | zero => simp [List.modify_zero_cons]; omega
    | succ p =>
      have := ih (p := p) (by simpa using h)
      simp only [List.modify_succ_cons, List.map_cons, List.sum_cons, List.getElem_cons_succ]
      omega

theorem countP_modify {α : Type} (l : List α) (f : α → Bool) (g : α → α) {p : Nat}
    (h : p < l.length) :
    (l.modify p g).countP f + (if f l[p] then 1 else 0) =
      l.countP f + (if f (g l[p]) then 1 else 0) := by
  have hc : ∀ m : List α, m.countP f = (m.map fun a => if f a then 1 else 0).sum := by
    intro m
    induction m with
    | nil => rfl
    | cons a m ih => rw [List.countP_cons, ih, List.map_cons, List.sum_cons, Nat.add_comm]
  rw [hc, hc]
  exact sum_modify l (fun a => if f a then 1 else 0) g h

/-! ## The invariant, fact by fact -/

/-- What the invariant says of the guard and the reservation of slot `x` (R21, R27). -/
structure State.HoldersOk (s : State) (x : Nat) : Prop where
  shared    : (s.ports.map fun p => p.holds.count (x, .shared)).sum = (s.slot x).rd
  exclusive : ∀ p, p < s.ports.length →
    (s.port p).holds.count (x, .exclusive) = if (s.slot x).wr = some p then 1 else 0
  holder    : ∀ p, (s.slot x).wr = some p → p < s.ports.length
  reserved  : (s.ports.countP fun p => p.reserves == some x) =
    if (s.slot x).st = .reserved then 1 else 0

theorem holdersOk_iff {x : Nat} : s.holdersOk x = true ↔ s.HoldersOk x := by
  unfold State.holdersOk
  simp only [Bool.and_eq_true, decide_eq_true_eq, List.all_eq_true, List.mem_range]
  constructor
  · rintro ⟨⟨⟨h1, h2⟩, h3⟩, h4⟩
    refine ⟨h1, h2, fun p hp => ?_, h4⟩
    rw [hp] at h3
    simpa using h3
  · rintro ⟨h1, h2, h3, h4⟩
    refine ⟨⟨⟨h1, h2⟩, ?_⟩, h4⟩
    cases hw : (s.slot x).wr with
    | none => rfl
    | some p => simpa using h3 p hw

/-- The invariant as facts about each slot and each port, by number. -/
structure State.Sound (s : State) : Prop where
  legal   : s.cfg.legal = true
  slots   : s.slots.length = s.cfg.numSlots
  ports   : s.ports.length = s.cfg.numPorts
  memory  : ∀ x, x < s.slots.length → Memory.wf (s.slot x).bits = true
  filter  : ∀ x, x < s.slots.length → (s.slot x).filterOk s.cfg = true
  guard   : ∀ x, x < s.slots.length → (s.slot x).guardOk = true
  holders : ∀ x, x < s.slots.length → s.HoldersOk x
  port    : ∀ p, p < s.ports.length → s.portOk (s.port p) = true

theorem inv_iff : s.inv = true ↔ s.Sound := by
  unfold State.inv
  simp only [Bool.and_eq_true, decide_eq_true_eq, List.all_eq_true, List.mem_range, holdersOk_iff]
  have hs : (∀ u ∈ s.slots, (Memory.wf u.bits = true ∧ u.filterOk s.cfg = true) ∧ u.guardOk = true) ↔
      ∀ x, x < s.slots.length → (Memory.wf (s.slot x).bits = true ∧
        (s.slot x).filterOk s.cfg = true) ∧ (s.slot x).guardOk = true := by
    rw [List.forall_mem_iff_forall_getElem]
    refine forall₂_congr fun x hx => ?_
    rw [slot_of_lt _ _ hx]
  have hp : (∀ p ∈ s.ports, s.portOk p = true) ↔
      ∀ p, p < s.ports.length → s.portOk (s.port p) = true := by
    rw [List.forall_mem_iff_forall_getElem]
    refine forall₂_congr fun p hp => ?_
    rw [port_of_lt _ _ hp]
  rw [hs, hp]
  constructor
  · rintro ⟨⟨⟨⟨⟨h1, h2⟩, h3⟩, h4⟩, h5⟩, h6⟩
    exact ⟨h1, h2, h3, fun x hx => (h4 x hx).1.1, fun x hx => (h4 x hx).1.2,
      fun x hx => (h4 x hx).2, h5, h6⟩
  · rintro ⟨h1, h2, h3, h4, h5, h6, h7, h8⟩
    exact ⟨⟨⟨⟨⟨h1, h2⟩, h3⟩, fun x hx => ⟨⟨h4 x hx, h5 x hx⟩, h6 x hx⟩⟩, h7⟩, h8⟩

/-! ## Keeping the invariant in one micro-step -/

/-- A micro-state stays one of its pseudocode where the key counts of the slots it holds stay. -/
theorem microOk_congr {mu : MicroState} (hc : t.cfg = s.cfg)
    (hk : ∀ x m, (x, m) ∈ mu.held → t.keyCount x = s.keyCount x) : t.microOk mu = s.microOk mu := by
  have hl : ∀ x ph, t.loopOk mu x ph = s.loopOk mu x ph := by
    intro x ph
    unfold State.loopOk
    by_cases h : mu.held = [(x, .shared)]
    · rw [hk x .shared (by simp [h])]
    · have hb : (mu.held == [(x, Mode.shared)]) = false := by simpa using h
      simp [hb]
  unfold State.microOk State.lockList
  rw [hc]
  cases mu.cmd <;> simp only [hl]

/-- The invariant after a change of port `p` and of slots, from what the micro-step shows of each slot
and of port `p`: every other port is left out of it. -/
theorem sound_of_local (h : s.Sound) {p : Nat} (hp : p < s.ports.length) (np : Port)
    (hports : t.ports = s.ports.modify p fun _ => np) (hcfg : t.cfg = s.cfg)
    (hlen : t.slots.length = s.slots.length)
    (hmem : ∀ x, x < s.slots.length → Memory.wf (t.slot x).bits = true)
    (hfilter : ∀ x, x < s.slots.length → (t.slot x).filterOk s.cfg = true)
    (hguard : ∀ x, x < s.slots.length → (t.slot x).guardOk = true)
    (hrd : ∀ x, x < s.slots.length →
      (t.slot x).rd + (s.port p).holds.count (x, .shared) =
        (s.slot x).rd + np.holds.count (x, .shared))
    (hwr : ∀ x, x < s.slots.length →
      np.holds.count (x, .exclusive) = (if (t.slot x).wr = some p then 1 else 0) ∧
      ∀ q, q ≠ p → ((t.slot x).wr = some q ↔ (s.slot x).wr = some q))
    (hres : ∀ x, x < s.slots.length →
      (if (t.slot x).st = .reserved then 1 else 0) +
          (if (s.port p).reserves = some x then 1 else 0) =
        (if (s.slot x).st = .reserved then 1 else 0) + (if np.reserves = some x then 1 else 0))
    (hkeys : ∀ q, q ≠ p → ∀ x m, (x, m) ∈ (s.port q).holds → t.keyCount x = s.keyCount x)
    (hport : t.portOk np = true) : t.Sound := by
  have hpl : t.ports.length = s.ports.length := by simp [hports]
  have hport_p : t.port p = np := by simp [State.port, hports, hp, List.getD]
  have hport_q : ∀ q, q ≠ p → t.port q = s.port q := fun q hq => by
    simp [State.port, hports, List.getD, Ne.symm hq]
  have hold : s.ports[p] = s.port p := (port_of_lt _ _ hp).symm
  refine ⟨hcfg ▸ h.legal, by rw [hlen, hcfg, h.slots], by rw [hpl, hcfg, h.ports],
    fun x hx => hmem x (hlen ▸ hx), fun x hx => hcfg ▸ hfilter x (hlen ▸ hx),
    fun x hx => hguard x (hlen ▸ hx), fun x hx => ?_, fun q hq => ?_⟩
  · have hx := hlen ▸ hx
    have ho := h.holders x hx
    refine ⟨?_, fun q hq => ?_, fun q hw => ?_, ?_⟩
    · have e := sum_modify s.ports (fun q => q.holds.count (x, .shared)) (fun _ => np) hp
      rw [← hports, hold, ho.shared] at e
      have := hrd x hx
      omega
    · by_cases hqp : q = p
      · subst hqp; rw [hport_p, (hwr x hx).1]
      · rw [hport_q q hqp, ho.exclusive q (hpl ▸ hq)]
        simp only [(hwr x hx).2 q hqp]
    · by_cases hqp : q = p
      · subst hqp; omega
      · rw [hpl]; exact ho.holder q (((hwr x hx).2 q hqp).1 hw)
    · have e := countP_modify s.ports (fun q => q.reserves == some x) (fun _ => np) hp
      rw [← hports, hold, ho.reserved] at e
      have := hres x hx
      simp only [beq_iff_eq] at e
      omega
  · by_cases hqp : q = p
    · subst hqp; rwa [hport_p]
    · rw [hport_q q hqp]
      have hk := h.port q (hpl ▸ hq)
      unfold State.portOk at hk ⊢
      cases hb : (s.port q).busy with
      | none => simpa [hb] using hk
      | some mu =>
        rw [hb] at hk
        have hm : t.microOk mu = s.microOk mu :=
          microOk_congr hcfg fun x m hxm => hkeys q hqp x m (by simp [Port.holds, hb, hxm])
        simpa [hm] using hk

end Sys2Proof.Machine
end

