-- ==== Sys2Proof/Laws/PerInstr.lean ====
section
/-! SUPPORT. Per-instruction families: one lemma per constructor of Instr. -/

namespace Sys2Proof.Laws.EncodesRow

/-- The encoder writes the header of the instruction's own row, with every field the row does not use
zero (R74, R75). -/
def Statement (i : Instr) : Prop :=
  Op.ofByte (Header.unpack (encode i).header).op = some i.op ∧
  i.op.reservedZero (Header.unpack (encode i).header) = true

theorem create (sd : SlotNum) (m : Word) (keys : List Word) : Statement (.create sd m keys) := by
  simp [Statement, encode, Instr.op, Op.reservedZero, Op.usesSA, Op.usesSB, Op.usesSD, Op.usesK32]
theorem newcompat (sd sa : SlotNum) : Statement (.newcompat sd sa) := by
  simp [Statement, encode, Instr.op, Op.reservedZero, Op.usesSA, Op.usesSB, Op.usesSD, Op.usesK32]
theorem release (sa : SlotNum) : Statement (.release sa) := by
  simp [Statement, encode, Instr.op, Op.reservedZero, Op.usesSA, Op.usesSB, Op.usesSD, Op.usesK32]
theorem add (sa : SlotNum) (hash : Word) : Statement (.add sa hash) := by
  simp [Statement, encode, Instr.op, Op.reservedZero, Op.usesSA, Op.usesSB, Op.usesSD, Op.usesK32]
theorem addc (sa : SlotNum) (hash : Word) : Statement (.addc sa hash) := by
  simp [Statement, encode, Instr.op, Op.reservedZero, Op.usesSA, Op.usesSB, Op.usesSD, Op.usesK32]
theorem contains (sa : SlotNum) (hash : Word) : Statement (.contains sa hash) := by
  simp [Statement, encode, Instr.op, Op.reservedZero, Op.usesSA, Op.usesSB, Op.usesSD, Op.usesK32]
theorem getm (sa : SlotNum) : Statement (.getm sa) := by
  simp [Statement, encode, Instr.op, Op.reservedZero, Op.usesSA, Op.usesSB, Op.usesSD, Op.usesK32]
theorem getk (sa : SlotNum) : Statement (.getk sa) := by
  simp [Statement, encode, Instr.op, Op.reservedZero, Op.usesSA, Op.usesSB, Op.usesSD, Op.usesK32]
theorem getn (sa : SlotNum) : Statement (.getn sa) := by
  simp [Statement, encode, Instr.op, Op.reservedZero, Op.usesSA, Op.usesSB, Op.usesSD, Op.usesK32]
theorem getkey (sa : SlotNum) (index : Word) : Statement (.getkey sa index) := by
  simp [Statement, encode, Instr.op, Op.reservedZero, Op.usesSA, Op.usesSB, Op.usesSD, Op.usesK32]
theorem readword (sa : SlotNum) (index : Word) : Statement (.readword sa index) := by
  simp [Statement, encode, Instr.op, Op.reservedZero, Op.usesSA, Op.usesSB, Op.usesSD, Op.usesK32]
theorem iscompat (sa sb : SlotNum) : Statement (.iscompat sa sb) := by
  simp [Statement, encode, Instr.op, Op.reservedZero, Op.usesSA, Op.usesSB, Op.usesSD, Op.usesK32]
theorem verifycompat (sa sb : SlotNum) : Statement (.verifycompat sa sb) := by
  simp [Statement, encode, Instr.op, Op.reservedZero, Op.usesSA, Op.usesSB, Op.usesSD, Op.usesK32]
theorem unionip (sa sb : SlotNum) : Statement (.unionip sa sb) := by
  simp [Statement, encode, Instr.op, Op.reservedZero, Op.usesSA, Op.usesSB, Op.usesSD, Op.usesK32]
theorem union (sd sa sb : SlotNum) : Statement (.union sd sa sb) := by
  simp [Statement, encode, Instr.op, Op.reservedZero, Op.usesSA, Op.usesSB, Op.usesSD, Op.usesK32]
theorem copy (sd sa : SlotNum) : Statement (.copy sd sa) := by
  simp [Statement, encode, Instr.op, Op.reservedZero, Op.usesSA, Op.usesSB, Op.usesSD, Op.usesK32]

end Sys2Proof.Laws.EncodesRow
end

