-- ==== Sys2Proof/Tests/Slice0.lean ====
section
/-! SUPPORT. Tests: the checks of WellFormed, one word written out per row of the opcode map, one step
per micro-step of each command (expected values from spec/95_test_vectors.md, the vector named), and
for each statement with hypotheses a state that meets them all. -/

namespace Sys2Proof.Tests

open Sys2Proof.Machine

/-! ## Helpers -/

/-- A check of the next state a micro-step answers. -/
def after (r : Result) (f : State → Bool) : Bool :=
  match r with
  | .next t => f t
  | .fault _ | .refused _ => false

/-- The micro-step answers the response, ends the command, and leaves the slots given. -/
def answered (r : Result) (status : Status) (result : Word) (slots : List Slot) : Bool :=
  after r fun t => t.slots == slots && (t.port 0).resp == [{ status := status, result := result }] &&
    (t.port 0).busy == none && (t.port 0).pc == 1

/-- The micro-step stops with a fault. -/
def stopped (r : Result) (f : Fault) : Bool :=
  match r with
  | .fault g => g == f
  | .next _ | .refused _ => false

/-- A `VALID` slot, its guard idle. -/
def filter (m : Word) (keys : List Word) (bits : Memory) (n : Word) : Slot :=
  { Slot.reset with
    st := .valid, m := m, k := BitVec.ofNat 32 keys.length, keys := keys, bits := bits, n := n }

def shared (t : Slot) : Slot := { t with rd := 1 }
def exclusive (t : Slot) : Slot := { t with wr := some 0 }
def free : Slot := Slot.reset
def reserved : Slot := { free with st := .reserved }

/-- The filter of the source's scenario, `m=64, keys=[0x1]` (S1), and the operands of V-U9. -/
def f64 : Slot := filter 64 [1] [] 0
def fA : Slot := filter 128 [0x3, 0x40] [(0, 0x80000), (1, 0x10000)] 1
def fB : Slot := filter 128 [0x3, 0x40] [(0, 0x8000000000000000), (1, 0x1000000000000000)] 1
def merged : Memory := [(0, 0x8000000000080000), (1, 0x1000000000010000)]

/-- TESTCFG, four slots, and port 0 with a list of commands. -/
def idleState (slots : List Slot) (prog : List Command) : State :=
  { State.reset with slots := slots, ports := [{ Port.reset with prog := prog }, Port.reset] }

/-- As `idleState`, with one command, in flight in the given micro-state. -/
def busyState (slots : List Slot) (mu : MicroState) : State :=
  { State.reset with
    slots := slots
    ports := [{ Port.reset with prog := [encode mu.cmd], busy := some mu }, Port.reset] }

/-- A command in flight at a phase, holding guards. -/
def at_ (i : Instr) (ph : Phase) (held : List (Nat × Mode)) : MicroState :=
  { MicroState.init i with phase := ph, held := held }

/-! ## WellFormed refuses an ill-formed term of each check -/

theorem test_wellFormed_refuses_too_many_keys (keys : List Word) (h : 2 ^ 32 ≤ keys.length) :
    (Instr.create 0 64 keys).wellFormed = false :=
  decide_eq_false (Nat.not_lt.mpr h)

/-- Such a list exists: the hypothesis above shuts nothing out. -/
theorem test_too_many_keys_exist : ∃ keys : List Word, 2 ^ 32 ≤ keys.length :=
  ⟨List.replicate (2 ^ 32) 0, Nat.le_of_eq List.length_replicate.symm⟩

theorem test_wellFormed_accepts_one_key : (Instr.create 0 64 [1]).wellFormed = true := by decide

theorem test_slotsBelow_refuses_slot_4_of_4 : (Instr.getn 4).slotsBelow 4 = false := by decide

theorem test_slotsBelow_refuses_a_bad_destination : (Instr.union 7 0 1).slotsBelow 4 = false := by
  decide

theorem test_slotsBelow_accepts_slot_3_of_4 : (Instr.copy 3 0).slotsBelow 4 = true := by decide

/-! ## A word written out per row (V-E1 to V-E15) -/

theorem test_decode_create : decode { header := 0x0000000201000001, words :=
    [0x0000000000000080, 0x0000000000000003, 0x0000000000000040] } =
    .ok (.create 1 128 [3, 0x40]) := by decide
theorem test_decode_newcompat : decode { header := 0x0000000001000002, words := [] } =
    .ok (.newcompat 1 0) := by decide
theorem test_decode_release : decode { header := 0x0000000000000103, words := [] } =
    .ok (.release 1) := by decide
theorem test_decode_add : decode { header := 0x0000000000000010, words := [0x0000000000000005] } =
    .ok (.add 0 5) := by decide
theorem test_decode_addc : decode { header := 0x0000000000000211, words := [0x000000000000007F] } =
    .ok (.addc 2 0x7F) := by decide
theorem test_decode_contains : decode { header := 0x0000000000000312, words :=
    [0xFFFFFFFFFFFFFFC5] } = .ok (.contains 3 0xFFFFFFFFFFFFFFC5) := by decide
theorem test_decode_getm : decode { header := 0x0000000000000020, words := [] } =
    .ok (.getm 0) := by decide
theorem test_decode_getk : decode { header := 0x0000000000000021, words := [] } =
    .ok (.getk 0) := by decide
theorem test_decode_getn : decode { header := 0x0000000000000122, words := [] } =
    .ok (.getn 1) := by decide
theorem test_decode_getkey : decode { header := 0x0000000000000123, words :=
    [0x0000000000000001] } = .ok (.getkey 1 1) := by decide
theorem test_decode_readword : decode { header := 0x0000000000000024, words :=
    [0x0000000000000001] } = .ok (.readword 0 1) := by decide
theorem test_decode_iscompat : decode { header := 0x0000000000010030, words := [] } =
    .ok (.iscompat 0 1) := by decide
theorem test_decode_verifycompat : decode { header := 0x0000000000020331, words := [] } =
    .ok (.verifycompat 3 2) := by decide
theorem test_decode_unionip : decode { header := 0x0000000000000132, words := [] } =
    .ok (.unionip 1 0) := by decide
theorem test_decode_union : decode { header := 0x0000000002010033, words := [] } =
    .ok (.union 2 0 1) := by decide
theorem test_decode_copy : decode { header := 0x0000000003000034, words := [] } =
    .ok (.copy 3 0) := by decide

/-- V-E20, V-E21, V-E22: illegal opcodes, before reserved fields. -/
theorem test_decode_illegal :
    decode { header := 0x0000000000000000, words := [] } = .error .illegalOpcode ∧
    decode { header := 0x0000000000FF0004, words := [] } = .error .illegalOpcode ∧
    decode { header := 0x00000000000000FF, words := [] } = .error .illegalOpcode := by decide

/-- V-E23, V-E24, V-E28, V-E34: a nonzero reserved field. -/
theorem test_decode_reserved_fields :
    decode { header := 0x0000000000010010, words := [5] } = .error .badOperand ∧
    decode { header := 0x0000000100000010, words := [5] } = .error .badOperand ∧
    decode { header := 0x0000000100000101, words := [0x40, 1] } = .error .badOperand ∧
    decode { header := 0x0000000000010002, words := [] } = .error .badOperand := by decide

/-- V-E25, V-E26, V-E27, V-E35: a wrong number of operand words. -/
theorem test_decode_operand_counts :
    decode { header := 0x0000000000000010, words := [] } = .error .badOperand ∧
    decode { header := 0x0000000000000022, words := [0] } = .error .badOperand ∧
    decode { header := 0x0000000200000001, words := [0x40, 1] } = .error .badOperand ∧
    decode { header := 0x0000000001000034, words := [0] } = .error .badOperand := by decide

/-- V-E29, V-E31, V-E32: slot numbers out of range are answered at the decode step. -/
theorem test_decode_step_bad_slots :
    answered ((idleState [free, free, free, free]
      [{ header := 0x0000000000000422, words := [] }]).stepPort 0) .badSlot 0
      [free, free, free, free] = true ∧
    answered ((idleState [free, free, free, free]
      [{ header := 0x0000000000010410, words := [5] }]).stepPort 0) .badOperand 0
      [free, free, free, free] = true ∧
    answered ((idleState [free, free, free, free]
      [{ header := 0x0000000004000001, words := [0x40] }]).stepPort 0) .badSlot 0
      [free, free, free, free] = true := by decide

/-- The table's word for ADD, operand words of zeros, is the instruction the very next step runs. -/
theorem test_placed_word_runs :
    decodeTableWord 64 0x10 = some (.add 0 0) ∧
    after (step (State.reset.withFetchWord 64 0x10)) (fun t =>
      (t.port 0).busy == some (MicroState.init (.add 0 0))) = true := by decide

theorem test_asm : (Instr.create 1 128 [3, 64]).asm = "CREATE s1, m=128, keys=[3, 64]" ∧
    (Instr.union 2 0 1).asm = "UNION s2, s0, s1" := by decide

theorem test_word_bytes : wordBytes 0x1122334455667788 =
    [0x88, 0x77, 0x66, 0x55, 0x44, 0x33, 0x22, 0x11] := by decide

theorem test_response_words :
    ({ status := .incompatible, result := 7 } : Response).words = [5, 7] := by decide

/-! ## One step of each command -/

/-- V-L1. -/
theorem test_execCreate : answered (exec (.create 0 64 [1])
      (busyState [free, free, free, free] (MicroState.init (.create 0 64 [1])))) .ok 0
      [f64, free, free, free] = true := by decide

/-- V-L7, V-L8, V-L9: the order of the checks. -/
theorem test_createCheck :
    createCheck Config.testcfg free 64 [1, 2, 1] = some .duplicateKeys ∧
    createCheck Config.testcfg free 1 [5, 5] = some .invalidSize ∧
    createCheck Config.testcfg free 4097 [1] = some .resourceLimit ∧
    createCheck Config.testcfg free 4096 [1, 65] = none := by decide

/-- V-L17. -/
theorem test_execNewcompat : answered (exec (.newcompat 1 0)
      (busyState [filter 64 [1] [(0, 0x10)] 1, free, free, free]
        (MicroState.init (.newcompat 1 0)))) .ok 0
      [filter 64 [1] [(0, 0x10)] 1, f64, free, free] = true := by decide

/-- V-L19, V-L20: one slot as destination and source. -/
theorem test_execNewcompat_same_slot :
    answered (exec (.newcompat 0 0) (busyState [f64, free, free, free]
      (MicroState.init (.newcompat 0 0)))) .slotBusy 0 [f64, free, free, free] = true ∧
    answered (exec (.newcompat 0 0) (busyState [free, free, free, free]
      (MicroState.init (.newcompat 0 0)))) .badSlot 0 [free, free, free, free] = true := by decide

/-- V-L22. -/
theorem test_execRelease : after (exec (.release 0)
      (busyState [f64, free, free, free] (MicroState.init (.release 0)))) (fun t =>
        (t.slot 0).st == .free && (t.port 0).resp == [{ status := .ok, result := 0 }]) = true := by
  decide

/-- RELEASE waits while a command holds the slot (R102). -/
theorem test_execRelease_waits : stopped (exec (.release 0)
      (busyState [shared f64, free, free, free] (MicroState.init (.release 0)))) .waiting = true := by
  decide

/-- V-C1: the set step of `ADD s0, 5` sets bit 4. -/
theorem test_execAdd_set : after (exec (.add 0 5)
      (busyState [shared f64, free, free, free] (at_ (.add 0 5) .set [(0, .shared)]))) (fun t =>
        t.slots == [shared (filter 64 [1] [(0, 0x10)] 0), free, free, free] &&
        (t.port 0).busy.map (fun mu => (mu.phase, mu.pos)) == some (.body, 1)) = true := by decide

/-- V-C15: the count wraps. -/
theorem test_execAdd_wraps : answered (exec (.add 0 5)
      (busyState [shared (filter 64 [1] [(0, 0x10)] 0xFFFFFFFFFFFFFFFF), free, free, free]
        (at_ (.add 0 5) .body [(0, .shared)]))) .ok 0
      [filter 64 [1] [(0, 0x10)] 0, free, free, free] = true := by decide

/-- V-C2a: index 99 lies in word 1 at bit 35. -/
theorem test_setTarget_second_word :
    ((busyState [filter 100 [0, 0xFFFFFFFFFFFFFFFF] [] 0] (MicroState.init (.add 0 99))).setTarget
      0 99 0).slots = [filter 100 [0, 0xFFFFFFFFFFFFFFFF] [(1, 0x800000000)] 0] := by decide

/-- V-C6, first command: the load step sees 0. -/
theorem test_execAddc_load : after (exec (.addc 0 5)
      (busyState [shared f64, free, free, free] (at_ (.addc 0 5) .load [(0, .shared)]))) (fun t =>
        (t.port 0).busy.map (fun mu => (mu.flag, mu.phase, mu.pos)) == some (false, .set, 0)) =
      true := by decide

/-- V-C6, second command: the flag stays 1 and is the result. -/
theorem test_execAddc_body : answered (exec (.addc 0 5)
      (busyState [shared (filter 64 [1] [(0, 0x10)] 1), free, free, free]
        (at_ (.addc 0 5) .body [(0, .shared)]))) .ok 1
      [filter 64 [1] [(0, 0x10)] 2, free, free, free] = true := by decide

/-- V-C7: hash 69 finds the bit of hash 5. -/
theorem test_execContains_load : after (exec (.contains 0 69)
      (busyState [shared (filter 64 [1] [(0, 0x10)] 1), free, free, free]
        (at_ (.contains 0 69) .load [(0, .shared)]))) (fun t =>
        (t.port 0).busy.map (fun mu => (mu.flag, mu.phase, mu.pos)) == some (true, .body, 1)) =
      true := by decide

/-- V-C4: hash 6 finds bit 7 clear. -/
theorem test_execContains_clear : after (exec (.contains 0 6)
      (busyState [shared (filter 64 [1] [(0, 0x10)] 1), free, free, free]
        (at_ (.contains 0 6) .load [(0, .shared)]))) (fun t =>
        (t.port 0).busy.map (fun mu => (mu.flag, mu.phase)) == some (false, .body)) = true := by
  decide

/-- V-C10. -/
theorem test_execGetm : answered (exec (.getm 0)
      (busyState [f64, free, free, free] (MicroState.init (.getm 0)))) .ok 0x40
      [f64, free, free, free] = true := by decide
theorem test_execGetk : answered (exec (.getk 0)
      (busyState [fA, free, free, free] (MicroState.init (.getk 0)))) .ok 2
      [fA, free, free, free] = true := by decide

/-- V-L24: GETN on a FREE slot. -/
theorem test_execGetn : answered (exec (.getn 0)
      (busyState [fA, free, free, free] (MicroState.init (.getn 0)))) .ok 1
      [fA, free, free, free] = true ∧
    answered (exec (.getn 1)
      (busyState [fA, free, free, free] (MicroState.init (.getn 1)))) .badSlot 0
      [fA, free, free, free] = true := by decide

/-- V-C10, V-C11. -/
theorem test_execGetkey : answered (exec (.getkey 0 1)
      (busyState [fA, free, free, free] (MicroState.init (.getkey 0 1)))) .ok 0x40
      [fA, free, free, free] = true ∧
    answered (exec (.getkey 0 0x100000000)
      (busyState [fA, free, free, free] (MicroState.init (.getkey 0 0x100000000)))) .badOperand 0
      [fA, free, free, free] = true := by decide

/-- V-C13: a word of `m=100`, and the index after the last. -/
theorem test_execReadword : answered (exec (.readword 0 1)
      (busyState [filter 100 [0] [(1, 0x800000000)] 1, free, free, free]
        (MicroState.init (.readword 0 1)))) .ok 0x800000000
      [filter 100 [0] [(1, 0x800000000)] 1, free, free, free] = true ∧
    answered (exec (.readword 0 2)
      (busyState [filter 100 [0] [(1, 0x800000000)] 1, free, free, free]
        (MicroState.init (.readword 0 2)))) .badOperand 0
      [filter 100 [0] [(1, 0x800000000)] 1, free, free, free] = true := by decide

/-- V-U2 to V-U7: the masks, V-U5 with the keys in another order. -/
theorem test_compatMask :
    compatMask (filter 64 [1] [] 0) (filter 128 [1] [] 0) = 1 ∧
    compatMask (filter 64 [1] [] 0) (filter 64 [1, 2] [] 0) = 6 ∧
    compatMask (filter 64 [1, 2] [] 0) (filter 64 [1, 3] [] 0) = 4 ∧
    compatMask (filter 64 [1, 2] [] 0) (filter 64 [2, 1] [] 0) = 4 ∧
    compatMask (filter 64 [3] [] 0) (filter 128 [3, 0x40] [] 0) = 7 ∧
    compatMask (filter 64 [1] [] 0) (filter 128 [2] [] 0) = 5 ∧
    compatMask fA fB = 0 := by decide

def bothGuards : List (Nat × Mode) := [(0, .exclusive), (1, .exclusive)]

/-- V-U5. -/
theorem test_execIscompat : answered (exec (.iscompat 0 1)
      (busyState [exclusive (filter 64 [1, 2] [] 0), exclusive (filter 64 [2, 1] [] 0), free, free]
        (at_ (.iscompat 0 1) .body bothGuards))) .ok 0
      [filter 64 [1, 2] [] 0, filter 64 [2, 1] [] 0, free, free] = true := by decide

/-- V-U6. -/
theorem test_execVerifycompat : answered (exec (.verifycompat 0 1)
      (busyState [exclusive (filter 64 [3] [] 0), exclusive (filter 128 [3, 0x40] [] 0), free, free]
        (at_ (.verifycompat 0 1) .body bothGuards))) .incompatible 7
      [filter 64 [3] [] 0, filter 128 [3, 0x40] [] 0, free, free] = true := by decide

/-- V-U9. -/
theorem test_execUnionip : answered (exec (.unionip 0 1)
      (busyState [exclusive fA, exclusive fB, free, free]
        (at_ (.unionip 0 1) .body bothGuards))) .ok 0
      [{ fA with bits := merged }, fB, free, free] = true := by decide

/-- The lock order of `UNIONIP s1, s0` under CANONICAL: slot 0 first (R56). -/
theorem test_execUnionip_acquires_lower_first : after (exec (.unionip 1 0)
      (busyState [fA, fB, free, free] (MicroState.init (.unionip 1 0)))) (fun t =>
        t.slots == [exclusive fA, fB, free, free] &&
        (t.port 0).busy.map (fun mu => (mu.held, mu.phase)) ==
          some ([(0, .exclusive)], .acquire)) = true := by decide

/-- V-U10. -/
theorem test_execUnion : answered (exec (.union 2 0 1)
      (busyState [exclusive fA, exclusive fB, reserved, free]
        { at_ (.union 2 0 1) .body bothGuards with reserved := some 2 })) .ok 0
      [fA, fB, { fA with bits := merged, n := 0 }, free] = true := by decide

/-- V-U12: the second operand is FREE, so the first guard is released and the reservation returned. -/
theorem test_execUnion_fails_clean : answered (exec (.union 2 0 1)
      (busyState [exclusive fA, free, reserved, free]
        { at_ (.union 2 0 1) .acquire [(0, .exclusive)] with reserved := some 2 })) .badSlot 0
      [fA, free, free, free] = true := by decide

/-- V-U13, V-U14a. -/
theorem test_execCopy : answered (exec (.copy 3 0)
      (busyState [exclusive fA, free, free, reserved]
        { at_ (.copy 3 0) .body [(0, .exclusive)] with reserved := some 3 })) .ok 0
      [fA, free, free, fA] = true := by decide
theorem test_execCopy_onto_itself : answered (exec (.copy 0 0)
      (busyState [reserved, free, free, free]
        { at_ (.copy 0 0) .acquire [] with reserved := some 0 })) .badSlot 0
      [free, free, free, free] = true := by decide

/-- The run that has nothing to do has ended (R183). -/
theorem test_step_reset : stopped (step State.reset) .runEnded = true := by decide

/-! ## Witnesses: for each statement with hypotheses, states that meet them, clause by clause -/

def cmd (h : Word) (ws : List Word) : Command := { header := h, words := ws }

/-- Port 0 idle with one command, all slots FREE. -/
def idleFree (c : Command) : State := idleState [free, free, free, free] [c]

theorem witness_IllegalOpcodesDoNothing :
    let c := cmd 0x35 []
    (((idleFree c).port 0).busy = none ∧ ((idleFree c).port 0).nextCommand = some c) ∧
    decode c = .error .illegalOpcode := by decide

theorem witness_NonzeroUnusedFieldsDoNothing :
    let c := cmd 0x8000000000000010 [5]
    (Op.add, 0xFFFFFFFFFFFF00FF#64, 0x10#64) ∈ opcodeTable ∧
    ((idleFree c).port 0).busy = none ∧ ((idleFree c).port 0).nextCommand = some c ∧
    (Header.unpack c.header).op = Op.add.byte ∧ c.header &&& 0xFFFFFFFFFFFF00FF#64 ≠ 0x10#64 := by
  decide

theorem witness_WrongOperandCountsDoNothing :
    let c := cmd 0x0000000200000001 [64, 1]
    let d := cmd 0x10 []
    ((Op.create, 0x0000000000FFFFFF#64, 0x01#64) ∈ opcodeTable ∧
      ((idleFree c).port 0).nextCommand = some c ∧ (Header.unpack c.header).op = Op.create.byte ∧
      c.words.length ≠ 1 + (c.header >>> 32).toNat) ∧
    ((Op.add, 0xFFFFFFFFFFFF00FF#64, 0x10#64) ∈ opcodeTable ∧
      ((idleFree d).port 0).nextCommand = some d ∧ (Header.unpack d.header).op = Op.add.byte ∧
      d.words.length ≠ 1) := by decide

theorem witness_DecodeOfEncodeIsTheInstruction :
    (Instr.create 255 0xFFFFFFFFFFFFFFFF [0, 0xFFFFFFFFFFFFFFFF]).wellFormed = true := by decide

theorem witness_EncodeOfDecodeIsTheCommand :
    decode (cmd 0x00000001FF000001 [0xFFFFFFFFFFFFFFFF, 7]) =
      .ok (.create 255 0xFFFFFFFFFFFFFFFF [7]) := by decide

theorem witness_DecodeStepChecksThenStarts :
    (∀ c ∈ [cmd 0 [], cmd 0x10 [], cmd 0x422 [], cmd 0x322 []],
      ((idleFree c).port 0).busy = none ∧ ((idleFree c).port 0).nextCommand = some c) ∧
    decode (cmd 0 []) = .error .illegalOpcode ∧ decode (cmd 0x10 []) = .error .badOperand ∧
    (decode (cmd 0x422 []) = .ok (.getn 4) ∧ ∃ x ∈ (Instr.getn 4).slots, 4 ≤ x.toNat) ∧
    (decode (cmd 0x322 []) = .ok (.getn 3) ∧ ∀ x ∈ (Instr.getn 3).slots, x.toNat < 4) := by decide

theorem witness_StepRunsTheDecodedCommand :
    let s := idleState [f64, free, free, free] [encode (.getn 0)]
    let u := busyState [f64, free, free, free] (MicroState.init (.getn 0))
    (s.pick s.enabledPorts = some 0 ∧ AboutTo s 0 (.getn 0)) ∧
    (u.pick u.enabledPorts = some 0 ∧ (u.port 0).busy = some (MicroState.init (.getn 0))) := by decide

theorem witness_PlacedWordRunsNext :
    State.reset.ports ≠ [] ∧ decodeTableWord 64 0x34 = some (.copy 0 0) := by decide

/-- Two ports, both with a command: whichever the schedule names moves. -/
def twoPorts (sched : List Nat) (slots : List Slot) (i j : Instr) : State :=
  { State.reset with
    slots := slots, schedule := sched
    ports := [{ Port.reset with prog := [encode i] }, { Port.reset with prog := [encode j] }] }

theorem witness_AnyEnabledPortMayMove :
    let s := twoPorts [1] [f64, free, free, free] (.getn 0) (.getm 0)
    s.enabled 0 = true ∧ s.enabled 1 = true ∧
    after (step s) (fun t => (t.port 1).busy == some (MicroState.init (.getm 0))) = true := by decide

/-- Sound states in flight, one or two for each command and phase. -/
def soundStates : List State :=
  [State.reset,
   idleState [f64, fA, fB, free] [encode (.union 3 1 2)],
   busyState [free, free, free, free] (MicroState.init (.create 3 2 [0])),
   busyState [f64, free, free, free] (MicroState.init (.newcompat 3 0)),
   busyState [f64, free, free, free] (MicroState.init (.release 0)),
   busyState [f64, free, free, free] (MicroState.init (.add 0 5)),
   busyState [shared f64, free, free, free] (at_ (.add 0 5) .set [(0, .shared)]),
   busyState [shared f64, free, free, free] { at_ (.add 0 5) .body [(0, .shared)] with pos := 1 },
   busyState [shared f64, free, free, free] (at_ (.addc 0 5) .load [(0, .shared)]),
   busyState [shared f64, free, free, free] (at_ (.addc 0 5) .set [(0, .shared)]),
   busyState [shared f64, free, free, free] { at_ (.addc 0 5) .body [(0, .shared)] with pos := 1 },
   busyState [shared f64, free, free, free] (at_ (.contains 0 5) .load [(0, .shared)]),
   busyState [shared f64, free, free, free]
     { at_ (.contains 0 5) .body [(0, .shared)] with pos := 1 },
   busyState [exclusive fA, fB, free, free] (at_ (.unionip 0 1) .acquire [(0, .exclusive)]),
   busyState [exclusive fA, exclusive fB, free, free] (at_ (.unionip 0 1) .body bothGuards),
   busyState [exclusive fA, exclusive f64, free, free] (at_ (.unionip 0 1) .body bothGuards),
   busyState [exclusive fA, exclusive fB, free, free] (at_ (.iscompat 0 1) .body bothGuards),
   busyState [exclusive fA, exclusive f64, free, free] (at_ (.iscompat 0 1) .body bothGuards),
   busyState [exclusive fA, exclusive fB, free, free] (at_ (.verifycompat 0 1) .body bothGuards),
   busyState [exclusive fA, exclusive f64, free, free] (at_ (.verifycompat 0 1) .body bothGuards),
   busyState [exclusive fA, exclusive fB, reserved, free]
     { at_ (.union 2 0 1) .body bothGuards with reserved := some 2 },
   busyState [exclusive fA, exclusive f64, reserved, free]
     { at_ (.union 2 0 1) .body bothGuards with reserved := some 2 },
   busyState [exclusive fA, free, reserved, free]
     { at_ (.union 2 0 1) .acquire [(0, .exclusive)] with reserved := some 2 },
   busyState [exclusive fA, free, free, reserved]
     { at_ (.copy 3 0) .body [(0, .exclusive)] with reserved := some 3 }]

theorem witness_invariant : ∀ s ∈ soundStates, s.inv = true := by decide

/-- Each of them but the first moves, so the hypotheses of the statements about a next state of a sound
state are met. -/
theorem witness_moves : ∀ s ∈ soundStates.tail, after (s.advance.stepPort 0) (fun _ => true) = true ∧
    after (step s) (fun _ => true) = true := by decide

theorem witness_StepStopsOnlyAtTheEndOrStuck :
    State.reset.inv = true ∧ stopped (step State.reset) .runEnded = true := by decide

/-- SharedAcquisition: a holder in exclusive mode, a FREE slot, a VALID slot, for each command. -/
theorem witness_SharedAcquisition : ∀ i ∈ [Instr.add 0 5, .addc 0 5, .contains 0 5],
    (∀ t ∈ [{ f64 with wr := some 1 }, free, f64],
      InPhase (busyState [t, free, free, free] (MicroState.init i)) i .acquire (MicroState.init i)) ∧
    (MicroState.init i).held = [] ∧ (MicroState.init i).reserved = none := by decide

/-- ExclusiveAcquisitionInLockOrder: the two lock orders, one slot twice, and `COPY`. -/
theorem witness_ExclusiveAcquisitionInLockOrder :
    (lockOrder .canonical 3 0 = [0, 3] ∧ lockOrder .argOrder 3 0 = [3, 0] ∧
      lockOrder .argOrder 2 2 = [2]) ∧
    (∀ t ∈ [{ fB with wr := some 1 }, { fB with rd := 1 }, free, fB],
      let mu := at_ (.unionip 0 1) .acquire [(0, .exclusive)]
      InPhase (busyState [exclusive fA, t, free, free] mu) (.unionip 0 1) .acquire mu ∧
        [0, 1][1]? = some 1 ∧ mu.held = ([0, 1].take 1).map (fun y => (y, Mode.exclusive))) ∧
    (let mu := { at_ (.copy 3 0) .acquire [] with reserved := some 3 }
     InPhase (busyState [fA, free, free, reserved] mu) (.copy 3 0) .acquire mu) := by decide

theorem witness_ReservationStep : ∀ t ∈ [f64, reserved, free], ∀ i ∈ [Instr.union 3 0 1, .copy 3 0],
    InPhase (busyState [fA, fB, free, t] (MicroState.init i)) i .reserve (MicroState.init i) := by
  decide

/-- CreateChecksThenFills: one state for each of its six outcomes, in order. -/
theorem witness_CreateChecksThenFills :
    (∀ i ∈ [Instr.create 0 64 [], .create 0 64 [1]],
      InPhase (busyState [f64, free, free, free] (MicroState.init i)) i .body (MicroState.init i)) ∧
    createCheck Config.testcfg f64 64 [] = some .slotBusy ∧
    createCheck Config.testcfg free 1 [] = some .invalidKeyCount ∧
    createCheck Config.testcfg free 1 [5, 5] = some .invalidSize ∧
    createCheck Config.testcfg free 2 [5, 1, 5] = some .duplicateKeys ∧
    createCheck Config.testcfg free 64 ((List.range 17).map (BitVec.ofNat 64)) =
      some .resourceLimit ∧
    createCheck Config.testcfg free 4096 ((List.range 16).map (BitVec.ofNat 64)) = none := by decide

theorem witness_NewcompatClonesEmpty :
    ∀ x ∈ [(f64, f64), (free, free), (free, f64)],
      InPhase (busyState [x.1, x.2, free, free] (MicroState.init (.newcompat 0 1)))
        (.newcompat 0 1) .body (MicroState.init (.newcompat 0 1)) := by decide

theorem witness_ReleaseWaitsThenFrees :
    ∀ t ∈ [shared f64, { f64 with wr := some 1 }, free, reserved, f64],
      InPhase (busyState [t, free, free, free] (MicroState.init (.release 0)))
        (.release 0) .body (MicroState.init (.release 0)) := by decide

theorem witness_reads :
    ∀ i ∈ [Instr.getm 0, .getk 0, .getn 0, .getkey 0 0, .getkey 0 1, .readword 0 0, .readword 0 1],
      ∀ t ∈ [free, f64, { f64 with wr := some 1 }],
        InPhase (busyState [t, free, free, free] (MicroState.init i)) i .body (MicroState.init i) := by
  decide

/-- The statements about the loop steps and the bodies of the guarded commands: each pair of a command
and a phase is that of a sound state. -/
theorem witness_in_phase :
    ∀ x ∈ [(Instr.add 0 5, Phase.set), (.add 0 5, .body), (.addc 0 5, .load), (.addc 0 5, .set),
        (.addc 0 5, .body), (.contains 0 5, .load), (.contains 0 5, .body), (.iscompat 0 1, .body),
        (.verifycompat 0 1, .body), (.unionip 0 1, .body), (.union 2 0 1, .body), (.copy 3 0, .body)],
      ∃ s ∈ soundStates, s.inv = true ∧
        s.inFlight.map (fun mu => (mu.cmd, mu.phase)) = some x := by decide

theorem witness_compatible_and_not :
    compatMask (exclusive fA) (exclusive fB) = 0 ∧ compatMask (exclusive fA) (exclusive f64) ≠ 0 := by
  decide

/-- A command alone on a sound state: an empty filter and a full one. -/
theorem witness_alone : ∀ i ∈ [Instr.add 0 5, .addc 0 5, .contains 0 5, .iscompat 0 0,
      .verifycompat 0 0, .unionip 0 0, .union 1 0 0],
    ∀ t ∈ [f64, filter 64 [1] [(0, 0xFFFFFFFFFFFFFFFF)] 0],
      (idleState [t, free, free, free] [encode i]).inv = true ∧
      AboutTo (idleState [t, free, free, free] [encode i]) 0 i ∧ t.st = .valid ∧ t.wr = none ∧
      t.rd = 0 ∧ ((idleState [t, free, free, free] [encode i]).port 1).busy = none := by decide

/-- StatusesFollowTheTable, ResultsAreZeroButWhereR80SaysOtherwise and FailuresLeaveNoTrace: a response
of each kind, from a sound state. -/
theorem witness_responses :
    (let s := busyState [exclusive fA, exclusive f64, reserved, free]
        { at_ (.union 2 0 1) .body bothGuards with reserved := some 2 }
     s.inv = true ∧ (s.port 0).nextCommand = some (encode (.union 2 0 1)) ∧
     after (s.stepPort 0) (fun t => (t.port 0).resp == [{ status := .incompatible, result := 7 }]) =
       true) ∧
    (let s := busyState [f64, free, free, free] (MicroState.init (.getm 0))
     s.inv = true ∧ after (s.stepPort 0) (fun t =>
       (t.port 0).resp == [{ status := .ok, result := 64 }]) = true) ∧
    (let s := idleFree (cmd 0 [])
     s.inv = true ∧ after (s.stepPort 0) (fun t =>
       (t.port 0).resp == [{ status := .illegalOpcode, result := 0 }]) = true) := by decide

theorem witness_ReadsHaveNoSideEffect : ∀ i ∈ [Instr.getm 0, .contains 0 5, .verifycompat 0 1],
    let s := idleState [f64, f64, free, free] [encode i]
    s.inFlight = none ∧ after (exec i s) (fun _ => true) = true := by decide

theorem witness_LaunchStatesMeetTheInvariant :
    (idleState [fA, fB, free, free] [encode (.unionip 0 1)]).launchOk = true ∧
    State.reset.launchOk = true ∧ Config.testcfg.legal = true := by decide

theorem witness_PaddingBitsAreZero :
    let s := idleState [filter 100 [0] [(1, 0x800000000)] 1, free, free, free] []
    s.inv = true ∧ (s.slot 0).st = .valid ∧ (s.slot 0).m.toNat ≤ 100 ∧ s.bit 0 99 = true := by decide

/-- Slot 0 as a move of port 0 leaves it, for the statements that compare the two: kept `VALID` with a
bit set, counted, filled, copied into, reserved, freed. -/
theorem witness_slot_changes :
    after ((soundStates.getD 6 State.reset).advance.stepPort 0) (fun t =>
      (t.slot 0).st == .valid && (t.slot 0).bits == [(0, 0x10)]) = true ∧
    after ((soundStates.getD 7 State.reset).advance.stepPort 0) (fun t => (t.slot 0).n == 1) = true ∧
    after ((soundStates.getD 2 State.reset).advance.stepPort 0) (fun t =>
      (t.slot 3).st == .valid) = true ∧
    after ((soundStates.getD 23 State.reset).advance.stepPort 0) (fun t =>
      (t.slot 3).st == .valid && (t.slot 3).n == 1) = true ∧
    after ((busyState [fA, fB, free, free] (MicroState.init (.copy 3 0))).advance.stepPort 0)
      (fun t => (t.slot 3).st == .reserved) = true ∧
    after ((soundStates.getD 22 State.reset).advance.stepPort 0) (fun t =>
      (t.slot 2).st == .free) = true ∧
    after ((soundStates.getD 4 State.reset).advance.stepPort 0) (fun t =>
      (t.slot 0).st == .free) = true := by decide

/-- Port 0 holds slot 0 in exclusive mode while port 1 issues a read of it. -/
def heldByZero : State :=
  { busyState [exclusive fA, fB, free, free] (at_ (.unionip 0 1) .acquire [(0, .exclusive)]) with
    ports := [{ Port.reset with
                  prog := [encode (.unionip 0 1)]
                  busy := some (at_ (.unionip 0 1) .acquire [(0, .exclusive)]) },
              { Port.reset with prog := [encode (.getn 0)] }] }

theorem witness_ExclusiveHolderIsAlone :
    heldByZero.inv = true ∧ (0, Mode.exclusive) ∈ (heldByZero.port 0).holds ∧
    after (heldByZero.advance.stepPort 1) (fun _ => true) = true ∧
    (heldByZero.slot 0).st = .valid := by decide

/-- Two states that differ in the fields of a FREE slot only. -/
theorem witness_FieldsOfUnfilledSlotsAreUnobservable :
    let s := idleState [f64, free, free, free] [encode (.getn 1)]
    let u := idleState [f64, { f64 with st := .free }, free, free] [encode (.getn 1)]
    s.inv = true ∧ s ≠ u ∧ s.cfg = u.cfg ∧ s.ports = u.ports ∧ s.slots.length = u.slots.length ∧
    (∀ x, x < 4 → (s.slot x).st = (u.slot x).st ∧ (s.slot x).rd = (u.slot x).rd ∧
      (s.slot x).wr = (u.slot x).wr ∧ ((s.slot x).st = .valid → s.slot x = u.slot x)) := by decide

theorem witness_BitsAreSetBeforeTheCount :
    (busyState [shared (filter 64 [1] [(0, 0x10)] 0), free, free, free]
      { at_ (.add 0 5) .body [(0, .shared)] with pos := 1 }).inv = true ∧
    (filter 64 [1] [(0, 0x10)] 0).bits = [(0, 0x10)] := by decide

/-- The state after moves of the listed ports, where every state on the way has the property. -/
def movesOf (P : State → Bool) (ports : List Nat) (s : State) : Option State :=
  match ports with
  | [] => if P s then some s else none
  | p :: rest =>
    if P s then
      match s.advance.stepPort p with
      | .next t => movesOf P rest t
      | .fault _ | .refused _ => none
    else none

/-- Such moves are a run. -/
theorem runWith_of_movesOf {P : State → Bool} {ports : List Nat} {s t : State}
    (h : movesOf P ports s = some t) : RunWith (fun u => P u = true) s t := by
  suffices key : ∀ r, RunWith (fun u => P u = true) r s ∨ r = s →
      RunWith (fun u => P u = true) r t from key s (.inr rfl)
  induction ports generalizing s with
  | nil =>
    intro r hr
    simp only [movesOf] at h
    split at h
    next hP =>
      obtain rfl := Option.some.inj h
      rcases hr with hr | rfl
      · exact hr
      · exact .start hP
    next => simp at h
  | cons p rest ih =>
    intro r hr
    simp only [movesOf] at h
    split at h
    next hP =>
      split at h
      next u hu =>
        have hru : RunWith (fun u => P u = true) r s := by
          rcases hr with hr | rfl
          · exact hr
          · exact .start hP
        cases rest with
        | nil =>
          have h' := h
          simp only [movesOf] at h'
          split at h'
          next hPu => exact ih h r (.inl (.move hru ⟨p, hu⟩ hPu))
          next => simp at h'
        | cons q rest' =>
          have h' := h
          simp only [movesOf] at h'
          split at h'
          next hPu => exact ih h r (.inl (.move hru ⟨p, hu⟩ hPu))
          next => simp at h'
      next => simp at h
      next => simp at h
    next => simp at h

/-- NoFalseNegatives: port 0 adds hash 5 and has its response, then port 1 tests it; slot 0 stays
`VALID`. -/
theorem witness_NoFalseNegatives :
    let s0 := twoPorts [] [f64, free, free, free] (.add 0 5) (.contains 0 5)
    let P := fun s : State => (s.slot 0).st == .valid
    s0.inv = true ∧ AboutTo s0 0 (.add 0 5) ∧
    ((movesOf P [0, 0, 0, 0] s0).map fun s1 =>
      decide (FirstResponse s0 s1 0 { status := .ok, result := 0 }) &&
      decide (AboutTo s1 1 (.contains 0 5)) &&
      ((movesOf P [1, 1, 1, 1] s1).map fun s2 =>
        decide (FirstResponse s1 s2 1 { status := .ok, result := 1 })) == some true) =
      some true := by decide

/-- Both ports hold their first guard under `ARG_ORDER`. -/
def deadlocked : State :=
  { State.reset with
    cfg := { Config.testcfg with lockOrder := .argOrder }
    slots := [{ fA with wr := some 0 }, { fB with wr := some 1 }, free, free]
    ports := [{ Port.reset with
                  prog := [encode (.unionip 0 1)]
                  busy := some (at_ (.unionip 0 1) .acquire [(0, .exclusive)]) },
              { Port.reset with
                  prog := [encode (.unionip 1 0)]
                  busy := some (at_ (.unionip 1 0) .acquire [(1, .exclusive)]) }] }

/-- V-X4a: the state is sound and stuck. -/
theorem witness_OppositeOperandOrdersDeadlock :
    deadlocked.inv = true ∧ deadlocked.cfg.lockOrder = .argOrder ∧
    stopped (step deadlocked) .stuck = true := by decide

theorem witness_CanonicalRunsAreNeverStuck :
    heldByZero.inv = true ∧ heldByZero.cfg.lockOrder = .canonical ∧
    0 < heldByZero.ports.length ∧ (heldByZero.port 0).busy ≠ none := by decide

theorem witness_EveryRunIsFinite :
    let s := idleState [fA, free, free, free] [encode (.addc 0 5)]
    s.inv = true ∧ s.launchOk = true ∧ s.work = 2 * 16 + 3 ∧
    after (Sys2Proof.core.run 7 s) (fun t => (t.port 0).resp == [{ status := .ok, result := 0 }]) =
      true := by decide

end Sys2Proof.Tests
end

section
/-! What a micro-step of a command in flight can do, said once over all sixteen commands: the command
goes on, succeeds or fails (R14). From it: a micro-step keeps the other ports and answers at most once
(R29, R30), and a failure leaves no trace (R104, R156). -/

namespace Sys2Proof.Machine

variable {s t u : State} {mu : MicroState} {i : Instr} {ph : Phase}

/-! ## The three endings of a micro-step -/

/-- The commands that loop over the keys of a slot (R115 to R117). -/
def loopsOverKeys (i : Instr) : Bool := i.op ∈ [Op.add, .addc, .contains]

/-- What a micro-step of command `i` in phase `ph` can make of it, from `s` to `t`: the command goes
on, or it succeeds, or it fails as `State.fail` does. A loop over keys fails at its acquisition only. -/
inductive MicroStepOutcome (s t : State) (i : Instr) (ph : Phase) : Prop where
  | goesOn (mu : MicroState) (h : GoesOn s t mu)
  | succeeds (v : Word) (h : Answers s t .ok v)
  | fails (status : Status) (v : Word) (hstatus : status ≠ .ok) (h : t = s.fail status v)
      (hphase : ph = .acquire ∨ loopsOverKeys i = false)

/-- A change of one slot before the command goes on does not show at the ports. -/
theorem modifySlot_setInFlight_goesOn (h : s.turn < s.ports.length) (x : Nat) (f : Slot → Slot)
    (mu' : MicroState) : GoesOn s ((s.modifySlot x f).setInFlight mu') mu' :=
  goesOn_of_slots (setInFlight_goesOn (s := s.modifySlot x f) h mu') rfl rfl rfl rfl (by simp) rfl

/-- A change of one slot before a command's end does not show at the ports. -/
theorem modifySlot_finish_answers (h : s.turn < s.ports.length) (x : Nat) (f : Slot → Slot)
    (status : Status) (v : Word) : Answers s ((s.modifySlot x f).finish status v) status v :=
  answers_of_slots (finish_answers (s := s.modifySlot x f) h status v) rfl rfl rfl rfl (by simp) rfl

theorem finish_outcome (hf : s.inFlight = some mu) (v : Word) :
    MicroStepOutcome s (s.finish .ok v) i ph :=
  .succeeds v (finish_answers (turn_lt_of_inFlight _ hf) ..)

theorem modifySlot_finish_outcome (hf : s.inFlight = some mu) (x : Nat) (f : Slot → Slot) (v : Word) :
    MicroStepOutcome s ((s.modifySlot x f).finish .ok v) i ph :=
  .succeeds v (modifySlot_finish_answers (turn_lt_of_inFlight _ hf) ..)

theorem setInFlight_outcome (hf : s.inFlight = some mu) (mu' : MicroState) :
    MicroStepOutcome s (s.setInFlight mu') i ph :=
  .goesOn mu' (setInFlight_goesOn (turn_lt_of_inFlight _ hf) _)

theorem modifySlot_setInFlight_outcome (hf : s.inFlight = some mu) (x : Nat) (f : Slot → Slot)
    (mu' : MicroState) : MicroStepOutcome s ((s.modifySlot x f).setInFlight mu') i ph :=
  .goesOn mu' (modifySlot_setInFlight_goesOn (turn_lt_of_inFlight _ hf) ..)

theorem fail_outcome (hl : loopsOverKeys i = false) {status : Status} (hs : status ≠ .ok) (v : Word) :
    MicroStepOutcome s (s.fail status v) i ph :=
  .fails status v hs rfl (.inr hl)

/-! ## The shared shapes -/

/-- The acquisition of a loop over keys goes on or fails (R51). -/
theorem sharedAcquisition_outcome (hf : s.inFlight = some mu) (hp : mu.phase = .acquire) {x : Nat}
    (h : ((s.slot x).st ≠ .valid ∧ t = s.fail .badSlot 0#64) ∨
      ((s.slot x).st = .valid ∧ t = (s.modifySlot x fun u => { u with rd := u.rd + 1 }).setInFlight
        { mu with held := mu.held ++ [(x, .shared)], phase := ph })) :
    MicroStepOutcome s t i mu.phase := by
  obtain ⟨-, rfl⟩ | ⟨-, rfl⟩ := h
  · exact .fails _ _ (by decide) rfl (.inl hp)
  · exact modifySlot_setInFlight_outcome hf ..

/-- A command that takes exclusive guards goes on or fails up to its body (R56, R63). -/
theorem exclusiveSteps_outcome (hf : s.inFlight = some mu) (hl : loopsOverKeys i = false)
    {dest : Option SlotNum} {order : List Nat} {body : Result}
    (h : s.exclusiveSteps i dest order body = .next t)
    (hbody : body = .next t → MicroStepOutcome s t i mu.phase) :
    MicroStepOutcome s t i mu.phase := by
  obtain ⟨-, sd, -, ⟨-, rfl⟩ | ⟨-, rfl⟩⟩ | ⟨-, x, -, -, -, ⟨-, rfl⟩ | ⟨-, rfl⟩⟩ | ⟨-, hb⟩ :=
    exclusiveSteps_next hf h
  · exact fail_outcome hl (by decide) _
  · exact modifySlot_setInFlight_outcome hf ..
  · exact fail_outcome hl (by decide) _
  · exact modifySlot_setInFlight_outcome hf ..
  · exact hbody hb

/-- A body that needs compatible filters answers `Incompatible` or succeeds (R133 to R135). -/
theorem compatibleBody_outcome (hl : loopsOverKeys i = false) {mask : Word}
    (hu : MicroStepOutcome s u i ph)
    (h : (if mask ≠ 0#64 then .next (s.fail .incompatible mask) else .next u : Result) = .next t) :
    MicroStepOutcome s t i ph := by
  split at h <;> obtain rfl := Host.Outcome.next.inj h
  · exact fail_outcome hl (by decide) mask
  · exact hu

/-! ## Every command -/

/-- Every micro-step of a command in flight has one of the three endings (R14). -/
theorem exec_outcome (hf : s.inFlight = some mu) (h : exec i s = .next t) :
    MicroStepOutcome s t i mu.phase := by
  cases i with
  | create sd m keys =>
    obtain ⟨-, ⟨status, hs, rfl⟩ | ⟨-, -, -, -, -, -, rfl⟩⟩ := execCreate_next hf h
    · exact fail_outcome rfl (by rintro rfl; simpa using createCheck_status hs) _
    · exact modifySlot_finish_outcome hf ..
  | newcompat sd sa =>
    obtain ⟨-, ⟨-, rfl⟩ | ⟨-, -, rfl⟩ | ⟨-, -, rfl⟩⟩ := execNewcompat_next hf h
    · exact fail_outcome rfl (by decide) _
    · exact fail_outcome rfl (by decide) _
    · exact modifySlot_finish_outcome hf ..
  | release sa =>
    obtain ⟨-, -, -, ⟨-, rfl⟩ | ⟨-, rfl⟩⟩ := execRelease_next hf h
    · exact fail_outcome rfl (by decide) _
    · exact modifySlot_finish_outcome hf ..
  | add sa hash =>
    obtain ⟨hp, -, h⟩ | ⟨-, rfl⟩ | ⟨-, rfl⟩ := execAdd_next hf h
    · exact sharedAcquisition_outcome hf hp h
    · exact modifySlot_setInFlight_outcome hf ..
    · exact modifySlot_finish_outcome hf ..
  | addc sa hash =>
    obtain ⟨hp, -, h⟩ | ⟨-, rfl⟩ | ⟨-, rfl⟩ | ⟨-, rfl⟩ := execAddc_next hf h
    · exact sharedAcquisition_outcome hf hp h
    · exact setInFlight_outcome hf _
    · exact modifySlot_setInFlight_outcome hf ..
    · exact modifySlot_finish_outcome hf ..
  | contains sa hash =>
    obtain ⟨hp, -, h⟩ | ⟨-, rfl⟩ | ⟨-, rfl⟩ := execContains_next hf h
    · exact sharedAcquisition_outcome hf hp h
    · exact setInFlight_outcome hf _
    · exact finish_outcome hf _
  | getm sa =>
    obtain ⟨-, ⟨-, rfl⟩ | ⟨-, rfl⟩⟩ := execGetm_next hf h
    · exact fail_outcome rfl (by decide) _
    · exact finish_outcome hf _
  | getk sa =>
    obtain ⟨-, ⟨-, rfl⟩ | ⟨-, rfl⟩⟩ := execGetk_next hf h
    · exact fail_outcome rfl (by decide) _
    · exact finish_outcome hf _
  | getn sa =>
    obtain ⟨-, ⟨-, rfl⟩ | ⟨-, rfl⟩⟩ := execGetn_next hf h
    · exact fail_outcome rfl (by decide) _
    · exact finish_outcome hf _
  | getkey sa index =>
    obtain ⟨-, ⟨-, rfl⟩ | ⟨-, -, rfl⟩ | ⟨-, -, rfl⟩⟩ := execGetkey_next hf h
    · exact fail_outcome rfl (by decide) _
    · exact fail_outcome rfl (by decide) _
    · exact finish_outcome hf _
  | readword sa index =>
    obtain ⟨-, -, ⟨-, rfl⟩ | ⟨-, -, rfl⟩ | ⟨-, -, rfl⟩⟩ := execReadword_next hf h
    · exact fail_outcome rfl (by decide) _
    · exact fail_outcome rfl (by decide) _
    · exact finish_outcome hf _
  | iscompat sa sb =>
    rw [exec, execIscompat] at h
    refine exclusiveSteps_outcome hf rfl h fun hb => ?_
    obtain rfl := Host.Outcome.next.inj hb
    exact finish_outcome hf _
  | verifycompat sa sb =>
    rw [exec, execVerifycompat] at h
    exact exclusiveSteps_outcome hf rfl h (compatibleBody_outcome rfl (finish_outcome hf _))
  | unionip sa sb =>
    rw [exec, execUnionip] at h
    exact exclusiveSteps_outcome hf rfl h
      (compatibleBody_outcome rfl (modifySlot_finish_outcome hf ..))
  | union sd sa sb =>
    rw [exec, execUnion] at h
    exact exclusiveSteps_outcome hf rfl h
      (compatibleBody_outcome rfl (modifySlot_finish_outcome hf ..))
  | copy sd sa =>
    rw [exec, execCopy] at h
    refine exclusiveSteps_outcome hf rfl h fun hb => ?_
    obtain rfl := Host.Outcome.next.inj hb
    exact modifySlot_finish_outcome hf ..

/-- The micro-step of a busy port (R14, R82). -/
theorem stepPort_busy_outcome {p : Nat} (hb : (s.port p).busy = some mu)
    (h : s.stepPort p = .next t) : MicroStepOutcome { s with turn := p } t mu.cmd mu.phase := by
  obtain ⟨-, ⟨c, status, hn, -⟩ | ⟨c, i, hn, -⟩ | ⟨mu', hb', he⟩⟩ := stepPort_next h
  · simp [hb] at hn
  · simp [hb] at hn
  · obtain rfl : mu = mu' := by simpa [hb] using hb'
    exact exec_outcome (s := { s with turn := p }) hb he

/-- Every micro-step of a port keeps its command in flight or answers it, once (R14, R29, R82). -/
theorem stepPort_goesOn_or_answers {p : Nat} (h : s.stepPort p = .next t) :
    (∃ mu, GoesOn { s with turn := p } t mu) ∨
      ∃ status v, Answers { s with turn := p } t status v := by
  obtain ⟨hp, ⟨c, status, -, -, -, rfl⟩ | ⟨c, i, -, -, -, ⟨-, rfl⟩ | ⟨-, rfl⟩⟩ | ⟨mu, hb, -⟩⟩ :=
    stepPort_next h
  · exact .inr ⟨_, _, respond_answers hp ..⟩
  · exact .inr ⟨_, _, respond_answers hp ..⟩
  · exact .inl ⟨_, setInFlight_goesOn hp _⟩
  · obtain ⟨mu', hg⟩ | ⟨v, ha⟩ | ⟨status, v, -, rfl, -⟩ := stepPort_busy_outcome hb h
    · exact .inl ⟨mu', hg⟩
    · exact .inr ⟨_, v, ha⟩
    · exact .inr ⟨status, v, fail_answers hp ..⟩

/-- Settles O14: the port that moves goes on or answers, and either keeps every other port. -/
theorem microStepsAnswerOnceAndKeepOtherPorts :
    Obligations.MicroStepsAnswerOnceAndKeepOtherPorts := by
  intro s t p h
  obtain ⟨mu', hc, -, -, -, hl, hn, hq, hp⟩ | ⟨status, v, hc, -, -, -, hl, hn, hq, hp⟩ :=
    stepPort_goesOn_or_answers h
  all_goals
    simp only [withTurn_port] at hq hp
    refine ⟨hc, hn, hl, hq, by rw [hp], ?_⟩
    simp [hp]

/-! ## What a failure leaves -/

/-- A slot after a failure: the command's guards released, its reservation returned (R14). -/
theorem slot_fail (hf : s.inFlight = some mu) (status : Status) (v : Word) (x : Nat) :
    (s.fail status v).slot x =
      { s.slot x with
        st := if mu.reserved = some x then .free else (s.slot x).st
        rd := (s.slot x).rd - mu.held.count (x, .shared)
        wr := if (x, Mode.exclusive) ∈ mu.held then none else (s.slot x).wr } := by
  rw [fail_slot, slot_freeReserved ((releaseGuards_inFlight s).trans hf), slot_releaseGuards hf,
    releaseGuards_slots_length]
  by_cases hx : x < s.slots.length
  · by_cases hr : mu.reserved = some x <;> simp [hr, hx]
  · simp [slot_of_ge _ _ (Nat.le_of_not_lt hx), hx, Slot.reset]

/-- A loop that has not begun is at its first key (R115 to R117). -/
theorem pos_eq_zero_of_loopOk {x : Nat} {phases : List Phase} (h : s.loopOk mu x phases = true)
    (hp : mu.phase = .acquire) (hin : .acquire ∉ phases) : mu.pos = 0 := by
  have hstart : mu.reserved = none ∧ mu.held = [] ∧ mu.pos = 0 := by
    simpa [State.loopOk, hp, hin] using h
  exact hstart.2.2

theorem pos_eq_zero_of_exclusiveOk {dest : Option Nat} {order : List Nat}
    (h : exclusiveOk mu dest order = true) : mu.pos = 0 := by
  simp only [exclusiveOk, Bool.and_eq_true, beq_iff_eq] at h
  exact h.1

theorem pos_eq_zero_of_oneStepOk (h : oneStepOk mu = true) : mu.pos = 0 := by
  simp only [oneStepOk, Bool.and_eq_true, beq_iff_eq] at h
  exact h.2

/-- Before its loop a command has passed no key, and a command without a loop never does (R30). -/
theorem pos_eq_zero_of_microOk (h : s.microOk mu = true)
    (hp : mu.phase = .acquire ∨ loopsOverKeys mu.cmd = false) : mu.pos = 0 := by
  rw [State.microOk, Bool.and_eq_true] at h
  obtain ⟨-, h⟩ := h
  cases hc : mu.cmd <;> simp only [hc] at h
  case add | addc | contains =>
    have hacq : mu.phase = .acquire := by simpa [hc, loopsOverKeys, Instr.op] using hp
    exact pos_eq_zero_of_loopOk h hacq (by decide)
  case iscompat | verifycompat | unionip | union | copy => exact pos_eq_zero_of_exclusiveOk h
  all_goals exact pos_eq_zero_of_oneStepOk h

/-- The micro-state of a busy port of a sound state is one of its pseudocode (R30). -/
theorem microOk_of_inv {p : Nat} (hi : s.inv = true) (hb : (s.port p).busy = some mu) :
    s.microOk mu = true := by
  have hp : p < s.ports.length := turn_lt_of_inFlight { s with turn := p } hb
  have hk := (inv_iff.1 hi).port p hp
  simp only [State.portOk, hb, Bool.and_eq_true] at hk
  exact hk.2.2

/-- Settles O39: a response that is not `OK` ends a micro-step that fails, which changes slots by
`slot_fail` only, and the invariant puts such a micro-step before the first key. -/
theorem failuresLeaveNoTrace : Obligations.FailuresLeaveNoTrace := by
  intro s t p mu r hi hb h hr hne
  obtain ⟨mu', hg⟩ | ⟨v, ha⟩ | ⟨status, v, -, rfl, hphase⟩ := stepPort_busy_outcome hb h
  · obtain ⟨-, -, -, -, -, -, -, hp⟩ := hg
    simp [hp] at hr
  · obtain ⟨-, -, -, -, -, -, -, hp⟩ := ha
    have hok : { status := .ok, result := v } = r := by simpa [hp] using hr
    exact absurd (congrArg Response.status hok).symm hne
  · exact ⟨pos_eq_zero_of_microOk (microOk_of_inv hi hb) hphase,
      slot_fail (s := { s with turn := p }) hb status v⟩

end Sys2Proof.Machine
end

section
/-! What the invariant gives of one slot and of one command in flight: filters with clear padding,
guards and reservations that agree with their holders, micro-states of the pseudocode (R21 to R30).
-/

namespace Sys2Proof.Machine

variable {s t : State} {mu : MicroState} {cfg : Config} {p q x y : Nat} {mode : Mode}

/-! ## The words of a memory in the canonical form -/

theorem load_of_mem {mem : Memory} (h : Memory.wf mem = true) {c : Nat × Word} (hc : c ∈ mem) :
    Memory.load mem c.1 = c.2 := by
  induction mem with
  | nil => simp at hc
  | cons d rest ih =>
    obtain ⟨a, w⟩ := d
    obtain ⟨-, hlt, hwf⟩ := wf_cons.1 h
    rw [load_cons]
    rcases List.mem_cons.1 hc with rfl | hc
    · simp
    · rw [if_neg (hlt c hc).ne, ih hwf hc]

theorem mem_of_load_ne_zero {mem : Memory} {j : Nat} (h : Memory.load mem j ≠ 0#64) :
    (j, Memory.load mem j) ∈ mem := by
  induction mem with
  | nil => simp at h
  | cons d rest ih =>
    obtain ⟨a, w⟩ := d
    rw [load_cons] at h ⊢
    by_cases ha : a = j
    · simp [ha]
    · rw [if_neg ha] at h ⊢
      exact List.mem_cons_of_mem _ (ih h)

/-! ## Filters -/

/-- No bit is set at an index at or beyond the bit count (R25). -/
def PaddingClear (m : Word) (bits : Memory) : Prop :=
  ∀ i, m.toNat ≤ i → (Memory.load bits (i / 64)).getLsbD (i % 64) = false

/-- What R22 to R25 say of the fields of a filter. -/
structure FilterOk (cfg : Config) (m : Word) (k : KeyCount) (keys : List Word) (bits : Memory) :
    Prop where
  minM    : cfg.minM ≤ m.toNat
  maxM    : m.toNat ≤ cfg.maxM
  minK    : cfg.minK ≤ k.toNat
  maxK    : k.toNat ≤ cfg.maxK
  length  : keys.length = k.toNat
  nodup   : keys.Nodup
  padding : PaddingClear m bits

/-- The invariant's check of the listed words says that the padding is clear (R25). -/
theorem paddingClear_iff {m : Word} {bits : Memory} (hwf : Memory.wf bits = true) :
    (bits.all fun c => (List.range 64).all fun b =>
      !c.2.getLsbD b || decide (64 * c.1 + b < m.toNat)) = true ↔ PaddingClear m bits := by
  simp only [List.all_eq_true, List.mem_range, Bool.or_eq_true, Bool.not_eq_true',
    decide_eq_true_eq]
  constructor
  · intro h i hi
    by_cases h0 : Memory.load bits (i / 64) = 0#64
    · simp [h0]
    · refine (h _ (mem_of_load_ne_zero h0) (i % 64) (Nat.mod_lt _ (by omega))).resolve_right ?_
      show ¬ 64 * (i / 64) + i % 64 < m.toNat
      omega
  · intro h c hc b hb
    by_cases hlt : 64 * c.1 + b < m.toNat
    · exact .inr hlt
    · have hbit := h (64 * c.1 + b) (by omega)
      rw [show (64 * c.1 + b) / 64 = c.1 by omega, show (64 * c.1 + b) % 64 = b by omega,
        load_of_mem hwf hc] at hbit
      exact .inl hbit

theorem filterOk_iff {u : Slot} (hwf : Memory.wf u.bits = true) :
    u.filterOk cfg = true ↔ (u.st = .valid → FilterOk cfg u.m u.k u.keys u.bits) := by
  unfold Slot.filterOk
  rw [Bool.or_eq_true, Bool.and_eq_true, paddingClear_iff hwf]
  simp only [bne_iff_ne, ne_eq, Bool.and_eq_true, decide_eq_true_eq]
  constructor
  · rintro (h | ⟨⟨⟨⟨⟨h1, h2⟩, h3, h4⟩, h5⟩, h6⟩, h7⟩) hv
    · exact absurd hv h
    · exact ⟨h1, h2, h3, h4, h5, h6, h7⟩
  · intro h
    by_cases hv : u.st = .valid
    · obtain ⟨h1, h2, h3, h4, h5, h6, h7⟩ := h hv
      exact .inr ⟨⟨⟨⟨⟨h1, h2⟩, h3, h4⟩, h5⟩, h6⟩, h7⟩
    · exact .inl hv

/-- A filter with new words is one as before where the new padding is clear. -/
theorem FilterOk.withBits {m : Word} {k : KeyCount} {keys : List Word} {bits bits' : Memory}
    (h : FilterOk cfg m k keys bits) (hp : PaddingClear m bits') : FilterOk cfg m k keys bits' :=
  { h with padding := hp }

theorem paddingClear_zero (m : Word) : PaddingClear m Memory.zero := fun i _ => by simp

/-- The OR of two vectors with clear padding has clear padding (R134, R135). -/
theorem paddingClear_mergeWords {m : Word} {a b : Memory} (count : Nat) (ha : PaddingClear m a)
    (hb : PaddingClear m b) : PaddingClear m (mergeWords count a b) := by
  intro i hi
  rw [load_mergeWords]
  split
  · simp [ha i hi, hb i hi]
  · simp

theorem paddingClear_copyWords {m : Word} {a : Memory} (count : Nat) (ha : PaddingClear m a) :
    PaddingClear m (copyWords count a) := by
  intro i hi
  rw [load_copyWords]
  split
  · exact ha i hi
  · simp

/-- A compatibility mask of 0 says that the sizes agree (R131). -/
theorem compatMask_eq_zero_m {a b : Slot} (h : compatMask a b = 0#64) : a.m = b.m := by
  by_contra hm
  simp [compatMask, hm, BitVec.or_eq_zero_iff] at h

/-! ## Guards and reservations -/

theorem guardOk_iff {u : Slot} :
    u.guardOk = true ↔
      (u.wr = none ∨ u.rd = 0) ∧ (u.st = .valid ∨ (u.wr = none ∧ u.rd = 0)) := by
  simp [Slot.guardOk]

theorem holds_of_inFlight (h : s.inFlight = some mu) : (s.port s.turn).holds = mu.held := by
  have hb : (s.port s.turn).busy = some mu := h
  simp [Port.holds, hb]

theorem reserves_of_inFlight (h : s.inFlight = some mu) :
    (s.port s.turn).reserves = mu.reserved := by
  have hb : (s.port s.turn).busy = some mu := h
  simp [Port.reserves, hb]

/-- A port that holds a guard exists. -/
theorem lt_of_mem_holds {g : Nat × Mode} (h : g ∈ (s.port p).holds) : p < s.ports.length := by
  by_contra hp
  simp [port_of_ge _ _ (Nat.le_of_not_lt hp), Port.reset, Port.holds] at h

/-- A port is counted once among the shared holders of a slot for each shared guard it holds. -/
theorem State.Sound.count_shared_le (h : s.Sound) (hx : x < s.slots.length) (p : Nat) :
    (s.port p).holds.count (x, .shared) ≤ (s.slot x).rd := by
  by_cases hp : p < s.ports.length
  · rw [← (h.holders x hx).shared, port_of_lt _ _ hp]
    exact List.single_le_sum (by simp) _ (List.mem_map_of_mem (List.getElem_mem hp))
  · simp [port_of_ge _ _ (Nat.le_of_not_lt hp), Port.reset, Port.holds]

theorem State.Sound.wr_of_mem_holds (h : s.Sound) (hx : x < s.slots.length)
    (hg : (x, Mode.exclusive) ∈ (s.port p).holds) : (s.slot x).wr = some p := by
  by_contra hw
  have hc := (h.holders x hx).exclusive p (lt_of_mem_holds hg)
  rw [if_neg hw, List.count_eq_zero] at hc
  exact hc hg

/-- Nobody holds an idle guard (R27). -/
theorem State.Sound.not_mem_holds_of_idle (h : s.Sound) (hx : x < s.slots.length)
    (hr : (s.slot x).rd = 0) (hw : (s.slot x).wr = none) : (x, mode) ∉ (s.port p).holds := by
  intro hg
  cases mode with
  | shared =>
    have hle := h.count_shared_le hx p
    have hpos := List.count_pos_iff.2 hg
    omega
  | exclusive => simp [h.wr_of_mem_holds hx hg] at hw

/-- A slot that is held is `VALID` (R27, R62). -/
theorem State.Sound.valid_of_mem_holds (h : s.Sound) (hx : x < s.slots.length)
    (hg : (x, mode) ∈ (s.port p).holds) : (s.slot x).st = .valid := by
  obtain ⟨-, hv | ⟨hw, hr⟩⟩ := guardOk_iff.1 (h.guard x hx)
  · exact hv
  · exact absurd hg (h.not_mem_holds_of_idle hx hr hw)

/-- The slot a command reserved is `RESERVED` (R21). -/
theorem State.Sound.reserved_of_reserves (h : s.Sound) (hx : x < s.slots.length)
    (hr : (s.port p).reserves = some x) : (s.slot x).st = .reserved := by
  have hp : p < s.ports.length := by
    by_contra hp
    simp [port_of_ge _ _ (Nat.le_of_not_lt hp), Port.reset, Port.reserves] at hr
  have hc := (h.holders x hx).reserved
  by_contra hst
  rw [if_neg hst, List.countP_eq_zero] at hc
  exact hc _ (List.getElem_mem hp) (by simpa [port_of_lt _ _ hp] using hr)

/-- The filter of a `VALID` slot meets R22 to R25. -/
theorem State.Sound.filter_of_valid (h : s.Sound) (hx : x < s.slots.length)
    (hv : (s.slot x).st = .valid) :
    FilterOk s.cfg (s.slot x).m (s.slot x).k (s.slot x).keys (s.slot x).bits :=
  (filterOk_iff (h.memory x hx)).1 (h.filter x hx) hv

theorem State.Sound.memoryWf (h : s.Sound) : s.memoryWf := by
  intro u hu
  obtain ⟨x, hx, rfl⟩ := List.mem_iff_getElem.1 hu
  rw [← slot_of_lt _ _ hx]
  exact h.memory x hx

/-! ## Micro-states -/

theorem State.Sound.microOk (h : s.Sound) (hf : s.inFlight = some mu) : s.microOk mu = true :=
  microOk_of_inv (inv_iff.2 h) hf

theorem loopOk_iff {phases : List Phase} :
    s.loopOk mu x phases = true ↔ mu.reserved = none ∧
      ((mu.phase = .acquire ∧ mu.held = [] ∧ mu.pos = 0) ∨
       (mu.held = [(x, .shared)] ∧
        ((mu.phase ∈ phases ∧ mu.pos < s.keyCount x) ∨
         (mu.phase = .body ∧ mu.pos = s.keyCount x)))) := by
  simp [State.loopOk, and_assoc]

theorem exclusiveOk_iff {dest : Option Nat} {order : List Nat} :
    exclusiveOk mu dest order = true ↔ mu.pos = 0 ∧
      ((mu.phase = .reserve ∧ dest.isSome ∧ mu.held = [] ∧ mu.reserved = none) ∨
       (mu.reserved = dest ∧
        ((mu.phase = .acquire ∧ mu.held.length < order.length ∧
            mu.held = (order.take mu.held.length).map fun x => (x, Mode.exclusive)) ∨
         (mu.phase = .body ∧ mu.held = order.map fun x => (x, Mode.exclusive))))) := by
  simp [exclusiveOk, and_assoc]

theorem oneStepOk_iff :
    oneStepOk mu = true ↔ mu.phase = .body ∧ mu.held = [] ∧ mu.reserved = none ∧ mu.pos = 0 := by
  simp [oneStepOk, and_assoc]

/-- A command that takes exclusive guards holds guards of its lock order only. -/
theorem mem_order_of_exclusiveOk {dest : Option Nat} {order : List Nat}
    (h : exclusiveOk mu dest order = true) (hg : (x, mode) ∈ mu.held) : x ∈ order := by
  obtain ⟨-, ⟨-, -, h0, -⟩ | ⟨-, ⟨-, -, hh⟩ | ⟨-, hh⟩⟩⟩ := exclusiveOk_iff.1 h <;>
    rw [‹mu.held = _›] at hg
  · simp at hg
  · obtain ⟨y, hy, he⟩ := List.mem_map.1 hg
    obtain ⟨rfl, -⟩ := Prod.mk.inj he
    exact List.mem_of_mem_take hy
  · obtain ⟨y, hy, he⟩ := List.mem_map.1 hg
    obtain ⟨rfl, -⟩ := Prod.mk.inj he
    exact hy

/-- A command holds guards of its operand slots only. -/
theorem held_slot_of_microOk (h : s.microOk mu = true) (hg : (x, mode) ∈ mu.held) :
    ∃ n ∈ mu.cmd.slots, n.toNat = x := by
  rw [State.microOk, Bool.and_eq_true] at h
  obtain ⟨-, h⟩ := h
  cases hc : mu.cmd <;> simp only [hc] at h <;> simp only [Instr.slots]
  case add sa _ | addc sa _ | contains sa _ =>
    obtain ⟨-, ⟨-, h0, -⟩ | ⟨hh, -⟩⟩ := loopOk_iff.1 h
    · simp [h0] at hg
    · simp_all
  case iscompat sa sb | verifycompat sa sb | unionip sa sb | union sd sa sb =>
    rcases mem_lockOrder.1 (mem_order_of_exclusiveOk h hg) with rfl | rfl <;> simp
  case copy sd sa =>
    have hx : x = sa.toNat := by simpa using mem_order_of_exclusiveOk h hg
    simp [hx]
  all_goals
    obtain ⟨-, h0, -⟩ := oneStepOk_iff.1 h
    simp [h0] at hg

/-- A reservation is of the destination of a `COPY` or `UNION` (R21). -/
theorem reserved_slot_of_microOk (h : s.microOk mu = true) (hr : mu.reserved = some x) :
    (∃ sd sa, mu.cmd = .copy sd sa ∧ sd.toNat = x) ∨
      ∃ sd sa sb, mu.cmd = .union sd sa sb ∧ sd.toNat = x := by
  have hdest : ∀ {dest order}, exclusiveOk mu dest order = true → dest = some x := by
    intro dest order h
    obtain ⟨-, ⟨-, -, -, h0⟩ | ⟨hd, -⟩⟩ := exclusiveOk_iff.1 h
    · simp [h0] at hr
    · rw [← hd, hr]
  rw [State.microOk, Bool.and_eq_true] at h
  obtain ⟨-, h⟩ := h
  cases hc : mu.cmd <;> simp only [hc] at h
  case add | addc | contains => simp [(loopOk_iff.1 h).1] at hr
  case iscompat | verifycompat | unionip => exact absurd (hdest h) (by simp)
  case union sd sa sb => exact .inr ⟨sd, sa, sb, rfl, Option.some.inj (hdest h)⟩
  case copy sd sa => exact .inl ⟨sd, sa, rfl, Option.some.inj (hdest h)⟩
  all_goals
    obtain ⟨-, -, h0, -⟩ := oneStepOk_iff.1 h
    simp [h0] at hr

/-- The commands that reserve their destination (R21). -/
def reservesSlot (i : Instr) : Bool := i.op ∈ [Op.copy, .union]

/-- Every other command reserves nothing. -/
theorem reserved_eq_none_of_microOk (h : s.microOk mu = true) (hb : reservesSlot mu.cmd = false) :
    mu.reserved = none := by
  cases hr : mu.reserved with
  | none => rfl
  | some x =>
    obtain ⟨sd, sa, hc, -⟩ | ⟨sd, sa, sb, hc, -⟩ := reserved_slot_of_microOk h hr <;>
      simp [hc, reservesSlot, Instr.op] at hb

/-- The operand slots of a command in flight exist (R155 step 4). -/
theorem State.Sound.slot_lt (h : s.Sound) (hf : s.inFlight = some mu) {n : SlotNum}
    (hn : n ∈ mu.cmd.slots) : n.toNat < s.slots.length := by
  have hm := h.microOk hf
  rw [State.microOk, Bool.and_eq_true] at hm
  have hb := List.all_eq_true.1 hm.1 n hn
  rw [h.slots]
  simpa using hb

theorem State.Sound.held_lt (h : s.Sound) (hf : s.inFlight = some mu) (hg : (x, mode) ∈ mu.held) :
    x < s.slots.length := by
  obtain ⟨n, hn, rfl⟩ := held_slot_of_microOk (h.microOk hf) hg
  exact h.slot_lt hf hn

/-- A slot that a command in flight holds is `VALID`. -/
theorem State.Sound.valid_of_held (h : s.Sound) (hf : s.inFlight = some mu)
    (hg : (x, mode) ∈ mu.held) : (s.slot x).st = .valid :=
  h.valid_of_mem_holds (h.held_lt hf hg) (by rwa [holds_of_inFlight hf])

theorem State.Sound.reserved_lt (h : s.Sound) (hf : s.inFlight = some mu)
    (hr : mu.reserved = some x) : x < s.slots.length := by
  obtain ⟨sd, sa, hc, rfl⟩ | ⟨sd, sa, sb, hc, rfl⟩ := reserved_slot_of_microOk (h.microOk hf) hr <;>
    exact h.slot_lt hf (by simp [hc, Instr.slots])

/-- The slot a command in flight reserved is `RESERVED`. -/
theorem State.Sound.st_of_reserved (h : s.Sound) (hf : s.inFlight = some mu)
    (hr : mu.reserved = some x) : (s.slot x).st = .reserved :=
  h.reserved_of_reserves (h.reserved_lt hf hr) (by rwa [reserves_of_inFlight hf])

/-- Settles O45: the padding of a slot that exists is clear by the invariant, and one that does not
exist is not `VALID`. -/
theorem paddingBitsAreZero : Obligations.PaddingBitsAreZero := by
  intro s x hi hv i hm
  have hx : x < s.slots.length := by
    by_contra hx
    simp [slot_of_ge _ _ (Nat.le_of_not_lt hx), Slot.reset] at hv
  exact ((inv_iff.1 hi).filter_of_valid hx hv).padding i hm

end Sys2Proof.Machine
end

section
/-! Every micro-step keeps the invariant: first the shared operations, one lemma each, then the
sixteen commands (R21 to R30). -/

namespace Sys2Proof.Machine

variable {s t : State} {mu mu' : MicroState} {x y : Nat} {st : Status} {v : Word} {f : Slot → Slot}

/-! ## The state as its fields and its slots by number -/

theorem state_ext (hc : s.cfg = t.cfg) (hp : s.ports = t.ports) (ht : s.turn = t.turn)
    (hs : s.schedule = t.schedule) (hf : s.fresh = t.fresh)
    (hl : s.slots.length = t.slots.length) (hx : ∀ x, s.slot x = t.slot x) : s = t := by
  have hslots : s.slots = t.slots := by
    refine List.ext_getElem hl fun x h h' => ?_
    rw [← slot_of_lt s x h, ← slot_of_lt t x h', hx]
  cases s
  cases t
  simp_all

/-- What holds of a slot after a change of one slot, from the changed slot and from every other. -/
theorem slot_modifySlot_of (hy : y < s.slots.length) (P : Slot → Prop) (hne : y ≠ x → P (s.slot y))
    (heq : y = x → P (f (s.slot x))) : P ((s.modifySlot x f).slot y) := by
  rw [slot_modifySlot]
  split
  next hyx => exact heq hyx.1
  next hyx => exact hne fun he => hyx ⟨he, he ▸ hy⟩

theorem modifyPort_ports (h : x < s.ports.length) (g : Port → Port) :
    (s.modifyPort x g).ports = s.ports.modify x fun _ => g (s.port x) := by
  refine List.ext_getElem (by simp) fun q h1 h2 => ?_
  have hold : s.ports[x] = s.port x := (port_of_lt _ _ h).symm
  by_cases hq : x = q
  · subst hq; simp [State.modifyPort, hold]
  · simp [State.modifyPort, hq]

/-- The arbitration's fields are not the invariant's. -/
theorem State.Sound.withArbitration (h : s.Sound) (turn : Nat) (schedule : List Nat) (fresh : Nat) :
    State.Sound { s with turn := turn, schedule := schedule, fresh := fresh } :=
  ⟨h.legal, h.slots, h.ports, h.memory, h.filter, h.guard,
    fun x hx => ⟨(h.holders x hx).shared, (h.holders x hx).exclusive, (h.holders x hx).holder,
      (h.holders x hx).reserved⟩,
    h.port⟩

/-! ## A change of a slot's filter -/

/-- A change of one slot keeps the invariant where its guard stays, no reservation comes or goes,
and its key count stays or nobody holds it. -/
theorem State.Sound.modifySlot (h : s.Sound) (hrd : ∀ u, (f u).rd = u.rd)
    (hwr : ∀ u, (f u).wr = u.wr)
    (hres : (f (s.slot x)).st = .reserved ↔ (s.slot x).st = .reserved)
    (hmem : x < s.slots.length → Memory.wf (f (s.slot x)).bits = true)
    (hfilter : x < s.slots.length → (f (s.slot x)).filterOk s.cfg = true)
    (hguard : x < s.slots.length → (f (s.slot x)).guardOk = true)
    (hk : (f (s.slot x)).k = (s.slot x).k ∨ ((s.slot x).rd = 0 ∧ (s.slot x).wr = none)) :
    (s.modifySlot x f).Sound := by
  refine ⟨h.legal, by simpa using h.slots, h.ports, ?_, ?_, ?_, ?_, ?_⟩ <;>
    simp only [modifySlot_slots_length, modifySlot_ports, modifySlot_port, modifySlot_cfg]
  · exact fun y hy => slot_modifySlot_of hy (fun u => Memory.wf u.bits = true)
      (fun _ => h.memory y hy) fun he => hmem (he ▸ hy)
  · exact fun y hy => slot_modifySlot_of hy (fun u => u.filterOk s.cfg = true)
      (fun _ => h.filter y hy) fun he => hfilter (he ▸ hy)
  · exact fun y hy => slot_modifySlot_of hy (fun u => u.guardOk = true)
      (fun _ => h.guard y hy) fun he => hguard (he ▸ hy)
  · intro y hy
    have hkeep : ((s.modifySlot x f).slot y).rd = (s.slot y).rd ∧
        ((s.modifySlot x f).slot y).wr = (s.slot y).wr ∧
        (((s.modifySlot x f).slot y).st = .reserved ↔ (s.slot y).st = .reserved) := by
      rw [slot_modifySlot]
      split
      next hyx => obtain ⟨rfl, -⟩ := hyx; exact ⟨hrd _, hwr _, hres⟩
      next => exact ⟨rfl, rfl, Iff.rfl⟩
    obtain ⟨hr, hw, hst⟩ := hkeep
    obtain ⟨h1, h2, h3, h4⟩ := h.holders y hy
    exact ⟨by rw [hr]; exact h1, by rw [hw]; exact h2, by rw [hw]; exact h3,
      by simp only [hst]; exact h4⟩
  · intro p hp
    have hport := h.port p hp
    unfold State.portOk at hport ⊢
    cases hb : (s.port p).busy with
    | none => simpa [hb] using hport
    | some mu =>
      have hf : State.inFlight { s with turn := p } = some mu := hb
      have hm : (s.modifySlot x f).microOk mu = s.microOk mu := by
        refine microOk_congr rfl fun y mode hg => ?_
        have hy : y < s.slots.length := (h.withArbitration p s.schedule s.fresh).held_lt hf hg
        have hheld : (y, mode) ∈ (s.port p).holds := by simpa [Port.holds, hb] using hg
        unfold State.keyCount
        rw [slot_modifySlot]
        split
        next hyx =>
          obtain ⟨rfl, -⟩ := hyx
          obtain hk | ⟨hr, hw⟩ := hk
          · rw [hk]
          · exact absurd hheld (h.not_mem_holds_of_idle hy hr hw)
        next => rfl
      rw [hb] at hport
      simpa only [hm] using hport

/-- New words for a slot, canonical and with clear padding, keep the invariant. -/
theorem State.Sound.modifyBits (h : s.Sound) {bits : Memory} (hwf : Memory.wf bits = true)
    (hp : (s.slot x).st = .valid → PaddingClear (s.slot x).m bits)
    (hx : x < s.slots.length) (hf : f (s.slot x) = { s.slot x with bits := bits })
    (hrd : ∀ u, (f u).rd = u.rd) (hwr : ∀ u, (f u).wr = u.wr) : (s.modifySlot x f).Sound := by
  refine h.modifySlot hrd hwr (by rw [hf]) (fun _ => by rw [hf]; exact hwf) (fun _ => ?_)
    (fun _ => by rw [hf]; exact h.guard x hx) (.inl (by rw [hf]))
  rw [hf]
  exact (filterOk_iff hwf).2 fun hv => (h.filter_of_valid hx hv).withBits (hp hv)

theorem State.Sound.counterInc (h : s.Sound) (x : Nat) : (s.counterInc x).Sound :=
  h.modifySlot (fun _ => rfl) (fun _ => rfl) Iff.rfl (h.memory x) (h.filter x) (h.guard x)
    (.inl rfl)

/-- A set step sets a bit below the bit count, so the padding stays clear (R25, R115). -/
theorem State.Sound.setTarget (h : s.Sound) (hx : x < s.slots.length)
    (hv : (s.slot x).st = .valid) (hash : Word) (i : Nat) : (s.setTarget x hash i).Sound := by
  have hpad : PaddingClear (s.slot x).m ((s.setTarget x hash i).slot x).bits := by
    intro b hb
    have hfilter := h.filter_of_valid hx hv
    have hlegal := h.legal
    simp only [Config.legal, decide_eq_true_eq] at hlegal
    have hlt : s.target x hash i < (s.slot x).m.toNat :=
      bitIndex_lt _ _ (by have := hfilter.minM; omega)
    have hset : (s.setTarget x hash i).bit x b = false := by
      rw [bit_setTarget h.memoryWf hx, Bool.or_eq_false_iff]
      exact ⟨hfilter.padding b hb, by simp; omega⟩
    exact hset
  have hslot : ((s.setTarget x hash i).slot x).bits = Memory.store (s.slot x).bits
      (bitWord (s.target x hash i)) (s.wordLoad x (bitWord (s.target x hash i)) |||
        bitMask (s.target x hash i)) := by
    simp [State.setTarget, State.wordOr, State.wordStore, hx]
  rw [hslot] at hpad
  exact h.modifyBits (store_wf _ _ (h.memory x hx)) (fun _ => hpad) hx rfl (fun _ => rfl)
    (fun _ => rfl)

/-- A `FREE` slot filled with a filter that meets R22 to R25 (R100, R101, R135, R136). -/
theorem State.Sound.fillSlot (h : s.Sound) (hst : (s.slot x).st = .free) {m : Word} {k : KeyCount}
    {keys : List Word} {bits : Memory} (n : Word) (hwf : Memory.wf bits = true)
    (hfilter : FilterOk s.cfg m k keys bits) : (s.fillSlot x m k keys bits n).Sound := by
  have hidle : (s.slot x).wr = none ∧ (s.slot x).rd = 0 := by
    by_cases hx : x < s.slots.length
    · obtain ⟨-, hv | hidle⟩ := guardOk_iff.1 (h.guard x hx)
      · simp [hst] at hv
      · exact hidle
    · simp [slot_of_ge _ _ (Nat.le_of_not_lt hx), Slot.reset]
  refine h.modifySlot (fun _ => rfl) (fun _ => rfl) (by simp [hst]) (fun _ => hwf)
    (fun _ => (filterOk_iff hwf).2 fun _ => hfilter) (fun _ => ?_) (.inr hidle.symm)
  exact guardOk_iff.2 ⟨.inl hidle.1, .inl rfl⟩

/-- A `VALID` slot nobody holds may be freed, whatever its fields become (R102). -/
theorem State.Sound.freeSlot (h : s.Sound) (hst : (s.slot x).st = .valid)
    (hw : (s.slot x).wr = none) (hr : (s.slot x).rd = 0) : (s.freeSlot x).Sound := by
  refine h.modifySlot (fun _ => rfl) (fun _ => rfl) (by simp [hst]) (fun _ => ofList_wf _)
    (fun _ => by simp [Slot.filterOk]) (fun _ => ?_) (.inr ⟨hr, hw⟩)
  exact guardOk_iff.2 ⟨.inl hw, .inr ⟨hw, hr⟩⟩

/-! ## The end of a command -/

/-- A port after its command ended (R14). -/
theorem portOk_respond {c : Command} {p : Port} (r : List Response) (hn : p.nextCommand = some c) :
    t.portOk { p with busy := none, pc := p.pc + 1, resp := r } = true := by
  obtain ⟨hpc, -⟩ := List.getElem?_eq_some_iff.1 hn
  simpa [State.portOk] using hpc

/-- A port with the command at its index in flight (R29). -/
theorem portOk_inFlight {c : Command} {p : Port} (hn : p.nextCommand = some c)
    (hd : (decode c).toOption = some mu.cmd) (hm : t.microOk mu = true) :
    t.portOk { p with busy := some mu } = true := by
  obtain ⟨hpc, -⟩ := List.getElem?_eq_some_iff.1 hn
  have hn' : Port.nextCommand { p with busy := some mu } = some c := hn
  simp [State.portOk, hn', hd, hm, hpc.le]

/-- The command in flight is the one at the port's index (R29). -/
theorem State.Sound.nextCommand (h : s.Sound) (hf : s.inFlight = some mu) :
    ∃ c, (s.port s.turn).nextCommand = some c ∧ (decode c).toOption = some mu.cmd := by
  have hp := h.port s.turn (turn_lt_of_inFlight _ hf)
  have hb : (s.port s.turn).busy = some mu := hf
  simp only [State.portOk, hb, Bool.and_eq_true] at hp
  cases hn : (s.port s.turn).nextCommand with
  | none => simp [hn] at hp
  | some c => exact ⟨c, rfl, by simpa [hn] using hp.2.1⟩

/-- A failure keeps the invariant, whatever it answers: the guards and the reservation given up are
exactly those the command had (R14). -/
theorem State.Sound.fail (h : s.Sound) (hf : s.inFlight = some mu) (st : Status) (v : Word) :
    (s.fail st v).Sound := by
  have hturn := turn_lt_of_inFlight _ hf
  have hslot := slot_fail hf st v
  obtain ⟨c, hn, -⟩ := h.nextCommand hf
  refine sound_of_local h hturn
    { s.port s.turn with
      busy := none, pc := (s.port s.turn).pc + 1
      resp := (s.port s.turn).resp ++ [{ status := st, result := v }] }
    ?_ (by simp) (by simp) ?_ ?_ ?_ ?_ ?_ ?_ ?_ (portOk_respond _ hn)
  · rw [State.fail, State.respond, modifyPort_ports (by simpa using hturn)]
    simp
  · intro x hx
    rw [hslot]
    exact h.memory x hx
  · intro x hx
    rw [hslot]
    refine (filterOk_iff (by exact h.memory x hx)).2 fun hv => h.filter_of_valid hx ?_
    by_cases hr : mu.reserved = some x
    · simp [hr] at hv
    · simpa [hr] using hv
  · intro x hx
    obtain ⟨hex, hidle⟩ := guardOk_iff.1 (h.guard x hx)
    rw [hslot, guardOk_iff]
    by_cases hr : mu.reserved = some x
    · obtain ⟨hw, hrd⟩ := hidle.resolve_left (by simp [h.st_of_reserved hf hr])
      simp [hw, hrd]
    · simp only [hr, if_false]
      refine ⟨hex.imp (fun hw => by simp [hw]) (fun hrd => by simp [hrd]),
        hidle.imp id fun hi => by simp [hi.1, hi.2]⟩
  · intro x hx
    have hle := h.count_shared_le hx s.turn
    rw [holds_of_inFlight hf] at hle ⊢
    rw [hslot]
    simp only [Port.holds, List.count_nil]
    omega
  · intro x hx
    rw [hslot]
    by_cases hg : (x, Mode.exclusive) ∈ mu.held
    · have hw := h.wr_of_mem_holds hx (by rwa [holds_of_inFlight hf] : _ ∈ (s.port s.turn).holds)
      simp [Port.holds, hg, hw, eq_comm]
    · have hc := (h.holders x hx).exclusive s.turn hturn
      rw [holds_of_inFlight hf, List.count_eq_zero.2 hg] at hc
      simpa [Port.holds, hg] using hc
  · intro x hx
    rw [hslot, reserves_of_inFlight hf]
    by_cases hr : mu.reserved = some x
    · simp [hr, h.st_of_reserved hf hr, Port.reserves]
    · simp [hr, Port.reserves]
  · intro q hq x m hg
    simp [State.keyCount, hslot]

/-- A command without a reservation ends in success as in failure, but for what it answers (R14). -/
theorem State.Sound.finish (h : s.Sound) (hf : s.inFlight = some mu) {i : Instr}
    (hi : mu.cmd = i) (hb : reservesSlot i = false) (st : Status) (v : Word) :
    (s.finish st v).Sound := by
  have hr := reserved_eq_none_of_microOk (h.microOk hf) (hi ▸ hb)
  have heq : s.finish st v = s.fail st v := by
    rw [State.finish, State.fail, freeReserved_of_none ((releaseGuards_inFlight s).trans hf) hr]
  rw [heq]
  exact h.fail hf st v

/-- Filling the reserved slot at the end of a command is filling it after it was given up. -/
theorem fillSlot_finish (hf : s.inFlight = some mu) (hr : mu.reserved = some x) (m : Word)
    (k : KeyCount) (keys : List Word) (bits : Memory) (n : Word) :
    (s.fillSlot x m k keys bits n).finish st v = (s.fail st v).fillSlot x m k keys bits n := by
  refine state_ext (by simp) ?_ (by simp) (by simp) (by simp) (by simp) fun y => ?_
  · simp [State.finish, State.fail, State.respond, State.modifyPort]
  · rw [finish_slot, slot_releaseGuards (s := s.fillSlot x m k keys bits n) hf]
    simp only [State.fillSlot, slot_modifySlot, slot_fail hf, fail_slots,
      freeReserved_slots_length, releaseGuards_slots_length, hr]
    by_cases hyx : y = x
    · subst hyx
      by_cases hy : y < s.slots.length
      · simp [hy]
      · simp [hy, slot_of_ge _ _ (Nat.le_of_not_lt hy), Slot.reset]
    · simp [hyx, Ne.symm hyx]

/-! ## A command that goes on -/

/-- A command that goes on keeps the invariant where its new micro-state is one of its pseudocode
and the one slot it changes agrees with the guards and the reservation it now has. -/
theorem State.Sound.goesOn (h : s.Sound) (hf : s.inFlight = some mu) (hcmd : mu'.cmd = mu.cmd)
    (hmicro : s.microOk mu' = true) (hbits : (f (s.slot x)).bits = (s.slot x).bits)
    (hk : (f (s.slot x)).k = (s.slot x).k)
    (hfilter : x < s.slots.length → (f (s.slot x)).filterOk s.cfg = true)
    (hguard : x < s.slots.length → (f (s.slot x)).guardOk = true)
    (hrd : x < s.slots.length → (f (s.slot x)).rd + mu.held.count (x, .shared) =
      (s.slot x).rd + mu'.held.count (x, .shared))
    (hwr : x < s.slots.length →
      mu'.held.count (x, .exclusive) = (if (f (s.slot x)).wr = some s.turn then 1 else 0) ∧
      ∀ q, q ≠ s.turn → ((f (s.slot x)).wr = some q ↔ (s.slot x).wr = some q))
    (hres : x < s.slots.length →
      (if (f (s.slot x)).st = .reserved then 1 else 0) +
          (if mu.reserved = some x then 1 else 0) =
        (if (s.slot x).st = .reserved then 1 else 0) + (if mu'.reserved = some x then 1 else 0))
    (hheld : ∀ y mode, y ≠ x → mu'.held.count (y, mode) = mu.held.count (y, mode))
    (hother : ∀ y, y ≠ x → (mu'.reserved = some y ↔ mu.reserved = some y)) :
    ((s.modifySlot x f).setInFlight mu').Sound := by
  have hturn := turn_lt_of_inFlight _ hf
  have hkeys : ∀ y, (s.modifySlot x f).keyCount y = s.keyCount y := by
    intro y
    unfold State.keyCount
    rw [slot_modifySlot]
    split
    next hyx => rw [hk, hyx.1]
    next => rfl
  obtain ⟨c, hn, hd⟩ := h.nextCommand hf
  refine sound_of_local h hturn { s.port s.turn with busy := some mu' }
    ?_ rfl (by simp) ?_ ?_ ?_ ?_ ?_ ?_ ?_ ?_
  · rw [State.setInFlight, modifySlot_turn, modifyPort_ports (s := s.modifySlot x f) hturn]
    rfl
  · exact fun y hy => slot_modifySlot_of hy (fun u => Memory.wf u.bits = true)
      (fun _ => h.memory y hy) fun he => by rw [hbits]; exact h.memory x (he ▸ hy)
  · exact fun y hy => slot_modifySlot_of hy (fun u => u.filterOk s.cfg = true)
      (fun _ => h.filter y hy) fun he => hfilter (he ▸ hy)
  · exact fun y hy => slot_modifySlot_of hy (fun u => u.guardOk = true) (fun _ => h.guard y hy)
      fun he => hguard (he ▸ hy)
  · rw [holds_of_inFlight hf]
    refine fun y hy => slot_modifySlot_of hy (fun u => u.rd + _ = _ + mu'.held.count (y, .shared))
      (fun hne => by rw [hheld y _ hne]) ?_
    rintro rfl
    exact hrd hy
  · refine fun y hy => slot_modifySlot_of hy (fun u => mu'.held.count (y, .exclusive) =
      (if u.wr = some s.turn then 1 else 0) ∧
        ∀ q, q ≠ s.turn → (u.wr = some q ↔ (s.slot y).wr = some q)) (fun hne => ?_) ?_
    · have hc := (h.holders y hy).exclusive s.turn hturn
      rw [holds_of_inFlight hf] at hc
      exact ⟨(hheld y _ hne).trans hc, fun _ _ => Iff.rfl⟩
    · rintro rfl
      exact hwr hy
  · rw [reserves_of_inFlight hf]
    refine fun y hy => slot_modifySlot_of hy (fun u => (if u.st = .reserved then 1 else 0) + _ =
      _ + (if mu'.reserved = some y then 1 else 0)) (fun hne => by simp only [hother y hne]) ?_
    rintro rfl
    exact hres hy
  · exact fun q hq y m hg => hkeys y
  · refine portOk_inFlight hn (hcmd ▸ hd) ?_
    exact (microOk_congr (s := s) (by exact rfl) fun y _ _ => hkeys y).trans hmicro

/-- A micro-step that changes no slot keeps the invariant where the guards and the reservation stay.
-/
theorem State.Sound.setInFlight (h : s.Sound) (hf : s.inFlight = some mu) (hcmd : mu'.cmd = mu.cmd)
    (hheld : mu'.held = mu.held) (hres : mu'.reserved = mu.reserved)
    (hmicro : s.microOk mu' = true) : (s.setInFlight mu').Sound := by
  have hid : s.modifySlot s.slots.length id = s := by
    simp [State.modifySlot]
  have ho : ¬ s.slots.length < s.slots.length := by simp
  rw [← hid]
  exact h.goesOn hf hcmd hmicro rfl rfl (absurd · ho) (absurd · ho) (absurd · ho) (absurd · ho)
    (absurd · ho) (by simp [hheld]) (by simp [hres])

/-- A granted shared acquisition (R51). -/
theorem State.Sound.acquireShared (h : s.Sound) (hf : s.inFlight = some mu)
    (hw : (s.slot x).wr = none) (hv : (s.slot x).st = .valid) {ph : Phase}
    (hmicro : s.microOk { mu with held := mu.held ++ [(x, .shared)], phase := ph } = true) :
    ((s.modifySlot x fun u => { u with rd := u.rd + 1 }).setInFlight
      { mu with held := mu.held ++ [(x, .shared)], phase := ph }).Sound := by
  refine h.goesOn hf rfl hmicro rfl rfl (h.filter x) (fun _ => guardOk_iff.2 ⟨.inl hw, .inl hv⟩)
    (fun _ => ?_) (fun hx => ?_) (fun _ => rfl) (fun y mode hy => ?_) (fun _ _ => Iff.rfl)
  · simp only [List.count_append, List.count_singleton_self]; omega
  · have hc := (h.holders x hx).exclusive s.turn (turn_lt_of_inFlight _ hf)
    rw [holds_of_inFlight hf] at hc
    simpa [List.count_append, List.count_cons] using hc
  · simp [List.count_append, Ne.symm hy]

/-- A granted exclusive acquisition (R52). -/
theorem State.Sound.acquireExclusive (h : s.Sound) (hf : s.inFlight = some mu)
    (hw : (s.slot x).wr = none) (hr : (s.slot x).rd = 0) (hv : (s.slot x).st = .valid) {ph : Phase}
    (hmicro : s.microOk { mu with held := mu.held ++ [(x, .exclusive)], phase := ph } = true) :
    ((s.modifySlot x fun u => { u with wr := some s.turn }).setInFlight
      { mu with held := mu.held ++ [(x, .exclusive)], phase := ph }).Sound := by
  refine h.goesOn hf rfl hmicro rfl rfl (h.filter x) (fun _ => guardOk_iff.2 ⟨.inr hr, .inl hv⟩)
    (fun _ => ?_) (fun hx => ⟨?_, fun q hq => ?_⟩) (fun _ => rfl) (fun y mode hy => ?_)
    (fun _ _ => Iff.rfl)
  · simp [List.count_append]
  · have hc := (h.holders x hx).exclusive s.turn (turn_lt_of_inFlight _ hf)
    rw [holds_of_inFlight hf, hw] at hc
    simpa [List.count_append] using hc
  · simp [hw, Ne.symm hq]
  · simp [List.count_append, Ne.symm hy]

/-- A granted reservation (R63). -/
theorem State.Sound.reserve (h : s.Sound) (hf : s.inFlight = some mu) (hst : (s.slot x).st = .free)
    (hr : mu.reserved = none)
    (hmicro : s.microOk { mu with reserved := some x, phase := .acquire } = true) :
    ((s.modifySlot x fun u => { u with st := .reserved }).setInFlight
      { mu with reserved := some x, phase := .acquire }).Sound := by
  refine h.goesOn hf rfl hmicro rfl rfl (fun _ => by simp [Slot.filterOk]) (fun hx => ?_)
    (fun _ => rfl) (fun hx => ⟨?_, fun _ _ => Iff.rfl⟩) (fun _ => by simp [hst, hr])
    (fun _ _ _ => rfl) (fun y hy => by simp [hr, Ne.symm hy])
  · obtain ⟨hex, hv | hidle⟩ := guardOk_iff.1 (h.guard x hx)
    · simp [hst] at hv
    · exact guardOk_iff.2 ⟨hex, .inr hidle⟩
  · have hc := (h.holders x hx).exclusive s.turn (turn_lt_of_inFlight _ hf)
    rwa [holds_of_inFlight hf] at hc

end Sys2Proof.Machine
end

section
/-! Every step keeps the invariant (R21 to R30): the loops over keys, the commands that take
exclusive guards, then all sixteen commands, a port's micro-step and a step. -/

namespace Sys2Proof.Machine

variable {s t : State} {mu nu : MicroState} {x : Nat} {ph : Phase} {phases : List Phase}

/-! ## Loops over the keys -/

theorem loopPhase_cases {i : Nat} (hph : ph ∈ phases) (hi : i ≤ s.keyCount x) :
    (s.loopPhase x i ph ∈ phases ∧ i < s.keyCount x) ∨
      (s.loopPhase x i ph = .body ∧ i = s.keyCount x) := by
  unfold State.loopPhase
  split
  next h => exact .inl ⟨hph, h⟩
  next h => exact .inr ⟨rfl, by omega⟩

/-- Before its acquisition a loop holds nothing and is at its first key. -/
theorem loopOk_acquire (h : s.loopOk mu x phases = true) (hp : mu.phase = .acquire)
    (hin : .acquire ∉ phases) : mu.reserved = none ∧ mu.held = [] ∧ mu.pos = 0 := by
  obtain ⟨hr, ⟨-, h0, hpos⟩ | ⟨-, ⟨hm, -⟩ | ⟨hb, -⟩⟩⟩ := loopOk_iff.1 h
  · exact ⟨hr, h0, hpos⟩
  · exact absurd (hp ▸ hm) hin
  · simp [hp] at hb

/-- After its acquisition a loop holds its slot in shared mode. -/
theorem loopOk_acquired (h : s.loopOk mu x phases = true) (hp : mu.phase ≠ .acquire) :
    mu.reserved = none ∧ mu.held = [(x, .shared)] ∧ mu.pos ≤ s.keyCount x := by
  obtain ⟨hr, ⟨ha, -⟩ | ⟨hh, ⟨-, hlt⟩ | ⟨-, he⟩⟩⟩ := loopOk_iff.1 h
  · exact absurd ha hp
  · exact ⟨hr, hh, hlt.le⟩
  · exact ⟨hr, hh, he.le⟩

theorem loopOk_pos_lt (h : s.loopOk mu x phases = true) (hp : mu.phase ≠ .acquire)
    (hb : mu.phase ≠ .body) : mu.pos < s.keyCount x := by
  obtain ⟨-, ⟨ha, -⟩ | ⟨-, ⟨-, hlt⟩ | ⟨he, -⟩⟩⟩ := loopOk_iff.1 h
  · exact absurd ha hp
  · exact hlt
  · exact absurd he hb

/-- A loop that holds its slot is in order where its phase is the one its position asks for. -/
theorem loopOk_of_loopPhase (hr : nu.reserved = none) (hh : nu.held = [(x, .shared)])
    (hpos : nu.pos ≤ s.keyCount x) (hph : ph ∈ phases)
    (hphase : nu.phase = s.loopPhase x nu.pos ph) :
    s.loopOk nu x phases = true := by
  refine loopOk_iff.2 ⟨hr, .inr ⟨hh, ?_⟩⟩
  rw [hphase]
  exact loopPhase_cases hph hpos

/-- The acquisition of a loop over keys keeps the invariant, granted or failed. -/
theorem State.Sound.sharedAcquisition (h : s.Sound) (hf : s.inFlight = some mu)
    (hok : s.loopOk mu x phases = true)
    (hmicro : ∀ {nu}, nu.cmd = mu.cmd → s.loopOk nu x phases = true → s.microOk nu = true)
    (hp : mu.phase = .acquire) (hin : .acquire ∉ phases) (hph : ph ∈ phases)
    (hw : (s.slot x).wr = none)
    (ht : ((s.slot x).st ≠ .valid ∧ t = s.fail .badSlot 0#64) ∨
      ((s.slot x).st = .valid ∧ t = (s.modifySlot x fun u => { u with rd := u.rd + 1 }).setInFlight
        { mu with held := mu.held ++ [(x, .shared)], phase := s.loopPhase x mu.pos ph })) :
    t.Sound := by
  obtain ⟨hr, h0, hpos⟩ := loopOk_acquire hok hp hin
  obtain ⟨-, rfl⟩ | ⟨hv, rfl⟩ := ht
  · exact h.fail hf ..
  · exact h.acquireShared hf hw hv
      (hmicro rfl (loopOk_of_loopPhase hr (by simp [h0]) (by simp [hpos]) hph rfl))

/-- A micro-step inside a loop over keys changes no slot, or sets the bit of a key. -/
theorem State.Sound.setStep (h : s.Sound) (hf : s.inFlight = some mu)
    (hheld : mu.held = [(x, .shared)]) {hash : Word} {i : Nat} (hcmd : nu.cmd = mu.cmd)
    (hh : nu.held = mu.held) (hr : nu.reserved = mu.reserved) (hmicro : s.microOk nu = true) :
    ((s.setTarget x hash i).setInFlight nu).Sound := by
  have hg : (x, Mode.shared) ∈ mu.held := by simp [hheld]
  have hs := h.setTarget (h.held_lt hf hg) (h.valid_of_held hf hg) hash i
  refine hs.setInFlight (mu := mu) hf hcmd hh hr
    ((microOk_congr (s := s) (by exact rfl) fun y _ _ => ?_).trans hmicro)
  exact congrArg BitVec.toNat (wordOr_fields s x _ y _).2.2.1

/-! ## Commands that take exclusive guards -/

/-- The body of a command that takes exclusive guards holds its whole lock order. -/
theorem exclusiveOk_body {dest : Option Nat} {order : List Nat}
    (h : exclusiveOk mu dest order = true) (hp : mu.phase = .body) :
    mu.reserved = dest ∧ mu.held = order.map fun x => (x, Mode.exclusive) := by
  obtain ⟨-, ⟨hr, -⟩ | ⟨hd, ⟨ha, -⟩ | ⟨-, hh⟩⟩⟩ := exclusiveOk_iff.1 h
  · simp [hp] at hr
  · simp [hp] at ha
  · exact ⟨hd, hh⟩

theorem exclusiveOk_reserve {dest : Option Nat} {order : List Nat}
    (h : exclusiveOk mu dest order = true) (hp : mu.phase = .reserve) :
    mu.pos = 0 ∧ mu.held = [] ∧ mu.reserved = none := by
  obtain ⟨h0, ⟨-, -, hh, hr⟩ | ⟨-, ⟨ha, -⟩ | ⟨hb, -⟩⟩⟩ := exclusiveOk_iff.1 h
  · exact ⟨h0, hh, hr⟩
  · simp [hp] at ha
  · simp [hp] at hb

/-- After the reservation a command that takes exclusive guards is at its first guard. -/
theorem exclusiveOk_reserved {order : List Nat} (h : exclusiveOk mu (some x) order = true)
    (hp : mu.phase = .reserve) (ho : order ≠ []) :
    exclusiveOk { mu with reserved := some x, phase := .acquire } (some x) order = true := by
  obtain ⟨hpos, hh, -⟩ := exclusiveOk_reserve h hp
  exact exclusiveOk_iff.2 ⟨hpos, .inr ⟨rfl, .inl ⟨rfl, by simpa [hh, List.length_pos_iff] using ho,
    by simp [hh]⟩⟩⟩

/-- After one more guard a command that takes exclusive guards is at the next one or at its body. -/
theorem exclusiveOk_next {dest : Option Nat} {order : List Nat}
    (h : exclusiveOk mu dest order = true) (hp : mu.phase = .acquire)
    (hx : order[mu.held.length]? = some x) :
    exclusiveOk { mu with
      held  := mu.held ++ [(x, .exclusive)]
      phase := if mu.held.length + 1 = order.length then .body else .acquire } dest order =
    true := by
  obtain ⟨hpos, ⟨hr, -⟩ | ⟨hd, ⟨-, hlt, hh⟩ | ⟨hb, -⟩⟩⟩ := exclusiveOk_iff.1 h
  · simp [hp] at hr
  · have hnext : mu.held ++ [(x, Mode.exclusive)] =
        (order.take (mu.held.length + 1)).map fun x => (x, Mode.exclusive) := by
      rw [List.take_add_one, hx, List.map_append, ← hh]
      rfl
    refine exclusiveOk_iff.2 ⟨hpos, .inr ⟨hd, ?_⟩⟩
    by_cases hlast : mu.held.length + 1 = order.length
    · refine .inr ⟨by simp [hlast], ?_⟩
      rw [hlast, List.take_length] at hnext
      exact hnext
    · exact .inl ⟨by simp [hlast], by simp; omega, by simpa using hnext⟩
  · simp [hp] at hb

/-- A command that takes exclusive guards keeps the invariant where its body does (R56, R58, R63).
-/
theorem State.Sound.exclusiveSteps (h : s.Sound) (hf : s.inFlight = some mu) {i : Instr}
    {dest : Option SlotNum} {order : List Nat} {body : Result}
    (hok : exclusiveOk mu (dest.map BitVec.toNat) order = true)
    (hmicro : ∀ {nu}, nu.cmd = mu.cmd → exclusiveOk nu (dest.map BitVec.toNat) order = true →
      s.microOk nu = true)
    (ho : order ≠ []) (he : s.exclusiveSteps i dest order body = .next t)
    (hbody : mu.reserved = dest.map BitVec.toNat →
      mu.held = order.map (fun x => (x, Mode.exclusive)) → body = .next t → t.Sound) : t.Sound := by
  obtain ⟨hp, sd, rfl, ⟨-, rfl⟩ | ⟨hst, rfl⟩⟩ |
      ⟨hp, x, hx, hw, hr, ⟨-, rfl⟩ | ⟨hv, rfl⟩⟩ | ⟨hp, hb⟩ := exclusiveSteps_next hf he
  · exact h.fail hf ..
  · obtain ⟨-, -, hr⟩ := exclusiveOk_reserve hok hp
    exact h.reserve hf hst hr (hmicro rfl (exclusiveOk_reserved hok hp ho))
  · exact h.fail hf ..
  · exact h.acquireExclusive hf hw hr hv (hmicro rfl (exclusiveOk_next hok hp hx))
  · obtain ⟨hd, hh⟩ := exclusiveOk_body hok hp
    exact hbody hd hh hb

theorem lockList_ne_nil (s : State) (sa sb : SlotNum) : s.lockList sa sb ≠ [] :=
  List.ne_nil_of_mem (mem_lockOrder.2 (.inl rfl))

/-- The two operands of a two-filter command at its body are held, so they exist and are `VALID`. -/
theorem State.Sound.operands_of_lockList (h : s.Sound) (hf : s.inFlight = some mu) {sa sb : SlotNum}
    (hh : mu.held = (s.lockList sa sb).map fun x => (x, Mode.exclusive)) :
    ((sa.toNat, Mode.exclusive) ∈ mu.held ∧ (sb.toNat, Mode.exclusive) ∈ mu.held) ∧
      (s.slot sa.toNat).st = .valid ∧ (s.slot sb.toNat).st = .valid := by
  have hmem : ∀ x ∈ s.lockList sa sb, (x, Mode.exclusive) ∈ mu.held := fun x hx => by
    rw [hh]; exact List.mem_map_of_mem hx
  have ha := hmem sa.toNat (mem_lockOrder.2 (.inl rfl))
  have hb := hmem sb.toNat (mem_lockOrder.2 (.inr rfl))
  exact ⟨⟨ha, hb⟩, h.valid_of_held hf ha, h.valid_of_held hf hb⟩

/-- The end of a `COPY` or `UNION` that fills the slot it reserved (R135, R136). -/
theorem State.Sound.fillReserved (h : s.Sound) (hf : s.inFlight = some mu)
    (hr : mu.reserved = some x) {m : Word} {k : KeyCount} {keys : List Word} {bits : Memory}
    (n : Word) (hwf : Memory.wf bits = true) (hfilter : FilterOk s.cfg m k keys bits) (st : Status)
    (v : Word) :
    ((s.fillSlot x m k keys bits n).finish st v).Sound := by
  rw [fillSlot_finish hf hr]
  refine (h.fail hf st v).fillSlot ?_ n hwf (by simpa using hfilter)
  rw [slot_fail hf, if_pos hr]

/-- The merge of two compatible filters of a sound state is a filter with clear padding (R134,
R135). -/
theorem State.Sound.padding_merge (h : s.Sound) (hf : s.inFlight = some mu) {sa sb : SlotNum}
    (hh : mu.held = (s.lockList sa sb).map fun x => (x, Mode.exclusive))
    (hc : s.compat sa sb = 0#64) :
    PaddingClear (s.slot sa.toNat).m (mergeWords (wordCount (s.slot sa.toNat).m)
      (s.slot sa.toNat).bits (s.slot sb.toNat).bits) := by
  obtain ⟨⟨ha, hb⟩, hva, hvb⟩ := h.operands_of_lockList hf hh
  have hm := compatMask_eq_zero_m hc
  have hpb := (h.filter_of_valid (h.held_lt hf hb) hvb).padding
  rw [← hm] at hpb
  exact paddingClear_mergeWords _ (h.filter_of_valid (h.held_lt hf ha) hva).padding hpb

/-! ## Every command -/

/-- The key count of a `CREATE` that passed the checks is the length of its key list (R100). -/
theorem toNat_keyCount {cfg : Config} (hlegal : cfg.legal = true) {keys : List Word}
    (hk : keys.length ≤ cfg.maxK) : (BitVec.ofNat 32 keys.length).toNat = keys.length := by
  simp only [Config.legal, decide_eq_true_eq] at hlegal
  rw [BitVec.toNat_ofNat, Nat.mod_eq_of_lt (by omega)]

/-- A body that needs compatible filters keeps the invariant where it does so for compatible ones.
-/
theorem State.Sound.compatibleBody (h : s.Sound) (hf : s.inFlight = some mu) {mask : Word}
    {u : State}
    (he : (if mask ≠ 0#64 then .next (s.fail .incompatible mask) else .next u : Result) = .next t)
    (hu : mask = 0#64 → u.Sound) : t.Sound := by
  split at he <;> obtain rfl := Host.Outcome.next.inj he
  · exact h.fail hf ..
  · exact hu (not_not.1 ‹_›)

/-- The next micro-step of the command in flight keeps the invariant. -/
theorem sound_of_exec (h : s.Sound) (hf : s.inFlight = some mu) {i : Instr} (hi : mu.cmd = i)
    (he : exec i s = .next t) : t.Sound := by
  have hok := h.microOk hf
  rw [State.microOk, Bool.and_eq_true, hi] at hok
  obtain ⟨hbelow, hok⟩ := hok
  cases i with
  | create sd m keys =>
    obtain ⟨-, ⟨status, -, rfl⟩ | ⟨hst, hk, hm, hn, hk', hm', rfl⟩⟩ := execCreate_next hf he
    · exact h.fail hf ..
    · have hlen := toNat_keyCount h.legal hk'
      exact (h.fillSlot hst _ zero_wf ⟨hm, hm', hlen.symm ▸ hk, hlen.symm ▸ hk', hlen.symm, hn,
        paddingClear_zero m⟩).finish hf hi rfl ..
  | newcompat sd sa =>
    obtain ⟨-, ⟨-, rfl⟩ | ⟨-, -, rfl⟩ | ⟨hst, hv, rfl⟩⟩ := execNewcompat_next hf he
    · exact h.fail hf ..
    · exact h.fail hf ..
    · have hsrc := h.filter_of_valid (h.slot_lt hf (n := sa) (by simp [hi, Instr.slots])) hv
      exact (h.fillSlot hst _ zero_wf (hsrc.withBits (paddingClear_zero _))).finish hf hi rfl ..
  | release sa =>
    obtain ⟨-, hw, hrd, ⟨-, rfl⟩ | ⟨hv, rfl⟩⟩ := execRelease_next hf he
    · exact h.fail hf ..
    · exact (h.freeSlot hv hw hrd).finish hf hi rfl ..
  | add sa hash =>
    have hmicro : ∀ {nu}, nu.cmd = mu.cmd → s.loopOk nu sa.toNat [.set] = true →
        s.microOk nu = true := fun hn hnu => by simp [State.microOk, hn, hi, hbelow, hnu]
    obtain ⟨hp, hw, ht⟩ | ⟨hp, rfl⟩ | ⟨hp, rfl⟩ := execAdd_next hf he
    · exact h.sharedAcquisition hf hok hmicro hp (by decide) (by simp) hw ht
    · obtain ⟨hr, hh, -⟩ := loopOk_acquired hok (by simp [hp])
      have hlt := loopOk_pos_lt hok (by simp [hp]) (by simp [hp])
      exact h.setStep hf hh rfl rfl rfl (hmicro rfl (loopOk_of_loopPhase hr hh hlt (by simp) rfl))
    · exact (h.counterInc _).finish hf hi rfl ..
  | addc sa hash =>
    have hmicro : ∀ {nu}, nu.cmd = mu.cmd → s.loopOk nu sa.toNat [.load, .set] = true →
        s.microOk nu = true := fun hn hnu => by simp [State.microOk, hn, hi, hbelow, hnu]
    obtain ⟨hp, hw, ht⟩ | ⟨hp, rfl⟩ | ⟨hp, rfl⟩ | ⟨hp, rfl⟩ := execAddc_next hf he
    · exact h.sharedAcquisition hf hok hmicro hp (by decide) (by simp) hw ht
    · obtain ⟨hr, hh, -⟩ := loopOk_acquired hok (by simp [hp])
      have hlt := loopOk_pos_lt hok (by simp [hp]) (by simp [hp])
      exact h.setInFlight hf rfl rfl rfl
        (hmicro rfl (loopOk_iff.2 ⟨hr, .inr ⟨hh, .inl ⟨by simp, hlt⟩⟩⟩))
    · obtain ⟨hr, hh, -⟩ := loopOk_acquired hok (by simp [hp])
      have hlt := loopOk_pos_lt hok (by simp [hp]) (by simp [hp])
      exact h.setStep hf hh rfl rfl rfl
        (hmicro rfl (loopOk_of_loopPhase hr hh hlt (ph := .load) (by simp) rfl))
    · exact (h.counterInc _).finish hf hi rfl ..
  | contains sa hash =>
    have hmicro : ∀ {nu}, nu.cmd = mu.cmd → s.loopOk nu sa.toNat [.load] = true →
        s.microOk nu = true := fun hn hnu => by simp [State.microOk, hn, hi, hbelow, hnu]
    obtain ⟨hp, hw, ht⟩ | ⟨hp, rfl⟩ | ⟨hp, rfl⟩ := execContains_next hf he
    · exact h.sharedAcquisition hf hok hmicro hp (by decide) (by simp) hw ht
    · obtain ⟨hr, hh, -⟩ := loopOk_acquired hok (by simp [hp])
      have hlt := loopOk_pos_lt hok (by simp [hp]) (by simp [hp])
      exact h.setInFlight hf rfl rfl rfl (hmicro rfl (loopOk_of_loopPhase hr hh hlt (by simp) rfl))
    · exact h.finish hf hi rfl ..
  | getm sa =>
    obtain ⟨-, ⟨-, rfl⟩ | ⟨-, rfl⟩⟩ := execGetm_next hf he
    · exact h.fail hf ..
    · exact h.finish hf hi rfl ..
  | getk sa =>
    obtain ⟨-, ⟨-, rfl⟩ | ⟨-, rfl⟩⟩ := execGetk_next hf he
    · exact h.fail hf ..
    · exact h.finish hf hi rfl ..
  | getn sa =>
    obtain ⟨-, ⟨-, rfl⟩ | ⟨-, rfl⟩⟩ := execGetn_next hf he
    · exact h.fail hf ..
    · exact h.finish hf hi rfl ..
  | getkey sa index =>
    obtain ⟨-, ⟨-, rfl⟩ | ⟨-, -, rfl⟩ | ⟨-, -, rfl⟩⟩ := execGetkey_next hf he
    · exact h.fail hf ..
    · exact h.fail hf ..
    · exact h.finish hf hi rfl ..
  | readword sa index =>
    obtain ⟨-, -, ⟨-, rfl⟩ | ⟨-, -, rfl⟩ | ⟨-, -, rfl⟩⟩ := execReadword_next hf he
    · exact h.fail hf ..
    · exact h.fail hf ..
    · exact h.finish hf hi rfl ..
  | iscompat sa sb =>
    refine h.exclusiveSteps hf (dest := none) hok
      (fun hn hnu => by simpa [State.microOk, hn, hi, hbelow] using hnu)
      (lockList_ne_nil s sa sb) he fun _ _ hb => ?_
    obtain rfl := Host.Outcome.next.inj hb
    exact h.finish hf hi rfl ..
  | verifycompat sa sb =>
    exact h.exclusiveSteps hf (dest := none) hok
      (fun hn hnu => by simpa [State.microOk, hn, hi, hbelow] using hnu)
      (lockList_ne_nil s sa sb) he fun _ _ hb =>
        h.compatibleBody hf hb fun _ => h.finish hf hi rfl ..
  | unionip sa sb =>
    refine h.exclusiveSteps hf (dest := none) hok
      (fun hn hnu => by simpa [State.microOk, hn, hi, hbelow] using hnu)
      (lockList_ne_nil s sa sb) he fun _ hh hb => h.compatibleBody hf hb fun hc => ?_
    obtain ⟨⟨ha, -⟩, -⟩ := h.operands_of_lockList hf hh
    refine State.Sound.finish (h.modifyBits (mergeWords_wf ..) (fun _ => h.padding_merge hf hh hc)
      (h.held_lt hf ha) ?_ ?_ ?_) hf hi rfl ..
    · rfl
    · exact fun _ => rfl
    · exact fun _ => rfl
  | union sd sa sb =>
    refine h.exclusiveSteps hf (dest := some sd) hok
      (fun hn hnu => by simpa [State.microOk, hn, hi, hbelow] using hnu)
      (lockList_ne_nil s sa sb) he fun hr hh hb => h.compatibleBody hf hb fun hc => ?_
    obtain ⟨⟨ha, -⟩, hva, -⟩ := h.operands_of_lockList hf hh
    exact h.fillReserved hf hr _ (mergeWords_wf ..)
      ((h.filter_of_valid (h.held_lt hf ha) hva).withBits (h.padding_merge hf hh hc)) ..
  | copy sd sa =>
    refine h.exclusiveSteps hf (dest := some sd) hok
      (fun hn hnu => by simpa [State.microOk, hn, hi, hbelow] using hnu) (by simp) he
      fun hr hh hb => ?_
    obtain rfl := Host.Outcome.next.inj hb
    have ha : (sa.toNat, Mode.exclusive) ∈ mu.held := by simp [hh]
    have hsrc := h.filter_of_valid (h.held_lt hf ha) (h.valid_of_held hf ha)
    exact h.fillReserved hf hr _ (copyWords_wf ..)
      (hsrc.withBits (paddingClear_copyWords _ hsrc.padding)) ..

/-! ## A port's micro-step, and a step -/

/-- A change of a port that holds and reserves nothing before and after keeps the invariant. -/
theorem State.Sound.modifyIdlePort (h : s.Sound) {p : Nat} (hp : p < s.ports.length)
    (hb : (s.port p).busy = none) {g : Port → Port} (hh : (g (s.port p)).holds = [])
    (hr : (g (s.port p)).reserves = none) (hok : s.portOk (g (s.port p)) = true) :
    (s.modifyPort p g).Sound := by
  have hh0 : (s.port p).holds = [] := by simp [Port.holds, hb]
  have hr0 : (s.port p).reserves = none := by simp [Port.reserves, hb]
  refine sound_of_local h hp (g (s.port p)) (modifyPort_ports hp g) rfl rfl h.memory h.filter
    h.guard (fun x _ => by simp [hh0, hh]) (fun x hx => ⟨?_, fun _ _ => Iff.rfl⟩)
    (fun x _ => by rw [hr0, hr]; rfl) (fun _ _ _ _ _ => rfl) hok
  have hc := (h.holders x hx).exclusive p hp
  rw [hh0] at hc
  rw [hh]
  exact hc

/-- A command in its initial micro-state is in order where its slots exist (R82). -/
theorem microOk_init {i : Instr} (hb : i.slotsBelow s.cfg.numSlots = true) :
    s.microOk (MicroState.init i) = true := by
  have hexcl : ∀ order, order ≠ [] →
      exclusiveOk { MicroState.init i with phase := .acquire } none order = true := fun order ho =>
    exclusiveOk_iff.2 ⟨rfl, .inr ⟨rfl, .inl ⟨rfl, List.length_pos_iff.2 ho, rfl⟩⟩⟩
  rw [State.microOk, Bool.and_eq_true]
  refine ⟨hb, ?_⟩
  cases i
  case iscompat | verifycompat | unionip => exact hexcl _ (lockList_ne_nil s _ _)
  all_goals rfl

/-- Every micro-step of a port keeps the invariant. -/
theorem State.Sound.stepPort (h : s.Sound) {p : Nat} (he : s.stepPort p = .next t) : t.Sound := by
  have h' := h.withArbitration p s.schedule s.fresh
  obtain ⟨hp, ⟨c, status, hb, hn, -, rfl⟩ | ⟨c, i, hb, hn, hd, ⟨-, rfl⟩ | ⟨hslots, rfl⟩⟩ |
      ⟨mu, hb, he⟩⟩ := stepPort_next he
  · exact h'.modifyIdlePort hp hb rfl rfl (portOk_respond _ hn)
  · exact h'.modifyIdlePort hp hb rfl rfl (portOk_respond _ hn)
  · exact h'.modifyIdlePort hp hb rfl rfl
      (portOk_inFlight hn (by simp [hd, MicroState.init, Except.toOption]) (microOk_init hslots))
  · exact sound_of_exec h' hb rfl he

/-- A step that answers is a micro-step of some port (R47). -/
theorem moves_of_step (h : step s = .next t) : Moves s t := by
  unfold step at h
  split at h
  · exact ⟨_, h⟩
  · split at h <;> simp at h

theorem State.Sound.moves (h : s.Sound) (hm : Moves s t) : t.Sound := by
  obtain ⟨p, hp⟩ := hm
  exact (h.withArbitration s.turn s.schedule.tail (s.fresh + 1)).stepPort hp

/-- Settles O44: a step is a move, and a move is a port's micro-step, which keeps every fact of the
invariant. -/
theorem stepsKeepTheInvariant : Obligations.StepsKeepTheInvariant := by
  intro s t hi
  have hmoves : Moves s t → t.inv = true := fun hm => inv_iff.2 ((inv_iff.1 hi).moves hm)
  exact ⟨fun hs => hmoves (moves_of_step hs), hmoves⟩

end Sys2Proof.Machine
end

section
/-! The state after reset meets the invariant (R34), and a command placed at port 0 is the next one
run (R82). -/

namespace Sys2Proof.Machine

variable {s : State} {cfg : Config}

/-! ## Reset -/

@[simp] theorem resetOf_slot (cfg : Config) (x : Nat) :
    (State.resetOf cfg).slot x = Slot.reset := by
  by_cases hx : x < cfg.numSlots <;> simp [State.slot, State.resetOf, List.getD, hx]

@[simp] theorem resetOf_port (cfg : Config) (p : Nat) :
    (State.resetOf cfg).port p = Port.reset := by
  by_cases hp : p < cfg.numPorts <;> simp [State.port, State.resetOf, List.getD, hp]

/-- Settles O41: every slot and every port of the reset state reads as one after reset. -/
theorem resetStateFollowsR34 : Obligations.ResetStateFollowsR34 := fun cfg =>
  ⟨rfl, List.length_replicate, List.length_replicate, fun x => by simp [Slot.reset],
    fun p => by simp [Port.reset]⟩

/-- Nobody holds or reserves anything after reset. -/
theorem resetOf_holdersOk (cfg : Config) (x : Nat) : (State.resetOf cfg).HoldersOk x where
  shared    := by
    rw [resetOf_slot]
    simp [State.resetOf, Slot.reset, Port.reset, Port.holds]
  exclusive := by simp [Slot.reset, Port.reset, Port.holds]
  holder    := by simp [Slot.reset]
  reserved  := by
    rw [resetOf_slot]
    simp [State.resetOf, List.countP_replicate, Slot.reset, Port.reset, Port.reserves]

theorem resetOf_sound (hlegal : cfg.legal = true) : (State.resetOf cfg).Sound where
  legal   := hlegal
  slots   := List.length_replicate
  ports   := List.length_replicate
  memory  := by simp [Slot.reset, Memory.wf]
  filter  := by simp [Slot.reset, Slot.filterOk]
  guard   := by simp [Slot.reset, Slot.guardOk]
  holders := fun x _ => resetOf_holdersOk cfg x
  port    := by simp [Port.reset, State.portOk]

/-- Settles O42: after reset every slot is `FREE` and idle and no port has a command in flight. -/
theorem resetMeetsTheInvariant : Obligations.ResetMeetsTheInvariant :=
  ⟨fun _ hlegal => inv_iff.2 (resetOf_sound hlegal), inv_iff.2 (resetOf_sound (by decide))⟩

/-! ## The command placed at port 0 -/

/-- The micro-step of an idle port with a decodable command is the command's issue (R82). -/
theorem stepPort_aboutTo {p : Nat} {i : Instr} (h : AboutTo s p i) :
    s.stepPort p = exec i { s with turn := p } := by
  obtain ⟨hb, hn⟩ := h
  obtain ⟨c, hc, hd⟩ := Option.bind_eq_some_iff.1 hn
  have hp : p < s.ports.length := by
    by_contra hp
    simp [port_of_ge _ _ (Nat.le_of_not_lt hp), Port.reset, Port.nextCommand] at hc
  have hok : decode c = .ok i := by
    cases hd' : decode c <;> simp_all [Except.toOption]
  simp [State.stepPort, ports_getElem? _ _ hp, hb, hc, State.issueCommand, hok]

/-- A meaning at an idle port answers (R82). -/
theorem exec_idle {i : Instr} (ht : s.turn < s.ports.length) (h : s.inFlight = none) :
    exec i s = .next (s.issue i) := by
  cases i <;> exact microStep_idle ht h _ _

theorem enabled_of_aboutTo {p : Nat} {i : Instr} (h : AboutTo s p i) : s.enabled p = true := by
  have hp : p < s.ports.length := by
    by_contra hp
    simp [AboutTo, port_of_ge _ _ (Nat.le_of_not_lt hp), Port.reset, Port.nextCommand] at h
  have he : exec i { s with turn := p } = .next (State.issue { s with turn := p } i) :=
    exec_idle hp h.1
  simp [State.enabled, stepPort_aboutTo h, he]

/-- Port 0 is picked where it is enabled and the schedule's entry is 0 (R47; log entry 3). -/
theorem pick_zero (h : s.enabled 0 = true) (hp : s.ports ≠ []) (hs : s.schedule.head? = some 0) :
    s.pick s.enabledPorts = some 0 := by
  obtain ⟨n, hn⟩ := Nat.exists_eq_add_one_of_ne_zero (mt List.length_eq_zero_iff.1 hp)
  have hhead : ∃ rest, s.enabledPorts = 0 :: rest :=
    ⟨((List.range n).map Nat.succ).filter fun p => s.enabled p,
      by simp [State.enabledPorts, hn, List.range_succ_eq_map, h]⟩
  obtain ⟨rest, hrest⟩ := hhead
  rw [hrest]
  cases rest with
  | nil => rfl
  | cons q rest => simp [State.pick, List.headD_eq_head?_getD, hs]

/-- The placed command is at port 0's index, and port 0 is idle (log entry 12). -/
theorem aboutTo_withFetchWord {nbits w : Nat} {i : Instr} (hp : s.ports ≠ [])
    (h : decodeTableWord nbits w = some i) : AboutTo (s.withFetchWord nbits w) 0 i := by
  have hport : (s.withFetchWord nbits w).port 0 =
      { s.port 0 with
        prog := (s.port 0).prog.take (s.port 0).pc ++ [commandOfBits nbits w]
        pc   := min (s.port 0).pc (s.port 0).prog.length
        busy := none } :=
    port_modifyPort_self s 0 _ (List.length_pos_iff.2 hp)
  refine ⟨by rw [hport], ?_⟩
  have hnext : ((s.withFetchWord nbits w).port 0).nextCommand = some (commandOfBits nbits w) := by
    rw [hport]
    simp [Port.nextCommand]
  rw [hnext]
  exact h

/-- Settles O11: port 0 is about to run the placed command, and the schedule's first entry picks it.
-/
theorem placedWordRunsNext : Obligations.PlacedWordRunsNext := by
  intro s nbits w i hp h
  have hab := aboutTo_withFetchWord hp h
  have hports : (s.withFetchWord nbits w).ports ≠ [] := by
    simpa [State.withFetchWord, State.modifyPort] using hp
  have hpick := pick_zero (enabled_of_aboutTo hab) hports rfl
  unfold step
  rw [hpick]
  exact stepPort_aboutTo (s := (s.withFetchWord nbits w).advance) hab

end Sys2Proof.Machine
end

section
/-! What a micro-step can make of a slot, said once over all sixteen commands (R21 to R26). From it:
the size and the keys of a filter are immutable, `n` changes as R26 says, and the lifecycle follows
R21's table. -/

namespace Sys2Proof.Machine

variable {s s' t : State} {mu : MicroState} {u : Slot} {x y : Nat} {failed : Prop} {f : Slot → Slot}

/-- `COPY` or `UNION` into slot `x`: the commands that reserve a slot (R21). -/
def Builds (i : Instr) (x : Nat) : Prop :=
  (∃ sd sa, i = .copy sd sa ∧ sd.toNat = x) ∨ ∃ sd sa sb, i = .union sd sa sb ∧ sd.toNat = x

/-- From `s` to `t` the port whose turn it is delivers a response that is not `OK`. -/
def Failed (s t : State) : Prop :=
  ∃ r, (t.port s.turn).resp = (s.port s.turn).resp ++ [r] ∧ r.status ≠ .ok

/-- What a micro-step of the command `mu` can make of slot `x` of the slots `old`: it is `u` after
the micro-step, whose guard is left open. `failed` says that the micro-step fails. -/
inductive SlotStep (old : Nat → Slot) (mu : MicroState) (failed : Prop) (x : Nat) (u : Slot) :
    Prop where
  /-- The slot stays. -/
  | kept (hst : u.st = (old x).st) (hfilter : u.sameFilter (old x))
  /-- Words change: a set step, or a merge into the slot. -/
  | written (hst : u.st = (old x).st) (hm : u.m = (old x).m) (hk : u.k = (old x).k)
      (hkeys : u.keys = (old x).keys) (hn : u.n = (old x).n)
      (hby : (∃ sa h, (mu.cmd = .add sa h ∨ mu.cmd = .addc sa h) ∧ sa.toNat = x ∧ mu.phase = .set) ∨
        ∃ sa sb, mu.cmd = .unionip sa sb ∧ sa.toNat = x ∧ mu.phase = .body)
  /-- The last step of an insertion. -/
  | counted (hst : u.st = (old x).st) (hm : u.m = (old x).m) (hk : u.k = (old x).k)
      (hkeys : u.keys = (old x).keys) (hbits : u.bits = (old x).bits)
      (hn : u.n = (old x).n + 1)
      (hby : ∃ sa h, (mu.cmd = .add sa h ∨ mu.cmd = .addc sa h) ∧ sa.toNat = x ∧ mu.phase = .body)
  /-- A new, empty filter. -/
  | created (hold : (old x).st = .free) (hst : u.st = .valid) (hn : u.n = 0)
      (hby : (∃ sd m keys, mu.cmd = .create sd m keys ∧ sd.toNat = x) ∨
        ∃ sd sa, mu.cmd = .newcompat sd sa ∧ sd.toNat = x)
  /-- The slot is reserved for a `COPY` or `UNION`. -/
  | reserved (hold : (old x).st = .free) (hst : u.st = .reserved) (hphase : mu.phase = .reserve)
      (hby : Builds mu.cmd x)
  /-- The reserved slot receives the copy of a filter. -/
  | copied (hold : (old x).st = .reserved) (hst : u.st = .valid) (hres : mu.reserved = some x)
      (hphase : mu.phase = .body) (sd sa : SlotNum) (hcmd : mu.cmd = .copy sd sa)
      (hsd : sd.toNat = x) (hn : u.n = (old sa.toNat).n)
  /-- The reserved slot receives the union of two filters. -/
  | united (hold : (old x).st = .reserved) (hst : u.st = .valid) (hres : mu.reserved = some x)
      (hphase : mu.phase = .body) (sd sa sb : SlotNum) (hcmd : mu.cmd = .union sd sa sb)
      (hsd : sd.toNat = x) (hn : u.n = 0)
  /-- The reserved slot is given up by a failure. -/
  | givenUp (hold : (old x).st = .reserved) (hst : u.st = .free) (hres : mu.reserved = some x)
      (hfailed : failed) (hby : Builds mu.cmd x)
  /-- The slot is released. -/
  | released (hold : (old x).st = .valid) (hst : u.st = .free)
      (hby : ∃ sa, mu.cmd = .release sa ∧ sa.toNat = x)

/-! ## The shared operations -/

theorem Slot.sameFilter_refl (u : Slot) : u.sameFilter u := ⟨rfl, rfl, rfl, rfl, rfl⟩

theorem SlotStep.refl : SlotStep s.slot mu failed x (s.slot x) := .kept rfl (Slot.sameFilter_refl _)

/-- `SlotStep` leaves the guard open. -/
theorem SlotStep.withGuard (h : SlotStep s.slot mu failed x u) (rd : Nat) (wr : Option Nat) :
    SlotStep s.slot mu failed x { u with rd := rd, wr := wr } := by
  cases h with
  | kept hst hfilter => exact .kept hst hfilter
  | written hst hm hk hkeys hn hby => exact .written hst hm hk hkeys hn hby
  | counted hst hm hk hkeys hbits hn hby => exact .counted hst hm hk hkeys hbits hn hby
  | created hold hst hn hby => exact .created hold hst hn hby
  | reserved hold hst hphase hby => exact .reserved hold hst hphase hby
  | copied hold hst hres hphase sd sa hcmd hsd hn =>
    exact .copied hold hst hres hphase sd sa hcmd hsd hn
  | united hold hst hres hphase sd sa sb hcmd hsd hn =>
    exact .united hold hst hres hphase sd sa sb hcmd hsd hn
  | givenUp hold hst hres hfailed hby => exact .givenUp hold hst hres hfailed hby
  | released hold hst hby => exact .released hold hst hby

theorem slotStep_modifySlot (h : SlotStep s.slot mu failed y (f (s.slot y))) (x : Nat) :
    SlotStep s.slot mu failed x ((s.modifySlot y f).slot x) := by
  rw [slot_modifySlot]
  split
  next hxy => obtain ⟨rfl, -⟩ := hxy; exact h
  next => exact .refl

/-- The end of a command that succeeds changes guards only (R53). -/
theorem slotStep_modifySlot_finish (hf : s.inFlight = some mu)
    (h : SlotStep s.slot mu failed y (f (s.slot y))) (st : Status) (v : Word) (x : Nat) :
    SlotStep s.slot mu failed x (((s.modifySlot y f).finish st v).slot x) := by
  rw [finish_slot, slot_releaseGuards (s := s.modifySlot y f) hf]
  exact (slotStep_modifySlot h x).withGuard ..

theorem slotStep_finish (hf : s.inFlight = some mu) (st : Status) (v : Word) (x : Nat) :
    SlotStep s.slot mu failed x ((s.finish st v).slot x) := by
  rw [finish_slot, slot_releaseGuards hf]
  exact SlotStep.refl.withGuard ..

theorem failed_fail (hf : s.inFlight = some mu) {st : Status} (hs : st ≠ .ok) (v : Word) :
    Failed s (s.fail st v) := by
  obtain ⟨-, -, -, -, -, -, -, hp⟩ := fail_answers (turn_lt_of_inFlight _ hf) st v
  exact ⟨_, by rw [hp], hs⟩

/-- A failure returns the slot the command reserved and leaves every other (R14). -/
theorem State.Sound.slotStep_fail (h : s.Sound) (hf : s.inFlight = some mu) {st : Status}
    (hs : st ≠ .ok) (v : Word) (x : Nat) :
    SlotStep s.slot mu (Failed s (s.fail st v)) x ((s.fail st v).slot x) := by
  rw [slot_fail hf]
  by_cases hr : mu.reserved = some x
  · exact .givenUp (h.st_of_reserved hf hr) (by simp [hr]) hr (failed_fail hf hs v)
      (reserved_slot_of_microOk (h.microOk hf) hr)
  · exact .kept (by simp [hr]) ⟨rfl, rfl, rfl, rfl, rfl⟩

theorem State.Sound.slotStep_sharedAcquisition (h : s.Sound) (hf : s.inFlight = some mu)
    {mu' : MicroState} (ht : ((s.slot y).st ≠ .valid ∧ t = s.fail .badSlot 0#64) ∨
      ((s.slot y).st = .valid ∧
        t = (s.modifySlot y fun u => { u with rd := u.rd + 1 }).setInFlight mu')) (x : Nat) :
    SlotStep s.slot mu (Failed s t) x (t.slot x) := by
  obtain ⟨-, rfl⟩ | ⟨-, rfl⟩ := ht
  · exact h.slotStep_fail hf (by decide) ..
  · exact slotStep_modifySlot (SlotStep.refl.withGuard ..) x

theorem State.Sound.slotStep_exclusiveSteps (h : s.Sound) (hf : s.inFlight = some mu) {i : Instr}
    {dest : Option SlotNum} {order : List Nat} {body : Result}
    (hdest : ∀ sd, dest = some sd → Builds mu.cmd sd.toNat)
    (he : s.exclusiveSteps i dest order body = .next t)
    (hbody : mu.phase = .body → body = .next t → SlotStep s.slot mu (Failed s t) x (t.slot x)) :
    SlotStep s.slot mu (Failed s t) x (t.slot x) := by
  obtain ⟨hp, sd, hsd, ⟨-, rfl⟩ | ⟨hst, rfl⟩⟩ | ⟨-, y, -, -, -, ⟨-, rfl⟩ | ⟨-, rfl⟩⟩ | ⟨hp, hb⟩ :=
    exclusiveSteps_next hf he
  · exact h.slotStep_fail hf (by decide) ..
  · exact slotStep_modifySlot (.reserved hst rfl hp (hdest sd hsd)) x
  · exact h.slotStep_fail hf (by decide) ..
  · exact slotStep_modifySlot (SlotStep.refl.withGuard ..) x
  · exact hbody hp hb

theorem State.Sound.slotStep_compatibleBody (h : s.Sound) (hf : s.inFlight = some mu) {mask : Word}
    (he : (if mask ≠ 0#64 then .next (s.fail .incompatible mask) else .next s' : Result) = .next t)
    (hs : SlotStep s.slot mu (Failed s s') x (s'.slot x)) :
    SlotStep s.slot mu (Failed s t) x (t.slot x) := by
  split at he <;> obtain rfl := Host.Outcome.next.inj he
  · exact h.slotStep_fail hf (by decide) ..
  · exact hs

/-- A set step writes words of its slot only (R115). -/
theorem slotStep_setTarget {sa : SlotNum} {hash : Word}
    (hcmd : mu.cmd = .add sa hash ∨ mu.cmd = .addc sa hash) (hp : mu.phase = .set) (i x : Nat) :
    SlotStep s.slot mu failed x ((s.setTarget sa.toNat hash i).slot x) :=
  slotStep_modifySlot (.written rfl rfl rfl rfl rfl (.inl ⟨sa, hash, hcmd, rfl, hp⟩)) x

/-- The last step of an insertion counts it (R115, R116). -/
theorem slotStep_count (hf : s.inFlight = some mu) {sa : SlotNum} {hash : Word}
    (hcmd : mu.cmd = .add sa hash ∨ mu.cmd = .addc sa hash) (hp : mu.phase = .body) (st : Status)
    (v : Word) (x : Nat) :
    SlotStep s.slot mu failed x (((s.counterInc sa.toNat).finish st v).slot x) :=
  slotStep_modifySlot_finish hf
        (.counted rfl rfl rfl rfl rfl rfl ⟨sa, hash, hcmd, rfl, hp⟩) ..

/-- At its body a `COPY` or `UNION` has reserved its destination (R135, R136). -/
theorem State.Sound.reserved_of_exclusiveOk (h : s.Sound) (hf : s.inFlight = some mu)
    {order : List Nat} (hok : exclusiveOk mu (some x) order = true) (hp : mu.phase = .body) :
    mu.reserved = some x ∧ (s.slot x).st = .reserved := by
  obtain ⟨hr, -⟩ := exclusiveOk_body hok hp
  exact ⟨hr, h.st_of_reserved hf hr⟩

/-! ## Every command -/

/-- What the micro-step of the command in flight makes of every slot. -/
theorem slotStep_of_exec (h : s.Sound) (hf : s.inFlight = some mu) {i : Instr}
    (hi : mu.cmd = i) (he : exec i s = .next t) (x : Nat) :
    SlotStep s.slot mu (Failed s t) x (t.slot x) := by
  have hok := h.microOk hf
  cases i with
  | create sd m keys =>
    obtain ⟨-, ⟨status, hs, rfl⟩ | ⟨hst, -, -, -, -, -, rfl⟩⟩ := execCreate_next hf he
    · exact h.slotStep_fail hf (by rintro rfl; simpa using createCheck_status hs) ..
    · exact slotStep_modifySlot_finish hf
        (.created hst rfl rfl (.inl ⟨sd, m, keys, hi, rfl⟩)) ..
  | newcompat sd sa =>
    obtain ⟨-, ⟨-, rfl⟩ | ⟨-, -, rfl⟩ | ⟨hst, -, rfl⟩⟩ := execNewcompat_next hf he
    · exact h.slotStep_fail hf (by decide) ..
    · exact h.slotStep_fail hf (by decide) ..
    · exact slotStep_modifySlot_finish hf
        (.created hst rfl rfl (.inr ⟨sd, sa, hi, rfl⟩)) ..
  | release sa =>
    obtain ⟨-, -, -, ⟨-, rfl⟩ | ⟨hv, rfl⟩⟩ := execRelease_next hf he
    · exact h.slotStep_fail hf (by decide) ..
    · exact slotStep_modifySlot_finish hf (.released hv rfl ⟨sa, hi, rfl⟩) ..
  | add sa hash =>
    obtain ⟨-, -, ht⟩ | ⟨hp, rfl⟩ | ⟨hp, rfl⟩ := execAdd_next hf he
    · exact h.slotStep_sharedAcquisition hf ht x
    · exact slotStep_setTarget (.inl hi) hp ..
    · exact slotStep_count hf (.inl hi) hp ..
  | addc sa hash =>
    obtain ⟨-, -, ht⟩ | ⟨-, rfl⟩ | ⟨hp, rfl⟩ | ⟨hp, rfl⟩ := execAddc_next hf he
    · exact h.slotStep_sharedAcquisition hf ht x
    · exact .refl
    · exact slotStep_setTarget (.inr hi) hp ..
    · exact slotStep_count hf (.inr hi) hp ..
  | contains sa hash =>
    obtain ⟨-, -, ht⟩ | ⟨-, rfl⟩ | ⟨-, rfl⟩ := execContains_next hf he
    · exact h.slotStep_sharedAcquisition hf ht x
    · exact .refl
    · exact slotStep_finish hf ..
  | getm sa =>
    obtain ⟨-, ⟨-, rfl⟩ | ⟨-, rfl⟩⟩ := execGetm_next hf he
    · exact h.slotStep_fail hf (by decide) ..
    · exact slotStep_finish hf ..
  | getk sa =>
    obtain ⟨-, ⟨-, rfl⟩ | ⟨-, rfl⟩⟩ := execGetk_next hf he
    · exact h.slotStep_fail hf (by decide) ..
    · exact slotStep_finish hf ..
  | getn sa =>
    obtain ⟨-, ⟨-, rfl⟩ | ⟨-, rfl⟩⟩ := execGetn_next hf he
    · exact h.slotStep_fail hf (by decide) ..
    · exact slotStep_finish hf ..
  | getkey sa index =>
    obtain ⟨-, ⟨-, rfl⟩ | ⟨-, -, rfl⟩ | ⟨-, -, rfl⟩⟩ := execGetkey_next hf he
    · exact h.slotStep_fail hf (by decide) ..
    · exact h.slotStep_fail hf (by decide) ..
    · exact slotStep_finish hf ..
  | readword sa index =>
    obtain ⟨-, -, ⟨-, rfl⟩ | ⟨-, -, rfl⟩ | ⟨-, -, rfl⟩⟩ := execReadword_next hf he
    · exact h.slotStep_fail hf (by decide) ..
    · exact h.slotStep_fail hf (by decide) ..
    · exact slotStep_finish hf ..
  | iscompat sa sb =>
    refine h.slotStep_exclusiveSteps hf (dest := none) (by simp) he fun _ hb => ?_
    obtain rfl := Host.Outcome.next.inj hb
    exact slotStep_finish hf ..
  | verifycompat sa sb =>
    exact h.slotStep_exclusiveSteps hf (dest := none) (by simp) he fun _ hb =>
      h.slotStep_compatibleBody hf hb (slotStep_finish hf ..)
  | unionip sa sb =>
    exact h.slotStep_exclusiveSteps hf (dest := none) (by simp) he fun hp hb =>
      h.slotStep_compatibleBody hf hb (slotStep_modifySlot_finish hf
        (.written rfl rfl rfl rfl rfl (.inr ⟨sa, sb, hi, rfl, hp⟩)) ..)
  | union sd sa sb =>
    refine h.slotStep_exclusiveSteps hf (dest := some sd) ?_ he fun hp hb =>
      h.slotStep_compatibleBody hf hb (slotStep_modifySlot_finish hf ?_ ..)
    · rintro _ ⟨⟩
      exact .inr ⟨sd, sa, sb, hi, rfl⟩
    · simp only [State.microOk, hi, Bool.and_eq_true] at hok
      obtain ⟨hr, hst⟩ := h.reserved_of_exclusiveOk hf hok.2 hp
      exact .united hst rfl hr hp sd sa sb hi rfl rfl
  | copy sd sa =>
    refine h.slotStep_exclusiveSteps hf (dest := some sd) ?_ he fun hp hb => ?_
    · rintro _ ⟨⟩
      exact .inl ⟨sd, sa, hi, rfl⟩
    · obtain rfl := Host.Outcome.next.inj hb
      simp only [State.microOk, hi, Bool.and_eq_true] at hok
      obtain ⟨hr, hst⟩ := h.reserved_of_exclusiveOk hf hok.2 hp
      exact slotStep_modifySlot_finish hf (.copied hst rfl hr hp sd sa hi rfl rfl) ..

/-- A micro-step of a port leaves every slot, or is one of the command in flight. -/
theorem State.Sound.stepPort_slotStep (h : s.Sound) {p : Nat} (he : s.advance.stepPort p = .next t)
    (x : Nat) : t.slot x = s.slot x ∨ ∃ mu, (s.port p).busy = some mu ∧
      SlotStep s.slot mu (Failed { s.advance with turn := p } t) x (t.slot x) := by
  obtain ⟨-, ⟨c, status, -, -, -, rfl⟩ | ⟨c, i, -, -, -, ⟨-, rfl⟩ | ⟨-, rfl⟩⟩ | ⟨mu, hb, he⟩⟩ :=
    stepPort_next he
  · exact .inl rfl
  · exact .inl rfl
  · exact .inl rfl
  · exact .inr ⟨mu, hb,
      slotStep_of_exec (h.withArbitration p s.schedule.tail (s.fresh + 1)) hb rfl he x⟩

/-! ## The statements -/

/-- Settles O47: the micro-steps through which a slot stays `VALID` leave its size and keys. -/
theorem sizeAndKeysAreImmutable : Obligations.SizeAndKeysAreImmutable := by
  rintro s t x hi ⟨p, hp⟩ hs ht
  obtain he | ⟨mu, -, hstep⟩ := (inv_iff.1 hi).stepPort_slotStep hp x
  · rw [he]
    exact ⟨rfl, rfl, rfl⟩
  · cases hstep with
    | kept _ hfilter =>
      obtain ⟨hm, hk, hkeys, -, -⟩ := hfilter
      exact ⟨hm, hk, hkeys⟩
    | written _ hm hk hkeys => exact ⟨hm, hk, hkeys⟩
    | counted _ hm hk hkeys => exact ⟨hm, hk, hkeys⟩
    | created hold | reserved hold | copied hold | united hold | givenUp hold =>
      exact absurd (hold.symm.trans hs) (by decide)
    | released _ hst => exact absurd (hst.symm.trans ht) (by decide)

/-- Settles O48: of the micro-steps that leave a slot `VALID`, an insertion's last step counts, the
filling commands set `n` to 0 or copy it, and no other changes it. -/
theorem counterChangesOnlyAsR26Says : Obligations.CounterChangesOnlyAsR26Says := by
  intro s t p x hi hp ht
  obtain he | ⟨mu, hb, hstep⟩ := (inv_iff.1 hi).stepPort_slotStep hp x
  · exact .inl ⟨he ▸ ht, by rw [he]⟩
  · cases hstep with
    | kept hst hfilter =>
      obtain ⟨-, -, -, -, hn⟩ := hfilter
      exact .inl ⟨hst ▸ ht, hn⟩
    | written hst _ _ _ hn => exact .inl ⟨hst ▸ ht, hn⟩
    | counted hst _ _ _ _ hn hby =>
      obtain ⟨sa, hash, hby⟩ := hby
      exact .inr (.inl ⟨hst ▸ ht, hn, mu, sa, hash, hb, hby⟩)
    | created hold _ hn hby =>
      exact .inr (.inr (.inl ⟨by simp [hold], hn, mu, hb, hby.imp_right .inl⟩))
    | united hold _ _ _ sd sa sb hcmd hsd hn =>
      exact .inr (.inr (.inl ⟨by simp [hold], hn, mu, hb, .inr (.inr ⟨sd, sa, sb, hcmd, hsd⟩)⟩))
    | copied hold _ _ _ sd sa hcmd hsd hn =>
      exact .inr (.inr (.inr ⟨by simp [hold], mu, sd, sa, hb, hcmd, hsd, hn⟩))
    | reserved _ hst | givenUp _ hst | released _ hst =>
      exact absurd (hst.symm.trans ht) (by decide)

/-- Settles O49: the micro-steps that change a slot's lifecycle state are the rows of R21's table.
-/
theorem lifecycleFollowsTheTable : Obligations.LifecycleFollowsTheTable := by
  intro s t p x hi hp hne
  obtain he | ⟨mu, hb, hstep⟩ := (inv_iff.1 hi).stepPort_slotStep hp x
  · exact absurd (by rw [he]) hne
  refine ⟨mu, hb, ?_⟩
  cases hstep with
  | kept hst | written hst | counted hst => exact absurd hst hne
  | created hold hst _ hby => exact .inl ⟨hold, hst, hby⟩
  | reserved hold hst hphase hby => exact .inr (.inl ⟨hold, hst, hphase, hby⟩)
  | copied hold hst hres hphase sd sa hcmd hsd =>
    exact .inr (.inr (.inl ⟨hold, hst, hres, hphase, .inl ⟨sd, sa, hcmd, hsd⟩⟩))
  | united hold hst hres hphase sd sa sb hcmd hsd =>
    exact .inr (.inr (.inl ⟨hold, hst, hres, hphase, .inr ⟨sd, sa, sb, hcmd, hsd⟩⟩))
  | givenUp hold hst hres hfailed hby =>
    exact .inr (.inr (.inr (.inl ⟨hold, hst, hres, hfailed, hby⟩)))
  | released hold hst hby => exact .inr (.inr (.inr (.inr ⟨hold, hst, hby⟩)))

end Sys2Proof.Machine
end

section
/-! Two sound states that differ at most in what R28 calls unobservable step alike: the shared
operations keep the likeness, and the invariant says that a command in flight reads the fields of
`VALID` slots only. -/

namespace Sys2Proof.Machine

variable {s s' t t' : State} {mu nu : MicroState} {x : Nat} {f f' : Slot → Slot} {r r' : Result}

/-- Two micro-steps end alike: in states that differ at most in what is unobservable, or in one
stop. -/
inductive SameOutcome : Result → Result → Prop where
  | next {t t' : State} (h : t.sameView t') : SameOutcome (.next t) (.next t')
  | fault (f : Fault) : SameOutcome (.fault f) (.fault f)
  | refused (q : Refusal) : SameOutcome (.refused q) (.refused q)

theorem SameOutcome.ite {c : Prop} [Decidable c] {q q' : Result} (h : c → SameOutcome r r')
    (h' : ¬ c → SameOutcome q q') :
    SameOutcome (if c then r else q) (if c then r' else q') := by
  split
  · exact h ‹_›
  · exact h' ‹_›

/-! ## What two states of one view share -/

theorem Slot.sameView_refl (u : Slot) : u.sameView u :=
  ⟨rfl, rfl, rfl, fun _ => Slot.sameFilter_refl u⟩

/-- `VALID` slots of one view are equal. -/
theorem Slot.sameView.eq_of_valid {a b : Slot} (h : a.sameView b) (hv : a.st = .valid) : b = a := by
  obtain ⟨hst, hrd, hwr, hfilter⟩ := h
  obtain ⟨hm, hk, hkeys, hbits, hn⟩ := hfilter hv
  cases a
  cases b
  simp_all

namespace State.sameView

variable (h : s.sameView s')
include h

theorem slotView (x : Nat) : (s.slot x).sameView (s'.slot x) := by
  obtain ⟨-, -, -, -, -, -, hx⟩ := h
  exact hx x

theorem st_eq (x : Nat) : (s'.slot x).st = (s.slot x).st := (h.slotView x).1.symm

theorem cfg_eq : s'.cfg = s.cfg := h.1.symm

theorem ports_eq : s'.ports = s.ports := by
  obtain ⟨-, hp, -⟩ := h
  exact hp.symm

theorem turn_eq : s'.turn = s.turn := by
  obtain ⟨-, -, ht, -⟩ := h
  exact ht.symm

theorem port_eq (p : Nat) : s'.port p = s.port p := by simp [State.port, h.ports_eq]

theorem inFlight_eq : s'.inFlight = s.inFlight := by
  simp [State.inFlight, h.turn_eq, h.port_eq]

theorem isValid_eq (x : Nat) : s'.isValid x = s.isValid x := by simp [State.isValid, h.st_eq x]

theorem isFree_eq (x : Nat) : s'.isFree x = s.isFree x := by simp [State.isFree, h.st_eq x]

theorem sharedGrantable_eq (x : Nat) : s'.sharedGrantable x = s.sharedGrantable x := by
  obtain ⟨-, -, hw, -⟩ := h.slotView x
  simp [State.sharedGrantable, hw]

theorem exclusiveGrantable_eq (x : Nat) : s'.exclusiveGrantable x = s.exclusiveGrantable x := by
  obtain ⟨-, hr, hw, -⟩ := h.slotView x
  simp [State.exclusiveGrantable, hr, hw]

theorem lockList_eq (sa sb : SlotNum) : s'.lockList sa sb = s.lockList sa sb := by
  simp [State.lockList, h.cfg_eq]

theorem slot_eq (hv : (s.slot x).st = .valid) : s'.slot x = s.slot x :=
  (h.slotView x).eq_of_valid hv

/-! ## The shared operations keep one view -/

theorem withTurn (p : Nat) : State.sameView { s with turn := p } { s' with turn := p } := by
  obtain ⟨hc, hp, -, hs, hfr, hl, hx⟩ := h
  exact ⟨hc, hp, rfl, hs, hfr, hl, hx⟩

theorem advance : s.advance.sameView s'.advance := by
  obtain ⟨hc, hp, ht, hs, hfr, hl, hx⟩ := h
  exact ⟨hc, hp, ht, congrArg List.tail hs, congrArg (· + 1) hfr, hl, hx⟩

theorem modifySlot (hf : (f (s.slot x)).sameView (f' (s'.slot x))) :
    (s.modifySlot x f).sameView (s'.modifySlot x f') := by
  obtain ⟨hc, hp, ht, hs, hfr, hl, hx⟩ := h
  refine ⟨hc, hp, ht, hs, hfr, by simpa using hl, fun y => ?_⟩
  rw [slot_modifySlot, slot_modifySlot, ← hl]
  split
  · exact hf
  · exact hx y

theorem modifyPort (p : Nat) (g : Port → Port) :
    (s.modifyPort p g).sameView (s'.modifyPort p g) := by
  obtain ⟨hc, hp, ht, hs, hfr, hl, hx⟩ := h
  exact ⟨hc, by simp [State.modifyPort, hp], ht, hs, hfr, hl, hx⟩

theorem respond (st : Status) (v : Word) : (s.respond st v).sameView (s'.respond st v) := by
  rw [State.respond, State.respond, h.turn_eq]
  exact h.modifyPort ..

theorem setInFlight (mu : MicroState) : (s.setInFlight mu).sameView (s'.setInFlight mu) := by
  rw [State.setInFlight, State.setInFlight, h.turn_eq]
  exact h.modifyPort ..

theorem releaseGuard (g : Nat × Mode) : (s.releaseGuard g).sameView (s'.releaseGuard g) := by
  obtain ⟨hst, hrd, hwr, hfilter⟩ := h.slotView g.1
  unfold State.releaseGuard
  split
  · exact h.modifySlot ⟨hst, congrArg (· - 1) hrd, hwr, hfilter⟩
  · exact h.modifySlot ⟨hst, hrd, rfl, hfilter⟩

theorem foldl_releaseGuard (gs : List (Nat × Mode)) :
    (gs.foldl State.releaseGuard s).sameView (gs.foldl State.releaseGuard s') := by
  induction gs generalizing s s' with
  | nil => exact h
  | cons g gs ih => exact ih (h.releaseGuard g)

theorem releaseGuards : s.releaseGuards.sameView s'.releaseGuards := by
  unfold State.releaseGuards
  rw [h.inFlight_eq]
  split
  · exact h
  · exact h.foldl_releaseGuard _

theorem freeReserved : s.freeReserved.sameView s'.freeReserved := by
  unfold State.freeReserved
  rw [h.inFlight_eq]
  split
  · exact h
  next x _ =>
    obtain ⟨-, hrd, hwr, -⟩ := h.slotView x
    exact h.modifySlot ⟨rfl, hrd, hwr, by simp⟩

theorem finish (st : Status) (v : Word) : (s.finish st v).sameView (s'.finish st v) :=
  h.releaseGuards.respond st v

theorem fail (st : Status) (v : Word) : (s.fail st v).sameView (s'.fail st v) :=
  h.releaseGuards.freeReserved.respond st v

/-- A filled slot shows the same filter, whatever the slot held before. -/
theorem fillSlot (x : Nat) (m : Word) (k : KeyCount) (keys : List Word) (bits : Memory) (n : Word) :
    (s.fillSlot x m k keys bits n).sameView (s'.fillSlot x m k keys bits n) := by
  obtain ⟨-, hrd, hwr, -⟩ := h.slotView x
  exact h.modifySlot ⟨rfl, hrd, hwr, fun _ => ⟨rfl, rfl, rfl, rfl, rfl⟩⟩

theorem freeSlot (x : Nat) : (s.freeSlot x).sameView (s'.freeSlot x) := by
  obtain ⟨-, hrd, hwr, -⟩ := h.slotView x
  exact h.modifySlot ⟨rfl, hrd, hwr, by simp⟩

/-- One change of a `VALID` slot in two states of one view. -/
theorem modifyValid (hv : (s.slot x).st = .valid) (f : Slot → Slot) :
    (s.modifySlot x f).sameView (s'.modifySlot x f) :=
  h.modifySlot (by rw [h.slot_eq hv]; exact Slot.sameView_refl _)

theorem counterInc (hv : (s.slot x).st = .valid) : (s.counterInc x).sameView (s'.counterInc x) :=
  h.modifyValid hv _

theorem setTarget (hv : (s.slot x).st = .valid) (hash : Word) (i : Nat) :
    (s.setTarget x hash i).sameView (s'.setTarget x hash i) := by
  have hx := h.slot_eq hv
  simp only [State.setTarget, State.wordOr, State.wordStore, State.wordLoad, State.target,
    State.key, hx]
  exact h.modifyValid hv _

theorem loopPhase_eq (hv : (s.slot x).st = .valid) (i : Nat) (ph : Phase) :
    s'.loopPhase x i ph = s.loopPhase x i ph := by
  rw [State.loopPhase, State.loopPhase, State.keyCount, State.keyCount, h.slot_eq hv]

theorem andBit_eq (hv : (s.slot x).st = .valid) (hash : Word) (i : Nat) (flag : Bool) :
    s'.andBit x hash i flag = s.andBit x hash i flag := by
  simp [State.andBit, State.bit, State.wordLoad, State.target, State.key, h.slot_eq hv]

end State.sameView

/-! ## The shapes of the meanings -/

section Shapes

variable (hs : s.sameView s')
include hs

theorem sameOutcome_microStep (hf : s.inFlight = some mu) (i : Instr)
    {next next' : MicroState → Result} (h : SameOutcome (next mu) (next' mu)) :
    SameOutcome (s.microStep i next) (s'.microStep i next') := by
  rw [microStep_inFlight hf, microStep_inFlight (hs.inFlight_eq.trans hf)]
  exact h

theorem sameOutcome_oneStep (hf : s.inFlight = some mu) (i : Instr)
    {body body' : MicroState → Result} (h : SameOutcome (body mu) (body' mu)) :
    SameOutcome (s.oneStep i body) (s'.oneStep i body') := by
  refine sameOutcome_microStep hs hf i ?_
  cases mu.phase
  case body => exact h
  all_goals exact .fault _

/-- A read answers alike where it is the same of a `VALID` slot. -/
theorem sameOutcome_readSlot {read read' : Slot → Status × Word}
    (h : s'.slot x = s.slot x → read' (s.slot x) = read (s.slot x)) :
    SameOutcome (s.readSlot x read) (s'.readSlot x read') := by
  unfold State.readSlot
  rw [hs.isValid_eq]
  refine .ite (fun _ => .next (hs.fail ..)) fun hv => ?_
  have hx := hs.slot_eq (x := x) (by simpa [State.isValid] using hv)
  rw [hx, h hx]
  split
  · exact .next (hs.finish ..)
  · exact .next (hs.fail ..)

/-- A shared acquisition goes alike; the next phase is read from a `VALID` slot only. -/
theorem sameOutcome_acquireShared (mu : MicroState) (x i : Nat) (ph : Phase) :
    SameOutcome (s.acquireShared mu x (s.loopPhase x i ph))
      (s'.acquireShared mu x (s'.loopPhase x i ph)) := by
  unfold State.acquireShared
  rw [hs.sharedGrantable_eq, hs.isValid_eq]
  refine .ite (fun _ => .fault _) fun _ => .ite (fun _ => .next (hs.fail ..)) fun hv => ?_
  have hv : (s.slot x).st = .valid := by simpa [State.isValid] using hv
  rw [hs.loopPhase_eq hv]
  exact .next ((hs.modifyValid hv _).setInFlight _)

theorem sameOutcome_acquireExclusive (mu : MicroState) (x : Nat) (ph : Phase) :
    SameOutcome (s.acquireExclusive mu x ph) (s'.acquireExclusive mu x ph) := by
  unfold State.acquireExclusive
  rw [hs.exclusiveGrantable_eq, hs.isValid_eq, hs.turn_eq]
  refine .ite (fun _ => .fault _) fun _ => .ite (fun _ => .next (hs.fail ..)) fun hv => ?_
  exact .next ((hs.modifyValid (by simpa [State.isValid] using hv) _).setInFlight _)

theorem sameOutcome_reserve (mu : MicroState) (x : Nat) :
    SameOutcome (s.reserve mu x) (s'.reserve mu x) := by
  obtain ⟨-, hrd, hwr, -⟩ := hs.slotView x
  unfold State.reserve
  rw [hs.isFree_eq]
  refine .ite (fun _ => .next (hs.fail ..)) fun _ => ?_
  exact .next ((hs.modifySlot ⟨rfl, hrd, hwr, by simp⟩).setInFlight _)

theorem sameOutcome_exclusiveSteps (hf : s.inFlight = some mu) (i : Instr) (dest : Option SlotNum)
    (order : List Nat) {body body' : Result} (h : mu.phase = .body → SameOutcome body body') :
    SameOutcome (s.exclusiveSteps i dest order body) (s'.exclusiveSteps i dest order body') := by
  refine sameOutcome_microStep hs hf i ?_
  cases hp : mu.phase with
  | reserve =>
    cases dest with
    | none => exact .fault _
    | some sd => exact sameOutcome_reserve hs mu sd.toNat
  | acquire =>
    simp only [State.acquireNext]
    cases order[mu.held.length]? with
    | none => exact .fault _
    | some x => exact sameOutcome_acquireExclusive hs mu x _
  | body => exact h hp
  | load | set => exact .fault _

/-- A body that needs compatible filters ends alike where the masks are equal. -/
theorem sameOutcome_compatibleBody {mask mask' : Word} (hm : mask' = mask) (h : t.sameView t') :
    SameOutcome (if mask ≠ 0#64 then .next (s.fail .incompatible mask) else .next t)
      (if mask' ≠ 0#64 then .next (s'.fail .incompatible mask') else .next t') := by
  rw [hm]
  exact .ite (fun _ => .next (hs.fail ..)) fun _ => .next h

end Shapes

/-! ## Every command -/

/-- The checks of `CREATE` read the lifecycle state of its destination only (R100). -/
theorem createCheck_congr {cfg : Config} {d d' : Slot} (h : d'.st = d.st) (m : Word)
    (keys : List Word) : createCheck cfg d' m keys = createCheck cfg d m keys := by
  simp [createCheck, h]

/-- At its body a two-filter command reads two `VALID` slots, so both states show the same operands.
-/
theorem State.Sound.operands_eq (h : s.Sound) (hs : s.sameView s') (hf : s.inFlight = some mu)
    {dest : Option Nat} {sa sb : SlotNum} (hok : exclusiveOk mu dest (s.lockList sa sb) = true)
    (hp : mu.phase = .body) : s'.slot sa.toNat = s.slot sa.toNat ∧
      s'.slot sb.toNat = s.slot sb.toNat ∧ s'.compat sa sb = s.compat sa sb ∧
      (s.slot sa.toNat).st = .valid := by
  obtain ⟨-, hh⟩ := exclusiveOk_body hok hp
  obtain ⟨-, hva, hvb⟩ := h.operands_of_lockList hf hh
  have ha := hs.slot_eq hva
  have hb := hs.slot_eq hvb
  exact ⟨ha, hb, by simp [State.compat, ha, hb], hva⟩

/-- The slot of a loop over keys is `VALID` once it is acquired. -/
theorem State.Sound.valid_of_loopOk (h : s.Sound) (hf : s.inFlight = some mu) {phases : List Phase}
    (hok : s.loopOk mu x phases = true) (hp : mu.phase ≠ .acquire) : (s.slot x).st = .valid := by
  obtain ⟨-, hh, -⟩ := loopOk_acquired hok hp
  exact h.valid_of_held hf (mode := .shared) (by simp [hh])

/-- The next micro-step of the command in flight ends alike in two states of one view. -/
theorem sameOutcome_exec (h : s.Sound) (hs : s.sameView s') (hf : s.inFlight = some mu) {i : Instr}
    (hi : mu.cmd = i) : SameOutcome (exec i s) (exec i s') := by
  have hok := h.microOk hf
  rw [State.microOk, Bool.and_eq_true, hi] at hok
  obtain ⟨-, hok⟩ := hok
  cases i with
  | create sd m keys =>
    refine sameOutcome_oneStep hs hf _ ?_
    rw [hs.cfg_eq, createCheck_congr (hs.st_eq sd.toNat)]
    split
    · exact .next (hs.fail ..)
    · exact .next ((hs.fillSlot ..).finish ..)
  | newcompat sd sa =>
    refine sameOutcome_oneStep hs hf _ ?_
    rw [hs.isFree_eq, hs.isValid_eq]
    refine .ite (fun _ => .next (hs.fail ..)) fun _ =>
      .ite (fun _ => .next (hs.fail ..)) fun hv => ?_
    rw [hs.slot_eq (x := sa.toNat) (by simpa [State.isValid] using hv)]
    exact .next ((hs.fillSlot ..).finish ..)
  | release sa =>
    refine sameOutcome_oneStep hs hf _ ?_
    rw [hs.exclusiveGrantable_eq, hs.isValid_eq]
    exact .ite (fun _ => .fault _) fun _ => .ite (fun _ => .next (hs.fail ..)) fun _ =>
      .next ((hs.freeSlot _).finish ..)
  | add sa hash =>
    refine sameOutcome_microStep hs hf _ ?_
    have hv := h.valid_of_loopOk hf hok
    cases hp : mu.phase with
    | acquire => exact sameOutcome_acquireShared hs ..
    | set =>
      have hv := hv (by simp [hp])
      simp only [hs.loopPhase_eq hv]
      exact .next ((hs.setTarget hv ..).setInFlight _)
    | body => exact .next ((hs.counterInc (hv (by simp [hp]))).finish ..)
    | reserve | load => exact .fault _
  | addc sa hash =>
    refine sameOutcome_microStep hs hf _ ?_
    have hv := h.valid_of_loopOk hf hok
    cases hp : mu.phase with
    | acquire => exact sameOutcome_acquireShared hs ..
    | load =>
      simp only [hs.andBit_eq (hv (by simp [hp]))]
      exact .next (hs.setInFlight _)
    | set =>
      have hv := hv (by simp [hp])
      simp only [hs.loopPhase_eq hv]
      exact .next ((hs.setTarget hv ..).setInFlight _)
    | body => exact .next ((hs.counterInc (hv (by simp [hp]))).finish ..)
    | reserve => exact .fault _
  | contains sa hash =>
    refine sameOutcome_microStep hs hf _ ?_
    have hv := h.valid_of_loopOk hf hok
    cases hp : mu.phase with
    | acquire => exact sameOutcome_acquireShared hs ..
    | load =>
      have hv := hv (by simp [hp])
      simp only [hs.andBit_eq hv, hs.loopPhase_eq hv]
      exact .next (hs.setInFlight _)
    | body => exact .next (hs.finish ..)
    | reserve | set => exact .fault _
  | getm sa => exact sameOutcome_oneStep hs hf _ (sameOutcome_readSlot hs fun _ => rfl)
  | getk sa => exact sameOutcome_oneStep hs hf _ (sameOutcome_readSlot hs fun _ => rfl)
  | getn sa =>
    exact sameOutcome_oneStep hs hf _ (sameOutcome_readSlot hs fun hx => by
      simp [State.counterLoad, hx])
  | getkey sa index =>
    exact sameOutcome_oneStep hs hf _ (sameOutcome_readSlot hs fun hx => by
      simp [State.keyCount, State.key, hx])
  | readword sa index =>
    refine sameOutcome_oneStep hs hf _ ?_
    rw [hs.sharedGrantable_eq]
    exact .ite (fun _ => .fault _) fun _ => sameOutcome_readSlot hs fun hx => by
      simp [State.wordLoad, hx]
  | iscompat sa sb =>
    rw [exec, exec, execIscompat, execIscompat, hs.lockList_eq]
    refine sameOutcome_exclusiveSteps hs hf _ _ _ fun hp => ?_
    obtain ⟨-, -, hc, -⟩ := h.operands_eq hs hf hok hp
    rw [hc]
    exact .next (hs.finish ..)
  | verifycompat sa sb =>
    rw [exec, exec, execVerifycompat, execVerifycompat, hs.lockList_eq]
    refine sameOutcome_exclusiveSteps hs hf _ _ _ fun hp => ?_
    obtain ⟨-, -, hc, -⟩ := h.operands_eq hs hf hok hp
    exact sameOutcome_compatibleBody hs hc (hs.finish ..)
  | unionip sa sb =>
    rw [exec, exec, execUnionip, execUnionip, hs.lockList_eq]
    refine sameOutcome_exclusiveSteps hs hf _ _ _ fun hp => ?_
    obtain ⟨ha, hb, hc, hv⟩ := h.operands_eq hs hf hok hp
    refine sameOutcome_compatibleBody hs hc ?_
    rw [ha, hb]
    exact (hs.modifyValid hv _).finish ..
  | union sd sa sb =>
    rw [exec, exec, execUnion, execUnion, hs.lockList_eq]
    refine sameOutcome_exclusiveSteps hs hf _ _ _ fun hp => ?_
    obtain ⟨ha, hb, hc, -⟩ := h.operands_eq hs hf hok hp
    refine sameOutcome_compatibleBody hs hc ?_
    rw [ha, hb]
    exact (hs.fillSlot ..).finish ..
  | copy sd sa =>
    rw [exec, exec, execCopy, execCopy]
    refine sameOutcome_exclusiveSteps hs hf _ _ _ fun hp => ?_
    obtain ⟨-, hh⟩ := exclusiveOk_body hok hp
    have hv := h.valid_of_held hf (x := sa.toNat) (mode := .exclusive) (by simp [hh])
    simp only [State.counterLoad, hs.slot_eq hv]
    exact .next ((hs.fillSlot ..).finish ..)

/-! ## A port's micro-step, and a step -/

/-- The decode step ends alike: it reads no slot (R82). -/
theorem sameOutcome_issueCommand (hs : s.sameView s') (ht : s.turn < s.ports.length)
    (hf : s.inFlight = none) (c : Command) :
    SameOutcome (s.issueCommand c) (s'.issueCommand c) := by
  unfold State.issueCommand
  split
  · exact .next (hs.respond ..)
  next i _ =>
    rw [exec_idle ht hf, exec_idle (by rwa [hs.ports_eq, hs.turn_eq]) (hs.inFlight_eq.trans hf)]
    refine .next ?_
    unfold State.issue
    rw [hs.cfg_eq]
    split
    · exact hs.setInFlight _
    · exact hs.respond ..

theorem sameOutcome_stepPort (h : s.Sound) (hs : s.sameView s') (p : Nat) :
    SameOutcome (s.stepPort p) (s'.stepPort p) := by
  unfold State.stepPort
  by_cases hp : p < s.ports.length
  · rw [ports_getElem? _ _ hp, ports_getElem? s' p (hs.ports_eq ▸ hp), hs.port_eq]
    cases hb : (s.port p).busy with
    | some mu =>
      simp only [hb]
      exact sameOutcome_exec (h.withArbitration p s.schedule s.fresh) (hs.withTurn p) hb rfl
    | none =>
      simp only [hb]
      cases (s.port p).nextCommand with
      | none => exact .fault _
      | some c => exact sameOutcome_issueCommand (hs.withTurn p) hp hb c
  · rw [hs.ports_eq, List.getElem?_eq_none (Nat.le_of_not_lt hp)]
    exact .fault _

/-- The same ports are enabled in two sound states of one view, and the same one moves (R47). -/
theorem pick_eq (h : s.Sound) (hs : s.sameView s') :
    s'.pick s'.enabledPorts = s.pick s.enabledPorts := by
  have henabled : ∀ p, s'.enabled p = s.enabled p := by
    intro p
    have ho := sameOutcome_stepPort h hs p
    unfold State.enabled
    generalize s.stepPort p = r at ho
    generalize s'.stepPort p = r' at ho
    cases ho <;> rfl
  have hps : s'.enabledPorts = s.enabledPorts := by
    simp [State.enabledPorts, henabled, hs.ports_eq]
  obtain ⟨-, -, -, hsch, hfr, -⟩ := hs
  rw [hps]
  unfold State.pick
  rw [hsch, hfr]

theorem sameOutcome_step (h : s.Sound) (hs : s.sameView s') : SameOutcome (step s) (step s') := by
  have hsound := h.withArbitration s.turn s.schedule.tail (s.fresh + 1)
  have hended : s'.ended = s.ended := by simp [State.ended, hs.ports_eq]
  unfold step
  rw [pick_eq h hs, hended]
  split
  · exact sameOutcome_stepPort hsound hs.advance _
  · exact .ite (fun _ => .fault _) fun _ => .fault _

/-- Settles O52: a step, and every port's micro-step, ends alike in two states of one view. -/
theorem fieldsOfUnfilledSlotsAreUnobservable :
    Obligations.FieldsOfUnfilledSlotsAreUnobservable := by
  intro s s' hi hs
  have hnext : ∀ {r r' : Result} {t : State}, SameOutcome r r' → r = .next t →
      ∃ t', r' = .next t' ∧ t.sameView t' := by
    rintro _ _ t (⟨ht⟩ | _ | _) ⟨⟩
    exact ⟨_, rfl, ht⟩
  have hstep := sameOutcome_step (inv_iff.1 hi) hs
  refine ⟨fun t => hnext hstep, fun f hf => ?_,
    fun p t => hnext (sameOutcome_stepPort (inv_iff.1 hi) hs p)⟩
  rw [hf] at hstep
  generalize step s' = r' at hstep
  cases hstep
  rfl

end Sys2Proof.Machine
end

section
/-! The micro-steps by which a command takes a guard or reserves its destination (R51, R52, R56, R57,
R63): each as a whole, what it answers and what it makes of the ports and the slots. -/

namespace Sys2Proof.Machine

variable {s : State} {mu : MicroState} {x y : Nat}

/-! ## The endings of a micro-step, as a whole -/

/-- A change of slot `x` before the command goes on is the whole change of the slots. -/
theorem continuesWith_modifySlot (hf : s.inFlight = some mu) (hx : x < s.slots.length)
    (f : Slot → Slot) (mu' : MicroState) :
    ContinuesWith s (.next ((s.modifySlot x f).setInFlight mu')) mu'
      (s.slotsWith x (f (s.slot x))) :=
  ⟨_, rfl, modifySlot_setInFlight_goesOn (turn_lt_of_inFlight _ hf) ..,
    fun y => by simp [State.slotsWith, slot_modifySlot, hx]⟩

/-- A failure is the whole change where `slot_fail` describes the slots. -/
theorem endsWith_fail (hf : s.inFlight = some mu) (st : Status) (v : Word) {slots : Nat → Slot}
    (hslots : ∀ x, (s.fail st v).slot x = slots x) : EndsWith s (.next (s.fail st v)) st v slots :=
  ⟨_, rfl, fail_answers (turn_lt_of_inFlight _ hf) .., hslots⟩

/-- A command that holds and reserves nothing fails without a change of any slot. -/
theorem slot_fail_of_nil (hf : s.inFlight = some mu) (hh : mu.held = []) (hr : mu.reserved = none)
    (st : Status) (v : Word) (x : Nat) : (s.fail st v).slot x = s.slot x := by
  simp [slot_fail hf, hh, hr]

/-! ## Shared acquisition -/

/-- The acquisition phase of the three loops over keys is the shared acquisition (R115 to R117). -/
theorem exec_acquireShared {sa : SlotNum} {hash : Word} {i : Instr} {inLoop : Phase}
    (hi : (i = .add sa hash ∧ inLoop = .set) ∨ (i = .addc sa hash ∧ inLoop = .load) ∨
      (i = .contains sa hash ∧ inLoop = .load)) (hf : s.inFlight = some mu)
    (hp : mu.phase = .acquire) :
    exec i s = s.acquireShared mu sa.toNat (s.loopPhase sa.toNat mu.pos inLoop) := by
  obtain ⟨rfl, rfl⟩ | ⟨rfl, rfl⟩ | ⟨rfl, rfl⟩ := hi
  · simp [exec, execAdd, microStep_inFlight hf, hp]
  · simp [exec, execAddc, microStep_inFlight hf, hp]
  · simp [exec, execContains, microStep_inFlight hf, hp]

/-- Settles O15: the three outcomes of `acquireShared_cases`, by the guard and the slot's state. -/
theorem sharedAcquisition : Obligations.SharedAcquisition := by
  rintro s mu sa h i inLoop hi ⟨hf, -, hp⟩ hh hr hx
  rw [exec_acquireShared hi hf hp]
  obtain ⟨hw, e⟩ | ⟨hw, hst, e⟩ | ⟨hw, hst, e⟩ :=
    acquireShared_cases s mu sa.toNat (s.loopPhase sa.toNat mu.pos inLoop) <;> rw [e]
  · exact ⟨fun _ => rfl, fun h0 => absurd h0 hw, fun h0 => absurd h0 hw⟩
  · exact ⟨fun h0 => absurd hw h0,
      fun _ _ => endsWith_fail hf _ _ (slot_fail_of_nil hf hh hr _ _),
      fun _ hv => absurd hv hst⟩
  · refine ⟨fun h0 => absurd hw h0, fun _ h0 => absurd hst h0, fun _ _ => ?_⟩
    rw [hh]
    exact continuesWith_modifySlot hf hx ..

/-! ## Reservation -/

/-- The reservation phase of `UNION` and `COPY` is the reservation of the destination (R135, R136).
-/
theorem exec_reserve {sd sa sb : SlotNum} {i : Instr} (hi : i = .union sd sa sb ∨ i = .copy sd sa)
    (hf : s.inFlight = some mu) (hp : mu.phase = .reserve) :
    exec i s = s.reserve mu sd.toNat := by
  obtain rfl | rfl := hi <;> exact exclusiveSteps_reserve hf hp ..

/-- Settles O17: the two outcomes of `reserve_cases`. -/
theorem reservationStep : Obligations.ReservationStep := by
  rintro s mu sd sa sb i hi ⟨hf, -, hp⟩ hh hr hx
  rw [exec_reserve hi hf hp]
  obtain ⟨hst, e⟩ | ⟨hst, e⟩ := reserve_cases s mu sd.toNat <;> rw [e]
  · exact ⟨fun _ => endsWith_fail hf _ _ (slot_fail_of_nil hf hh hr _ _), fun h0 => absurd h0 hst⟩
  · exact ⟨fun h0 => absurd hst h0, fun _ => continuesWith_modifySlot hf hx ..⟩

/-! ## Exclusive acquisition -/

/-- The lock list as R56 and R57 write it out. -/
theorem lockList_eq (s : State) (sa sb : SlotNum) :
    s.lockList sa sb =
      if sa = sb then [sa.toNat]
      else if s.cfg.lockOrder = .canonical then
        [min sa.toNat sb.toNat, max sa.toNat sb.toNat]
      else [sa.toNat, sb.toNat] := by
  unfold State.lockList lockOrder
  simp only [BitVec.toNat_inj]
  cases s.cfg.lockOrder <;> simp

/-- The acquisition phase of a command that takes exclusive guards is the acquisition of the next guard
of its lock order (R56, R58, R136). -/
theorem exec_acquireNext {sd sa sb : SlotNum} {i : Instr} {order : List Nat}
    (hi : (i ∈ [Instr.iscompat sa sb, .verifycompat sa sb, .unionip sa sb, .union sd sa sb] ∧
        order = s.lockList sa sb) ∨ (i = .copy sd sa ∧ order = [sa.toNat]))
    (hf : s.inFlight = some mu) (hp : mu.phase = .acquire) :
    exec i s = s.acquireNext mu order := by
  obtain ⟨hi, rfl⟩ | ⟨rfl, rfl⟩ := hi
  · simp only [List.mem_cons, List.not_mem_nil, or_false] at hi
    obtain rfl | rfl | rfl | rfl := hi
    · rw [exec, execIscompat, exclusiveSteps_acquire hf hp]
    · rw [exec, execVerifycompat, exclusiveSteps_acquire hf hp]
    · rw [exec, execUnionip, exclusiveSteps_acquire hf hp]
    · rw [exec, execUnion, exclusiveSteps_acquire hf hp]
  · rw [exec, execCopy, exclusiveSteps_acquire hf hp]

theorem mem_map_exclusive {l : List Nat} {mode : Mode} :
    (y, mode) ∈ l.map (fun y => (y, Mode.exclusive)) ↔ y ∈ l ∧ mode = .exclusive := by
  simp [eq_comm]

/-- With the first `j` guards of its order a command asks for guard number `j`. -/
theorem acquireNext_eq {order : List Nat} {j : Nat} (hj : order[j]? = some x)
    (hh : mu.held = (order.take j).map fun y => (y, Mode.exclusive)) :
    s.acquireNext mu order =
      s.acquireExclusive mu x (if j + 1 = order.length then .body else .acquire) := by
  obtain ⟨hlt, -⟩ := List.getElem?_eq_some_iff.1 hj
  have hlen : mu.held.length = j := by simp [hh, hlt.le]
  rw [State.acquireNext, hlen, hj]

/-- Settles O16: the three outcomes of `acquireExclusive_cases` for the next guard of the order. -/
theorem exclusiveAcquisitionInLockOrder : Obligations.ExclusiveAcquisitionInLockOrder := by
  rintro s mu sd sa sb i order j x hi ⟨hf, -, hp⟩ hj hh hx
  rw [← lockList_eq] at hi
  rw [exec_acquireNext hi hf hp, acquireNext_eq hj hh]
  obtain ⟨hbusy, e⟩ | ⟨hw, hr, hst, e⟩ | ⟨hw, hr, hst, e⟩ :=
    acquireExclusive_cases s mu x (if j + 1 = order.length then .body else .acquire) <;> rw [e]
  · exact ⟨fun _ => rfl, fun hw hr => absurd hbusy (by simp [hw, hr]),
      fun hw hr => absurd hbusy (by simp [hw, hr])⟩
  · refine ⟨fun h0 => absurd h0 (by simp [hw, hr]), fun _ _ _ => ?_, fun _ _ hv => absurd hv hst⟩
    refine endsWith_fail hf _ _ fun y => ?_
    have hshared : mu.held.count (y, Mode.shared) = 0 := by
      rw [List.count_eq_zero, hh, mem_map_exclusive]
      simp
    have hexclusive : (y, Mode.exclusive) ∈ mu.held ↔ y ∈ order.take j := by
      rw [hh, mem_map_exclusive]
      simp
    simp [slot_fail hf, hshared, hexclusive]
  · refine ⟨fun h0 => absurd h0 (by simp [hw, hr]), fun _ _ h0 => absurd hst h0, fun _ _ _ => ?_⟩
    rw [List.take_add_one, hj, List.map_append, ← hh]
    exact continuesWith_modifySlot hf hx ..

end Sys2Proof.Machine
end

section
/-! What a micro-step leaves of a slot: the reading commands change no filter (R46), nobody changes a
slot under an exclusive holder (R50, R58), and a held slot stays `VALID` (R62). -/

namespace Sys2Proof.Machine

variable {s t : State} {mu : MicroState} {i : Instr} {x y p : Nat} {f : Slot → Slot}

/-! ## The reading commands -/

/-- No lifecycle state and no filter field differs from `s` to `t`; guards may. -/
def KeepsFilters (s t : State) : Prop :=
  ∀ x, (t.slot x).st = (s.slot x).st ∧ (t.slot x).sameFilter (s.slot x)

theorem keepsFilters_finish (hf : s.inFlight = some mu) {st : Status} {v : Word} :
    KeepsFilters s (s.finish st v) := by
  intro x
  rw [finish_slot, slot_releaseGuards hf]
  exact ⟨rfl, rfl, rfl, rfl, rfl, rfl⟩

theorem keepsFilters_fail (hf : s.inFlight = some mu) (hr : mu.reserved = none) {st : Status}
    {v : Word} : KeepsFilters s (s.fail st v) := by
  intro x
  rw [slot_fail hf, hr]
  exact ⟨rfl, rfl, rfl, rfl, rfl, rfl⟩

theorem keepsFilters_setInFlight {mu' : MicroState} :
    KeepsFilters s (s.setInFlight mu') := fun _ => ⟨rfl, Slot.sameFilter_refl _⟩

/-- A change of one guard changes no filter. -/
theorem keepsFilters_guard (hst : (f (s.slot x)).st = (s.slot x).st)
    (hfilter : (f (s.slot x)).sameFilter (s.slot x)) {mu' : MicroState} :
    KeepsFilters s ((s.modifySlot x f).setInFlight mu') := by
  intro y
  rw [setInFlight_slot, slot_modifySlot]
  split
  next h => obtain ⟨rfl, -⟩ := h; exact ⟨hst, hfilter⟩
  next => exact ⟨rfl, Slot.sameFilter_refl _⟩

/-- The decode step changes no slot (R82). -/
theorem slot_issue (s : State) (i : Instr) (x : Nat) : (s.issue i).slot x = s.slot x := by
  unfold State.issue
  split <;> rfl

/-- A meaning at an idle port that answers is the command's issue (R82). -/
theorem eq_issue_of_exec (hf : s.inFlight = none) (h : exec i s = .next t) : t = s.issue i := by
  by_cases ht : s.turn < s.ports.length
  · rw [exec_idle ht hf] at h
    exact (Host.Outcome.next.inj h).symm
  · have hport : ∀ next, s.microStep i next = .fault .noPort := fun next => by
      simp [State.microStep, List.getElem?_eq_none (Nat.le_of_not_lt ht)]
    have hstop : exec i s = .fault .noPort := by cases i <;> exact hport _
    simp [hstop] at h

/-- A read that takes no guard changes no filter, whatever it answers (R110 to R114). -/
theorem keepsFilters_readSlot (hf : s.inFlight = some mu) (hr : mu.reserved = none)
    {read : Slot → Status × Word} (h : s.readSlot x read = .next t) : KeepsFilters s t := by
  obtain ⟨-, rfl⟩ | ⟨-, ⟨-, rfl⟩ | ⟨-, rfl⟩⟩ := readSlot_next h
  · exact keepsFilters_fail hf hr
  · exact keepsFilters_finish hf
  · exact keepsFilters_fail hf hr

/-- A command that takes exclusive guards and reserves nothing changes no filter before its body. -/
theorem keepsFilters_exclusiveSteps (hf : s.inFlight = some mu) (hr : mu.reserved = none)
    {order : List Nat} {body : Result} (h : s.exclusiveSteps i none order body = .next t)
    (hbody : body = .next t → KeepsFilters s t) : KeepsFilters s t := by
  obtain ⟨-, sd, hsd, -⟩ | ⟨-, x, -, -, -, ⟨-, rfl⟩ | ⟨-, rfl⟩⟩ | ⟨-, hb⟩ := exclusiveSteps_next hf h
  · simp at hsd
  · exact keepsFilters_fail hf hr
  · exact keepsFilters_guard rfl (Slot.sameFilter_refl _)
  · exact hbody hb

/-- Settles O40: a reading command takes and releases guards, answers, and goes on, and none of these
changes a filter. -/
theorem readsHaveNoSideEffect : Obligations.ReadsHaveNoSideEffect := by
  intro s t i hi hres h
  change KeepsFilters s t
  cases hf : s.inFlight with
  | none =>
    obtain rfl := eq_issue_of_exec hf h
    intro x
    rw [slot_issue]
    exact ⟨rfl, Slot.sameFilter_refl _⟩
  | some mu =>
    have hr := hres mu hf
    cases i
    case create | newcompat | release | add | addc | unionip | union | copy =>
      simp [Instr.op] at hi
    case getm | getk | getn | getkey =>
      obtain ⟨-, hb⟩ := oneStep_next hf h
      exact keepsFilters_readSlot hf hr hb
    case readword sa index =>
      obtain ⟨-, -, ⟨-, rfl⟩ | ⟨-, -, rfl⟩ | ⟨-, -, rfl⟩⟩ := execReadword_next hf h
      · exact keepsFilters_fail hf hr
      · exact keepsFilters_fail hf hr
      · exact keepsFilters_finish hf
    case contains sa hash =>
      obtain ⟨-, -, ⟨-, rfl⟩ | ⟨-, rfl⟩⟩ | ⟨-, rfl⟩ | ⟨-, rfl⟩ := execContains_next hf h
      · exact keepsFilters_fail hf hr
      · exact keepsFilters_guard rfl (Slot.sameFilter_refl _)
      · exact keepsFilters_setInFlight
      · exact keepsFilters_finish hf
    case iscompat sa sb =>
      rw [exec, execIscompat] at h
      refine keepsFilters_exclusiveSteps hf hr h fun hb => ?_
      obtain rfl := Host.Outcome.next.inj hb
      exact keepsFilters_finish hf
    case verifycompat sa sb =>
      rw [exec, execVerifycompat] at h
      refine keepsFilters_exclusiveSteps hf hr h fun hb => ?_
      split at hb <;> obtain rfl := Host.Outcome.next.inj hb
      · exact keepsFilters_fail hf hr
      · exact keepsFilters_finish hf

/-! ## Held slots -/

/-- A slot that a port holds exists. -/
theorem State.Sound.lt_of_mem_holds (h : s.Sound) {mode : Mode}
    (hg : (x, mode) ∈ (s.port p).holds) : x < s.slots.length := by
  cases hb : (s.port p).busy with
  | none => simp [Port.holds, hb] at hg
  | some mu =>
    exact (h.withArbitration p s.schedule s.fresh).held_lt (mu := mu) hb
      (by simpa [Port.holds, hb] using hg)

/-- Settles O50: a held slot is `VALID` in every sound state, and every move keeps the state sound. -/
theorem heldSlotsStayValid : Obligations.HeldSlotsStayValid := by
  intro s t p x mode hi hm hg
  have hs := inv_iff.1 hi
  have ht := hs.moves hm
  exact ⟨hs.valid_of_mem_holds (hs.lt_of_mem_holds hg) hg,
    fun hg' => ht.valid_of_mem_holds (ht.lt_of_mem_holds hg') hg'⟩

/-! ## Exclusive holders -/

/-- Slot `x` is out of the reach of the command `mu`: someone holds it in exclusive mode, and the
command neither holds nor reserves it. -/
structure OutOfReach (s : State) (mu : MicroState) (x : Nat) : Prop where
  held      : ∀ mode, (x, mode) ∉ mu.held
  reserved  : mu.reserved ≠ some x
  exclusive : (s.slot x).wr ≠ none

/-- A slot that another port holds in exclusive mode is out of reach. -/
theorem State.Sound.outOfReach (h : s.Sound) (hf : s.inFlight = some mu) (hp : s.turn ≠ p)
    (hg : (x, Mode.exclusive) ∈ (s.port p).holds) : OutOfReach s mu x := by
  have hx := h.lt_of_mem_holds hg
  have hw := h.wr_of_mem_holds hx hg
  have hv := h.valid_of_mem_holds hx hg
  refine ⟨fun mode hm => ?_, fun hr => ?_, by simp [hw]⟩
  · rw [← holds_of_inFlight hf] at hm
    cases mode with
    | exclusive => exact hp (Option.some.inj ((h.wr_of_mem_holds hx hm).symm.trans hw))
    | shared =>
      have hrd : (s.slot x).rd = 0 :=
        (guardOk_iff.1 (h.guard x hx)).1.resolve_left (by simp [hw])
      have hpos := List.count_pos_iff.2 hm
      have hle := h.count_shared_le hx s.turn
      omega
  · simp [h.st_of_reserved hf hr] at hv

section Reach

variable (ho : OutOfReach s mu x)
include ho

theorem OutOfReach.ne_of_idle (hw : (s.slot y).wr = none) : x ≠ y := by
  rintro rfl
  exact ho.exclusive hw

theorem OutOfReach.ne_of_held {mode : Mode} (hg : (y, mode) ∈ mu.held) : x ≠ y := by
  rintro rfl
  exact ho.held mode hg

theorem OutOfReach.slot_releaseGuards {u : State} (hf : u.inFlight = some mu) :
    u.releaseGuards.slot x = u.slot x := by
  have hc : mu.held.count (x, .shared) = 0 := List.count_eq_zero.2 (ho.held _)
  simp [Machine.slot_releaseGuards hf, hc, ho.held]

theorem OutOfReach.slot_fail (hf : s.inFlight = some mu) {st : Status} {v : Word} :
    (s.fail st v).slot x = s.slot x := by
  have hc : mu.held.count (x, .shared) = 0 := List.count_eq_zero.2 (ho.held _)
  simp [Machine.slot_fail hf, hc, ho.held, ho.reserved]

theorem OutOfReach.slot_finish (hf : s.inFlight = some mu) {st : Status} {v : Word} :
    (s.finish st v).slot x = s.slot x := ho.slot_releaseGuards hf

theorem OutOfReach.slot_modifySlot_finish (hf : s.inFlight = some mu) (hne : x ≠ y)
    {st : Status} {v : Word} : ((s.modifySlot y f).finish st v).slot x = s.slot x := by
  rw [finish_slot, ho.slot_releaseGuards (u := s.modifySlot y f) hf, slot_modifySlot_ne _ _ _ _ hne]

theorem OutOfReach.slot_readSlot (hf : s.inFlight = some mu) {read : Slot → Status × Word}
    (h : s.readSlot y read = .next t) : t.slot x = s.slot x := by
  obtain ⟨-, rfl⟩ | ⟨-, ⟨-, rfl⟩ | ⟨-, rfl⟩⟩ := readSlot_next h
  · exact ho.slot_fail hf
  · exact ho.slot_finish hf
  · exact ho.slot_fail hf

/-- The acquisition of a loop over keys changes an idle slot, or fails (R51). -/
theorem OutOfReach.slot_sharedAcquisition (hf : s.inFlight = some mu) (hw : (s.slot y).wr = none)
    {mu' : MicroState} (ht : ((s.slot y).st ≠ .valid ∧ t = s.fail .badSlot 0#64) ∨
      ((s.slot y).st = .valid ∧
        t = (s.modifySlot y fun u => { u with rd := u.rd + 1 }).setInFlight mu')) :
    t.slot x = s.slot x := by
  obtain ⟨-, rfl⟩ | ⟨-, rfl⟩ := ht
  · exact ho.slot_fail hf
  · exact slot_modifySlot_ne _ _ _ _ (ho.ne_of_idle hw)

/-- A body that needs compatible filters changes what it changes for compatible ones. -/
theorem OutOfReach.slot_compatibleBody (hf : s.inFlight = some mu) {mask : Word} {u : State}
    (he : (if mask ≠ 0#64 then .next (s.fail .incompatible mask) else .next u : Result) = .next t)
    (hu : u.slot x = s.slot x) : t.slot x = s.slot x := by
  split at he <;> obtain rfl := Host.Outcome.next.inj he
  · exact ho.slot_fail hf
  · exact hu

end Reach

/-- The guard of a slot that is not `VALID` is idle (R27). -/
theorem State.Sound.wr_of_not_valid (h : s.Sound) (hst : (s.slot x).st ≠ .valid) :
    (s.slot x).wr = none := by
  by_cases hx : x < s.slots.length
  · obtain ⟨-, hv | ⟨hw, -⟩⟩ := guardOk_iff.1 (h.guard x hx)
    · exact absurd hv hst
    · exact hw
  · simp [slot_of_ge _ _ (Nat.le_of_not_lt hx), Slot.reset]

/-- Up to its body a command that takes exclusive guards changes slots with an idle guard only. -/
theorem State.Sound.slot_exclusiveSteps (h : s.Sound) (hf : s.inFlight = some mu)
    {dest : Option SlotNum} {order : List Nat} {body : Result} (ho : OutOfReach s mu x)
    (he : s.exclusiveSteps i dest order body = .next t)
    (hbody : mu.phase = .body → body = .next t → t.slot x = s.slot x) : t.slot x = s.slot x := by
  obtain ⟨-, sd, -, ⟨-, rfl⟩ | ⟨hst, rfl⟩⟩ | ⟨-, y, -, hw, -, ⟨-, rfl⟩ | ⟨-, rfl⟩⟩ | ⟨hp, hb⟩ :=
    exclusiveSteps_next hf he
  · exact ho.slot_fail hf
  · exact slot_modifySlot_ne _ _ _ _ (ho.ne_of_idle (h.wr_of_not_valid (by simp [hst])))
  · exact ho.slot_fail hf
  · exact slot_modifySlot_ne _ _ _ _ (ho.ne_of_idle hw)
  · exact hbody hp hb

/-- A set step changes its own slot only (R115, R116). -/
theorem slot_setStep_ne (hne : x ≠ y) {hash : Word} {j : Nat} {nu : MicroState} :
    ((s.setTarget y hash j).setInFlight nu).slot x = s.slot x :=
  (setInFlight_slot ..).trans (slot_wordOr_ne s _ _ hne)

/-- No micro-step of a command changes a slot out of its reach (R50, R58). -/
theorem State.Sound.slot_eq_of_outOfReach (h : s.Sound) (hf : s.inFlight = some mu)
    (hi : mu.cmd = i) (he : exec i s = .next t) (ho : OutOfReach s mu x) : t.slot x = s.slot x := by
  have hok := h.microOk hf
  rw [State.microOk, Bool.and_eq_true, hi] at hok
  obtain ⟨-, hok⟩ := hok
  have hloop : ∀ {y phases}, s.loopOk mu y phases = true → mu.phase ≠ .acquire → x ≠ y := by
    intro y phases hl hp
    obtain ⟨-, hh, -⟩ := loopOk_acquired hl hp
    exact ho.ne_of_held (mode := .shared) (by simp [hh])
  have hdest : ∀ {y order}, exclusiveOk mu (some y) order = true → mu.phase = .body → x ≠ y := by
    rintro y order hk hp rfl
    obtain ⟨hr, -⟩ := exclusiveOk_body hk hp
    exact ho.reserved hr
  cases i with
  | create sd m keys =>
    obtain ⟨-, ⟨status, -, rfl⟩ | ⟨hst, -, -, -, -, -, rfl⟩⟩ := execCreate_next hf he
    · exact ho.slot_fail hf
    · exact ho.slot_modifySlot_finish hf (ho.ne_of_idle (h.wr_of_not_valid (by simp [hst])))
  | newcompat sd sa =>
    obtain ⟨-, ⟨-, rfl⟩ | ⟨-, -, rfl⟩ | ⟨hst, -, rfl⟩⟩ := execNewcompat_next hf he
    · exact ho.slot_fail hf
    · exact ho.slot_fail hf
    · exact ho.slot_modifySlot_finish hf (ho.ne_of_idle (h.wr_of_not_valid (by simp [hst])))
  | release sa =>
    obtain ⟨-, hw, -, ⟨-, rfl⟩ | ⟨-, rfl⟩⟩ := execRelease_next hf he
    · exact ho.slot_fail hf
    · exact ho.slot_modifySlot_finish hf (ho.ne_of_idle hw)
  | add sa hash =>
    obtain ⟨-, hw, ht⟩ | ⟨hp, rfl⟩ | ⟨hp, rfl⟩ := execAdd_next hf he
    · exact ho.slot_sharedAcquisition hf hw ht
    · exact slot_setStep_ne (hloop hok (by simp [hp]))
    · exact ho.slot_modifySlot_finish hf (hloop hok (by simp [hp]))
  | addc sa hash =>
    obtain ⟨-, hw, ht⟩ | ⟨-, rfl⟩ | ⟨hp, rfl⟩ | ⟨hp, rfl⟩ := execAddc_next hf he
    · exact ho.slot_sharedAcquisition hf hw ht
    · rfl
    · exact slot_setStep_ne (hloop hok (by simp [hp]))
    · exact ho.slot_modifySlot_finish hf (hloop hok (by simp [hp]))
  | contains sa hash =>
    obtain ⟨-, hw, ht⟩ | ⟨-, rfl⟩ | ⟨-, rfl⟩ := execContains_next hf he
    · exact ho.slot_sharedAcquisition hf hw ht
    · rfl
    · exact ho.slot_finish hf
  | getm sa | getk sa | getn sa | getkey sa index =>
    obtain ⟨-, hb⟩ := oneStep_next hf he
    exact ho.slot_readSlot hf hb
  | readword sa index =>
    obtain ⟨-, -, ⟨-, rfl⟩ | ⟨-, -, rfl⟩ | ⟨-, -, rfl⟩⟩ := execReadword_next hf he
    · exact ho.slot_fail hf
    · exact ho.slot_fail hf
    · exact ho.slot_finish hf
  | iscompat sa sb =>
    rw [exec, execIscompat] at he
    refine h.slot_exclusiveSteps hf ho he fun _ hb => ?_
    obtain rfl := Host.Outcome.next.inj hb
    exact ho.slot_finish hf
  | verifycompat sa sb =>
    rw [exec, execVerifycompat] at he
    exact h.slot_exclusiveSteps hf ho he fun _ hb =>
      ho.slot_compatibleBody hf hb (ho.slot_finish hf)
  | unionip sa sb =>
    rw [exec, execUnionip] at he
    refine h.slot_exclusiveSteps hf ho he fun hp hb =>
      ho.slot_compatibleBody hf hb (ho.slot_modifySlot_finish hf ?_)
    obtain ⟨-, hh⟩ := exclusiveOk_body hok hp
    obtain ⟨⟨ha, -⟩, -⟩ := h.operands_of_lockList hf hh
    exact ho.ne_of_held ha
  | union sd sa sb =>
    rw [exec, execUnion] at he
    exact h.slot_exclusiveSteps hf ho he fun hp hb =>
      ho.slot_compatibleBody hf hb (ho.slot_modifySlot_finish hf (hdest hok hp))
  | copy sd sa =>
    rw [exec, execCopy] at he
    refine h.slot_exclusiveSteps hf ho he fun hp hb => ?_
    obtain rfl := Host.Outcome.next.inj hb
    exact ho.slot_modifySlot_finish hf (hdest hok hp)

/-- Settles O51: the decode step changes no slot, and a slot under another port's exclusive guard is
out of the reach of every command in flight. -/
theorem exclusiveHolderIsAlone : Obligations.ExclusiveHolderIsAlone := by
  intro s t p q x hi hg hne he
  obtain ⟨-, ⟨c, status, -, -, -, rfl⟩ | ⟨c, i, -, -, -, ⟨-, rfl⟩ | ⟨-, rfl⟩⟩ | ⟨mu, hb, he⟩⟩ :=
    stepPort_next he
  · rfl
  · rfl
  · rfl
  · have hs := (inv_iff.1 hi).withArbitration q s.schedule.tail (s.fresh + 1)
    exact hs.slot_eq_of_outOfReach hb rfl he (hs.outOfReach hb hne hg)

end Sys2Proof.Machine
end

section
/-! Bits of a `VALID` slot never fall (R49), and from it: the bits of an insertion are set before it
counts, at every interleaving (R48 (d), R193). -/

namespace Sys2Proof.Machine

variable {s t : State} {mu mu' : MicroState} {i : Instr} {x p q : Nat} {sa sb : SlotNum}
  {hash : Word}

/-! ## Set steps and merges -/

theorem bit_congr (h : (t.slot x).bits = (s.slot x).bits) (b : Nat) : t.bit x b = s.bit x b := by
  simp [State.bit, State.wordLoad, h]

/-- The set step of an `ADD` or `ADDC` (R115, R116). -/
theorem eq_setStep_of_exec (hf : s.inFlight = some mu)
    (hi : i = .add sa hash ∨ i = .addc sa hash) (hp : mu.phase = .set) (he : exec i s = .next t) :
    ∃ ph, t = (s.setTarget sa.toNat hash mu.pos).setInFlight
      { mu with pos := mu.pos + 1, phase := ph } := by
  obtain rfl | rfl := hi
  · simp only [exec, execAdd, microStep_inFlight hf, hp] at he
    exact ⟨_, (Host.Outcome.next.inj he).symm⟩
  · simp only [exec, execAddc, microStep_inFlight hf, hp] at he
    exact ⟨_, (Host.Outcome.next.inj he).symm⟩

theorem State.Sound.slot_lt_of_insertion (h : s.Sound) (hf : s.inFlight = some mu)
    (hcmd : mu.cmd = .add sa hash ∨ mu.cmd = .addc sa hash) : sa.toNat < s.slots.length :=
  h.slot_lt hf (by obtain hc | hc := hcmd <;> simp [hc, Instr.slots])

/-- A set step keeps every bit and sets the one of its key (R115, R116). -/
theorem State.Sound.bit_setStep (h : s.Sound) (hx : x < s.slots.length) (j : Nat) (nu : MicroState)
    (b : Nat) : ((s.setTarget x hash j).setInFlight nu).bit x b =
      (s.bit x b || decide (b = s.target x hash j)) :=
  bit_setTarget h.memoryWf hx hash j b

/-- A set step sets the bit of the key at its position (R115, R116). -/
theorem State.Sound.bit_target_of_setStep (h : s.Sound) (hf : s.inFlight = some mu)
    (hcmd : mu.cmd = .add sa hash ∨ mu.cmd = .addc sa hash) (hp : mu.phase = .set)
    (he : exec mu.cmd s = .next t) : t.bit sa.toNat (s.target sa.toNat hash mu.pos) = true := by
  obtain ⟨ph, rfl⟩ := eq_setStep_of_exec hf hcmd hp he
  rw [h.bit_setStep (h.slot_lt_of_insertion hf hcmd)]
  simp

/-- A set bit of a `VALID` slot lies in a word of its vector (R24, R25). -/
theorem State.Sound.word_lt_of_bit (h : s.Sound) (hx : x < s.slots.length)
    (hv : (s.slot x).st = .valid) {b : Nat} (hb : s.bit x b = true) :
    b / 64 < wordCount (s.slot x).m := by
  have hlt : b < (s.slot x).m.toNat := by
    by_contra hge
    have hclear : s.bit x b = false := (h.filter_of_valid hx hv).padding b (by omega)
    simp [hclear] at hb
  unfold wordCount
  omega

/-- The body of a `UNIONIP` keeps every bit of its first operand (R134). -/
theorem State.Sound.bit_unionip (h : s.Sound) (hf : s.inFlight = some mu)
    (hi : mu.cmd = .unionip sa sb) (hp : mu.phase = .body) (he : exec (.unionip sa sb) s = .next t)
    {b : Nat} (hb : s.bit sa.toNat b = true) : t.bit sa.toNat b = true := by
  have hok := h.microOk hf
  simp only [State.microOk, hi, Bool.and_eq_true] at hok
  obtain ⟨-, hh⟩ := exclusiveOk_body hok.2 hp
  obtain ⟨⟨ha, -⟩, hv, -⟩ := h.operands_of_lockList hf hh
  have hx := h.held_lt hf ha
  rw [exec, execUnionip, exclusiveSteps_body hf hp] at he
  split at he <;> obtain rfl := Host.Outcome.next.inj he
  · rw [bit_congr (s := s) (by simp [slot_fail hf])]
    exact hb
  · have hword := h.word_lt_of_bit hx hv hb
    simp only [State.bit, State.wordLoad, bitWord] at hb ⊢
    rw [finish_slot, slot_releaseGuards (s := s.modifySlot _ _) hf, slot_modifySlot_self _ _ _ hx,
      load_mergeWords, if_pos hword, BitVec.getLsbD_or, hb, Bool.true_or]

/-! ## No bit falls -/

/-- A busy port's micro-step is its command's. -/
theorem exec_of_stepPort (hb : (s.port p).busy = some mu) (h : s.stepPort p = .next t) :
    exec mu.cmd { s with turn := p } = .next t := by
  obtain ⟨-, ⟨c, status, hn, -⟩ | ⟨c, i, hn, -⟩ | ⟨nu, hb', he⟩⟩ := stepPort_next h
  · simp [hb] at hn
  · simp [hb] at hn
  · obtain rfl : mu = nu := by simpa [hb] using hb'
    exact he

/-- The writes of `SlotStep` keep every bit of their slot. -/
theorem State.Sound.bit_written (h : s.Sound) (hf : s.inFlight = some mu)
    (he : exec mu.cmd s = .next t)
    (hby : (∃ sa hash, (mu.cmd = .add sa hash ∨ mu.cmd = .addc sa hash) ∧ sa.toNat = x ∧
        mu.phase = .set) ∨
      ∃ sa sb, mu.cmd = .unionip sa sb ∧ sa.toNat = x ∧ mu.phase = .body)
    {b : Nat} (hb : s.bit x b = true) : t.bit x b = true := by
  obtain ⟨sa, hash, hcmd, rfl, hp⟩ | ⟨sa, sb, hcmd, rfl, hp⟩ := hby
  · obtain ⟨ph, rfl⟩ := eq_setStep_of_exec hf hcmd hp he
    rw [h.bit_setStep (h.slot_lt_of_insertion hf hcmd), hb, Bool.true_or]
  · rw [hcmd] at he
    exact h.bit_unionip hf hcmd hp he hb

/-- While a slot stays `VALID` a micro-step leaves its words or is one of the writes (R46, R49). -/
theorem State.Sound.bits_eq_or_written (h : s.Sound) (hp : s.advance.stepPort p = .next t)
    (hs : (s.slot x).st = .valid) (ht : (t.slot x).st = .valid) :
    (t.slot x).bits = (s.slot x).bits ∨ ∃ mu, (s.port p).busy = some mu ∧
      ((∃ sa hash, (mu.cmd = .add sa hash ∨ mu.cmd = .addc sa hash) ∧ sa.toNat = x ∧
          mu.phase = .set) ∨
        ∃ sa sb, mu.cmd = .unionip sa sb ∧ sa.toNat = x ∧ mu.phase = .body) := by
  obtain he | ⟨mu, hb, hstep⟩ := h.stepPort_slotStep hp x
  · exact .inl (by rw [he])
  cases hstep with
  | kept _ hfilter =>
    obtain ⟨-, -, -, hbits, -⟩ := hfilter
    exact .inl hbits
  | counted _ _ _ _ hbits => exact .inl hbits
  | written _ _ _ _ _ hby => exact .inr ⟨mu, hb, hby⟩
  | created hold | reserved hold | copied hold | united hold | givenUp hold =>
    exact absurd (hold.symm.trans hs) (by decide)
  | released _ hst => exact absurd (hst.symm.trans ht) (by decide)

/-- Settles O46: only a set step and a merge change the words of a slot that stays `VALID`, and both
keep every bit. -/
theorem bitsOfAValidSlotNeverFall : Obligations.BitsOfAValidSlotNeverFall := by
  intro s t p x hi hp hs ht
  have h := inv_iff.1 hi
  obtain he | ⟨mu, hb, hby⟩ := h.bits_eq_or_written hp hs ht
  · exact ⟨fun b hb => (bit_congr he b).trans hb, fun hne => absurd he hne⟩
  · have h' := h.withArbitration p s.schedule.tail (s.fresh + 1)
    exact ⟨fun b => h'.bit_written hb (exec_of_stepPort (s := s.advance) hb hp) hby,
      fun _ => ⟨mu, hb, hby⟩⟩

/-! ## The bits of an insertion -/

/-- The bit a hash and a key select stays set while its slot stays `VALID`: bits do not fall (R49),
and the size and the keys that select it do not change (R22, R23). -/
theorem State.Sound.bit_target_stays (h : s.Sound) (hp : s.advance.stepPort q = .next t)
    (hs : (s.slot x).st = .valid) (ht : (t.slot x).st = .valid) :
    (∀ j, t.target x hash j = s.target x hash j) ∧
      ∀ j, s.bit x (s.target x hash j) = true → t.bit x (t.target x hash j) = true := by
  have hi := inv_iff.2 h
  obtain ⟨hm, -, hkeys⟩ := sizeAndKeysAreImmutable s t x hi ⟨q, hp⟩ hs ht
  have htarget : ∀ j, t.target x hash j = s.target x hash j := fun j => by
    simp [State.target, State.key, hm, hkeys]
  obtain ⟨hbit, -⟩ := bitsOfAValidSlotNeverFall s t q x hi hp hs ht
  exact ⟨htarget, fun j hj => by rw [htarget]; exact hbit _ hj⟩

/-- The micro-state of an insertion is one of a loop over the keys of its slot, whose phases lie between
the acquisition and the body (R115, R116). -/
theorem loopOk_of_insertion (hm : s.microOk mu = true)
    (hcmd : mu.cmd = .add sa hash ∨ mu.cmd = .addc sa hash) :
    ∃ phases, .acquire ∉ phases ∧ .body ∉ phases ∧ s.loopOk mu sa.toNat phases = true := by
  rw [State.microOk, Bool.and_eq_true] at hm
  obtain ⟨-, hm⟩ := hm
  obtain hc | hc := hcmd <;> rw [hc] at hm
  · exact ⟨_, by decide, by decide, hm⟩
  · exact ⟨_, by decide, by decide, hm⟩

/-- An insertion holds its slot in shared mode, or it has passed no key. -/
theorem held_or_pos_eq_zero (hm : s.microOk mu = true)
    (hcmd : mu.cmd = .add sa hash ∨ mu.cmd = .addc sa hash) :
    mu.held = [(sa.toNat, .shared)] ∨ (mu.held = [] ∧ mu.phase = .acquire ∧ mu.pos = 0) := by
  obtain ⟨phases, -, -, hl⟩ := loopOk_of_insertion hm hcmd
  obtain ⟨-, ⟨hp, hh, h0⟩ | ⟨hh, -⟩⟩ := loopOk_iff.1 hl
  · exact .inr ⟨hh, hp, h0⟩
  · exact .inl hh

/-- The slot of an insertion that holds a guard is `VALID`. -/
theorem State.Sound.valid_of_insertion (h : s.Sound) (hb : (s.port p).busy = some mu)
    (hcmd : mu.cmd = .add sa hash ∨ mu.cmd = .addc sa hash) (hh : mu.held ≠ []) :
    (s.slot sa.toNat).st = .valid := by
  obtain hg | ⟨h0, -⟩ := held_or_pos_eq_zero (microOk_of_inv (inv_iff.2 h) hb) hcmd
  · have hmem : (sa.toNat, Mode.shared) ∈ (s.port p).holds := by simp [Port.holds, hb, hg]
    exact h.valid_of_mem_holds (h.lt_of_mem_holds hmem) hmem
  · exact absurd h0 hh

/-- A micro-step that keeps a command in flight keeps its command (R29). -/
theorem State.Sound.cmd_eq (h : s.Sound) (hp : s.advance.stepPort q = .next t)
    (hb : (s.port q).busy = some mu) (hb' : (t.port q).busy = some mu') : mu'.cmd = mu.cmd := by
  obtain ⟨-, -, -, -, hprog, ⟨-, hpc, -⟩ | ⟨hnone, -⟩⟩ :=
    microStepsAnswerOnceAndKeepOtherPorts _ _ _ hp
  · have hnext : (t.port q).nextCommand = (s.port q).nextCommand := by
      simp [Port.nextCommand, hprog, hpc]
    obtain ⟨c, hn, hd⟩ := (h.withArbitration q s.schedule s.fresh).nextCommand hb
    obtain ⟨c', hn', hd'⟩ :=
      ((h.moves ⟨q, hp⟩).withArbitration q t.schedule t.fresh).nextCommand hb'
    have hc : some c' = some c := hn'.symm.trans (hnext.trans hn)
    obtain rfl := Option.some.inj hc
    exact Option.some.inj (hd'.symm.trans hd)
  · simp [hnone] at hb'

/-- The command in flight after a micro-step that goes on. -/
theorem eq_of_goesOn (h : GoesOn s t mu) (hb : (t.port s.turn).busy = some mu') : mu' = mu := by
  obtain ⟨-, -, -, -, -, -, -, hp⟩ := h
  rw [hp] at hb
  exact (Option.some.inj hb).symm

/-- No command is in flight after an answer. -/
theorem not_busy_of_answers {st : Status} {v : Word} (h : Answers s t st v) :
    (t.port s.turn).busy ≠ some mu' := by
  obtain ⟨-, -, -, -, -, -, -, hp⟩ := h
  simp [hp]

/-- The shared acquisition passes no key (R51). -/
theorem pos_of_sharedAcquisition (hf : s.inFlight = some mu) {ph : Phase}
    (ht : ((s.slot x).st ≠ .valid ∧ t = s.fail .badSlot 0#64) ∨
      ((s.slot x).st = .valid ∧ t = (s.modifySlot x fun u => { u with rd := u.rd + 1 }).setInFlight
        { mu with held := mu.held ++ [(x, .shared)], phase := ph }))
    (hb : (t.port s.turn).busy = some mu') : mu'.pos = mu.pos := by
  have hturn := turn_lt_of_inFlight _ hf
  obtain ⟨-, rfl⟩ | ⟨-, rfl⟩ := ht
  · exact absurd hb (not_busy_of_answers (fail_answers hturn ..))
  · rw [eq_of_goesOn (modifySlot_setInFlight_goesOn hturn ..) hb]

/-- A micro-step of an insertion passes a key in its set step only, and then the one key at its
position (R115, R116). -/
theorem pos_of_insertion (hf : s.inFlight = some mu)
    (hi : i = .add sa hash ∨ i = .addc sa hash) (he : exec i s = .next t)
    (hb : (t.port s.turn).busy = some mu') :
    mu'.pos = mu.pos ∨ (mu.phase = .set ∧ mu'.pos = mu.pos + 1) := by
  have hturn := turn_lt_of_inFlight _ hf
  obtain rfl | rfl := hi
  · obtain ⟨-, -, ht⟩ | ⟨hp, rfl⟩ | ⟨-, rfl⟩ := execAdd_next hf he
    · exact .inl (pos_of_sharedAcquisition hf ht hb)
    · exact .inr ⟨hp, by rw [eq_of_goesOn (modifySlot_setInFlight_goesOn hturn ..) hb]⟩
    · exact absurd hb (not_busy_of_answers (modifySlot_finish_answers hturn ..))
  · obtain ⟨-, -, ht⟩ | ⟨-, rfl⟩ | ⟨hp, rfl⟩ | ⟨-, rfl⟩ := execAddc_next hf he
    · exact .inl (pos_of_sharedAcquisition hf ht hb)
    · exact .inl (by rw [eq_of_goesOn (setInFlight_goesOn hturn _) hb])
    · exact .inr ⟨hp, by rw [eq_of_goesOn (modifySlot_setInFlight_goesOn hturn ..) hb]⟩
    · exact absurd hb (not_busy_of_answers (modifySlot_finish_answers hturn ..))

/-- A command that holds a guard after a micro-step was in flight before it. -/
theorem busy_of_held (hp : s.stepPort q = .next t) (hb' : (t.port q).busy = some mu')
    (hh : mu'.held ≠ []) : ∃ mu, (s.port q).busy = some mu := by
  obtain ⟨hq, ⟨c, status, -, -, -, rfl⟩ | ⟨c, i, -, -, -, ⟨-, rfl⟩ | ⟨-, rfl⟩⟩ | ⟨mu, hb, -⟩⟩ :=
    stepPort_next hp
  · exact absurd hb' (not_busy_of_answers (respond_answers (s := { s with turn := q }) hq ..))
  · exact absurd hb' (not_busy_of_answers (respond_answers (s := { s with turn := q }) hq ..))
  · rw [eq_of_goesOn (setInFlight_goesOn (s := { s with turn := q }) hq _) hb'] at hh
    exact absurd rfl hh
  · exact ⟨mu, hb⟩

/-- The bits of the keys the moving insertion has passed are set: those it had passed stay, and its set
step sets the one of the key it passes. -/
theorem State.Sound.bits_of_moving (h : s.Sound) (hbits : s.bitsBeforeCount)
    (hp : s.advance.stepPort q = .next t) (hb' : (t.port q).busy = some mu') (hh' : mu'.held ≠ [])
    (hcmd' : mu'.cmd = .add sa hash ∨ mu'.cmd = .addc sa hash) {j : Nat} (hj : j < mu'.pos) :
    t.bit sa.toNat (t.target sa.toNat hash j) = true := by
  obtain ⟨mu, hb⟩ : ∃ mu, (s.port q).busy = some mu := busy_of_held (s := s.advance) hp hb' hh'
  have hcmd : mu.cmd = .add sa hash ∨ mu.cmd = .addc sa hash := h.cmd_eq hp hb hb' ▸ hcmd'
  have he := exec_of_stepPort (s := s.advance) hb hp
  have hpos := pos_of_insertion (s := { s.advance with turn := q }) hb hcmd he hb'
  obtain hg | ⟨-, hacq, h0⟩ := held_or_pos_eq_zero (microOk_of_inv (inv_iff.2 h) hb) hcmd
  · have hh : mu.held ≠ [] := by simp [hg]
    have hv := h.valid_of_insertion hb hcmd hh
    have hv' := (h.moves ⟨q, hp⟩).valid_of_insertion hb' hcmd' hh'
    obtain ⟨htarget, hstays⟩ := h.bit_target_stays (hash := hash) hp hv hv'
    by_cases hjs : j < mu.pos
    · exact hstays j (hbits q mu hb hh sa hash hcmd j hjs)
    · obtain ⟨hset, rfl⟩ : mu.phase = .set ∧ j = mu.pos := by
        obtain hpos | ⟨hset, hpos⟩ := hpos
        · omega
        · exact ⟨hset, by omega⟩
      rw [htarget]
      exact (h.withArbitration q s.schedule.tail (s.fresh + 1)).bit_target_of_setStep hb hcmd hset he
  · obtain hpos | ⟨hset, -⟩ := hpos
    · omega
    · simp [hacq] at hset

/-- The bits of the keys passed by an insertion that does not move stay set: its slot is held, so it
stays `VALID`. -/
theorem State.Sound.bits_of_waiting (h : s.Sound) (hbits : s.bitsBeforeCount)
    (hp : s.advance.stepPort q = .next t) (hb : (s.port p).busy = some mu)
    (hb' : (t.port p).busy = some mu) (hh : mu.held ≠ [])
    (hcmd : mu.cmd = .add sa hash ∨ mu.cmd = .addc sa hash) {j : Nat} (hj : j < mu.pos) :
    t.bit sa.toNat (t.target sa.toNat hash j) = true := by
  obtain ⟨-, hstays⟩ := h.bit_target_stays (hash := hash) hp (h.valid_of_insertion hb hcmd hh)
    ((h.moves ⟨q, hp⟩).valid_of_insertion hb' hcmd hh)
  exact hstays j (hbits p mu hb hh sa hash hcmd j hj)

/-- Every move keeps the bits of the keys already passed set (R48 (d), R193). -/
theorem State.Sound.bitsBeforeCount_of_moves (h : s.Sound) (hbits : s.bitsBeforeCount)
    (hm : Moves s t) : t.bitsBeforeCount := by
  obtain ⟨q, hp⟩ := hm
  intro p mu hb hh sa hash hcmd j hj
  by_cases hpq : p = q
  · subst hpq
    exact h.bits_of_moving hbits hp hb hh hcmd hj
  · obtain ⟨-, -, -, hport, -⟩ := microStepsAnswerOnceAndKeepOtherPorts _ _ _ hp
    have hb0 : (s.port p).busy = some mu := (congrArg Port.busy (hport p hpq)).symm.trans hb
    exact h.bits_of_waiting hbits hp hb0 hb hh hcmd hj

/-- No port of a launch state has a command in flight (R182). -/
theorem busy_of_launchOk (h : s.launchOk = true) (p : Nat) : (s.port p).busy = none := by
  by_cases hp : p < s.ports.length
  · simp only [State.launchOk, Bool.and_eq_true, List.all_eq_true] at h
    obtain ⟨-, hports⟩ := h
    have hidle := hports _ (List.getElem_mem hp)
    rw [← port_of_lt] at hidle
    obtain ⟨⟨hidle, -⟩, -⟩ := hidle
    exact Option.isNone_iff_eq_none.1 hidle
  · rw [port_of_ge _ _ (Nat.le_of_not_lt hp)]
    rfl

/-- An insertion at its counting step has passed every key (R115, R116). -/
theorem pos_eq_keyCount (hm : s.microOk mu = true)
    (hcmd : mu.cmd = .add sa hash ∨ mu.cmd = .addc sa hash) (hp : mu.phase = .body) :
    mu.held ≠ [] ∧ mu.pos = s.keyCount sa.toNat := by
  obtain ⟨phases, -, hbody, hl⟩ := loopOk_of_insertion hm hcmd
  obtain ⟨-, ⟨ha, -⟩ | ⟨hh, ⟨hin, -⟩ | ⟨-, hpos⟩⟩⟩ := loopOk_iff.1 hl
  · simp [hp] at ha
  · exact absurd (hp ▸ hin) hbody
  · exact ⟨by simp [hh], hpos⟩

/-- Settles O53: nothing is in flight at launch, every move keeps the passed bits set, and at the
counting step all `k` keys are passed. -/
theorem bitsAreSetBeforeTheCount : Obligations.BitsAreSetBeforeTheCount := by
  refine ⟨fun s hl p mu hb => ?_, fun s t hi hbits hm => ?_,
    fun s p mu sa hash hi hbits hb hcmd hp j hj => ?_⟩
  · simp [busy_of_launchOk hl p] at hb
  · exact (inv_iff.1 hi).bitsBeforeCount_of_moves hbits hm
  · obtain ⟨hh, hpos⟩ := pos_eq_keyCount (microOk_of_inv hi hb) hcmd hp
    exact hbits p mu hb hh sa hash hcmd j (hpos ▸ hj)

end Sys2Proof.Machine
end

section
/-! A command alone that names one slot twice: it takes the slot's guard once and finds the slot
compatible with itself (R57, R132 to R135, R137). -/

namespace Sys2Proof.Machine

variable {s t u : State} {mu mu' : MicroState} {i : Instr} {x p : Nat} {sd sa : SlotNum}

/-! ## One micro-step after another -/

theorem GoesOn.trans (h : GoesOn s t mu) (h' : GoesOn t u mu') : GoesOn s u mu' := by
  obtain ⟨hc, ht, hs, hf, hl, hn, hq, hp⟩ := h
  obtain ⟨hc', ht', hs', hf', hl', hn', hq', hp'⟩ := h'
  exact ⟨hc'.trans hc, ht'.trans ht, hs'.trans hs, hf'.trans hf, hl'.trans hl, hn'.trans hn,
    fun q hne => (hq' q (ht ▸ hne)).trans (hq q hne), by rw [← ht, hp', ht, hp]⟩

theorem GoesOn.answers {st : Status} {v : Word} (h : GoesOn s t mu) (h' : Answers t u st v) :
    Answers s u st v := by
  obtain ⟨hc, ht, hs, hf, hl, hn, hq, hp⟩ := h
  obtain ⟨hc', ht', hs', hf', hl', hn', hq', hp'⟩ := h'
  exact ⟨hc'.trans hc, ht'.trans ht, hs'.trans hs, hf'.trans hf, hl'.trans hl, hn'.trans hn,
    fun q hne => (hq' q (ht ▸ hne)).trans (hq q hne), by rw [← ht, hp', ht, hp]⟩

theorem GoesOn.inFlight (h : GoesOn s t mu) : t.inFlight = some mu := by
  obtain ⟨-, ht, -, -, -, -, -, hp⟩ := h
  rw [State.inFlight, ht, hp]

/-- A port that moves alone takes one micro-step and moves alone from there. -/
theorem solo_of_stepPort (h : s.stepPort p = .next t) (n : Nat) :
    State.solo p (n + 1) s = State.solo p n t := by
  rw [State.solo, h]

/-- A command that goes on takes its next micro-step where its port moves alone. -/
theorem solo_of_goesOn (h : GoesOn s t mu) (he : exec mu.cmd t = .next u) (n : Nat) :
    State.solo s.turn (n + 1) t = State.solo s.turn n u := by
  have hf := h.inFlight
  obtain ⟨-, ht, -⟩ := h
  have hb : (t.port t.turn).busy = some mu := hf
  refine solo_of_stepPort ?_ n
  rw [← ht, State.stepPort, ports_getElem? _ _ (turn_lt_of_inFlight _ hf)]
  simpa only [hb] using he

/-- The decode step of a command whose slots exist (R82). -/
theorem continuesWith_issue (h : AboutTo s p i) (hb : i.slotsBelow s.cfg.numSlots = true) :
    ContinuesWith { s with turn := p } (s.stepPort p) (MicroState.init i) s.slot := by
  have hp : p < s.ports.length := by
    by_contra hp
    simp [AboutTo, port_of_ge _ _ (Nat.le_of_not_lt hp), Port.reset, Port.nextCommand] at h
  have hissue : State.issue { s with turn := p } i =
      State.setInFlight { s with turn := p } (MicroState.init i) := if_pos hb
  rw [stepPort_aboutTo h, exec_idle (s := { s with turn := p }) hp h.1, hissue]
  exact ⟨_, rfl, setInFlight_goesOn hp _, fun _ => rfl⟩

/-! ## The one guard and the body -/

/-- The commands that name slot `sa` twice. -/
def NamesTwice (i : Instr) (sd sa : SlotNum) : Prop :=
  i ∈ [Instr.iscompat sa sa, .verifycompat sa sa, .unionip sa sa, .union sd sa sa]

/-- One granted acquisition brings a command that names one slot twice to its body (R57). -/
theorem continuesWith_oneGuard (hi : NamesTwice i sd sa) (hin : InPhase s i .acquire mu)
    (hh : mu.held = []) (hx : sa.toNat < s.slots.length) (hw : (s.slot sa.toNat).wr = none)
    (hr : (s.slot sa.toNat).rd = 0) (hv : (s.slot sa.toNat).st = .valid) :
    ContinuesWith s (exec i s) { mu with held := [(sa.toNat, .exclusive)], phase := .body }
      (s.slotsWith sa.toNat { s.slot sa.toNat with wr := some s.turn }) := by
  obtain ⟨-, -, hgrant⟩ := exclusiveAcquisitionInLockOrder s mu sd sa sa i [sa.toNat] 0 sa.toNat
    (.inl ⟨hi, by simp⟩) hin rfl (by simpa using hh) hx
  exact hgrant hw hr hv

/-- Every slot is compatible with itself (R130). -/
theorem compatMask_self (a : Slot) : compatMask a a = 0#64 := by
  have hkeys : keyDiff a.k.toNat a.keys a.keys = 0#64 := keyDiff_eq_zero.2 fun _ _ => rfl
  simp [compatMask, keysDiffer, hkeys]

/-- The OR of a vector with itself is the vector: no word lies beyond its count (R24, R25). -/
theorem mergeWords_self {m : Word} {bits : Memory} (hwf : Memory.wf bits = true)
    (hp : PaddingClear m bits) : mergeWords (wordCount m) bits bits = bits := by
  refine memory_ext (mergeWords_wf ..) hwf fun j => ?_
  rw [load_mergeWords, BitVec.or_self]
  split
  · rfl
  next hj =>
    refine BitVec.eq_of_getLsbD_eq fun b hb => ?_
    have hclear := hp (64 * j + b) (by unfold wordCount at hj; omega)
    rw [show (64 * j + b) / 64 = j by omega, show (64 * j + b) % 64 = b by omega] at hclear
    rw [hclear, BitVec.getLsbD_zero]

theorem modifySlot_eq_self {f : Slot → Slot} (h : f (s.slot x) = s.slot x) :
    s.modifySlot x f = s := by
  refine state_ext rfl rfl rfl rfl rfl (by simp) fun y => ?_
  rw [slot_modifySlot]
  split
  next hyx => rw [h, hyx.1]
  next => rfl

/-- The body of a two-filter command without a destination answers and changes no filter where the
slot it names twice holds a vector with clear padding (R132 to R134, R137). -/
theorem exec_body_self {result : Word}
    (hi : (i = .iscompat sa sa ∧ result = 1) ∨ (i = .verifycompat sa sa ∧ result = 0) ∨
      (i = .unionip sa sa ∧ result = 0))
    (hf : s.inFlight = some mu) (hp : mu.phase = .body)
    (hwf : Memory.wf (s.slot sa.toNat).bits = true)
    (hpad : PaddingClear (s.slot sa.toNat).m (s.slot sa.toNat).bits) :
    exec i s = .next (s.finish .ok result) := by
  have hc : s.compat sa sa = 0#64 := compatMask_self _
  obtain ⟨rfl, rfl⟩ | ⟨rfl, rfl⟩ | ⟨rfl, rfl⟩ := hi
  · rw [exec, execIscompat, exclusiveSteps_body hf hp, hc]
    rfl
  · rw [exec, execVerifycompat, exclusiveSteps_body hf hp, if_neg (not_not.2 hc)]
    rfl
  · rw [exec, execUnionip, exclusiveSteps_body hf hp, if_neg (not_not.2 hc)]
    refine congrArg (fun u => Host.Outcome.next (State.finish u .ok 0#64)) (modifySlot_eq_self ?_)
    rw [mergeWords_self hwf hpad]

/-- The body of `UNION` with one source named twice fills its destination (R135, R137). -/
theorem exec_union_body_self (hf : s.inFlight = some mu) (hp : mu.phase = .body) :
    ∃ f, exec (.union sd sa sa) s = .next ((s.modifySlot sd.toNat f).finish .ok 0) := by
  have hc : s.compat sa sa = 0#64 := compatMask_self _
  rw [exec, execUnion, exclusiveSteps_body hf hp, if_neg (not_not.2 hc)]
  exact ⟨_, rfl⟩

/-- A slot held alone after the guard is released. -/
theorem slot_releaseGuards_one (hf : s.inFlight = some mu) (hh : mu.held = [(x, .exclusive)])
    (y : Nat) : s.releaseGuards.slot y = s.slotsWith x { s.slot x with wr := none } y := by
  rw [slot_releaseGuards hf, hh, State.slotsWith]
  by_cases hy : y = x
  · subst hy; simp
  · simp [hy]

/-- Taking an idle guard and releasing it leaves the slots as they were. -/
theorem slotsWith_released (hw : (s.slot x).wr = none) {n : Option Nat}
    (ht : ∀ y, t.slot y = s.slotsWith x { s.slot x with wr := n } y) (y : Nat) :
    t.slotsWith x { t.slot x with wr := none } y = s.slot y := by
  have hold : { s.slot x with wr := none } = s.slot x := by rw [← hw]
  by_cases hy : y = x
  · subst hy; simp [State.slotsWith, ht, hold]
  · simp [State.slotsWith, ht, hy]

/-! ## From decode to the answer -/

theorem lt_of_valid (hv : (s.slot x).st = .valid) : x < s.slots.length := by
  by_contra hx
  simp [slot_of_ge _ _ (Nat.le_of_not_lt hx), Slot.reset] at hv

theorem GoesOn.slots_length (h : GoesOn s t mu) : t.slots.length = s.slots.length := by
  obtain ⟨-, -, -, -, hl, -⟩ := h
  exact hl

section Alone

variable (h : s.Sound) (hab : AboutTo s p i) (hv : (s.slot sa.toNat).st = .valid)
  (hw : (s.slot sa.toNat).wr = none) (hr : (s.slot sa.toNat).rd = 0)
include h hab hv hw hr

/-- `ISCOMPAT`, `VERIFYCOMPAT` and `UNIONIP` of one slot named twice: decode, one guard, the body. -/
theorem endsWith_solo_three {result : Word}
    (hcase : (i = .iscompat sa sa ∧ result = 1) ∨ (i = .verifycompat sa sa ∧ result = 0) ∨
      (i = .unionip sa sa ∧ result = 0)) :
    EndsWith { s with turn := p } (State.solo p 3 s) .ok result s.slot := by
  have hx := lt_of_valid hv
  have hfilter := h.filter_of_valid hx hv
  have hwf := h.memory _ hx
  have hcmd : NamesTwice i sa sa ∧ firstPhase i = .acquire ∧ i.slots = [sa, sa] := by
    obtain ⟨rfl, -⟩ | ⟨rfl, -⟩ | ⟨rfl, -⟩ := hcase <;> exact ⟨by simp [NamesTwice], rfl, rfl⟩
  obtain ⟨hi, hphase, hslots⟩ := hcmd
  have hbelow : i.slotsBelow s.cfg.numSlots = true := by
    simp [Instr.slotsBelow, hslots, ← h.slots, hx]
  obtain ⟨t, hst, hgo, hslot⟩ := continuesWith_issue hab hbelow
  obtain ⟨u, hu, hgo', hslot'⟩ :=
    continuesWith_oneGuard hi ⟨hgo.inFlight, rfl, hphase⟩ rfl (hgo.slots_length ▸ hx)
      (hslot _ ▸ hw) (hslot _ ▸ hr) (hslot _ ▸ hv)
  have hself : u.slot sa.toNat = { s.slot sa.toNat with wr := some t.turn } := by
    simp [hslot', State.slotsWith, hslot]
  have hbody := exec_body_self hcase hgo'.inFlight rfl (by rw [hself]; exact hwf)
    (by rw [hself]; exact hfilter.padding)
  have hturn := turn_lt_of_inFlight _ hgo'.inFlight
  refine ⟨_, ?_, (hgo.trans hgo').answers (finish_answers hturn ..), fun y => ?_⟩
  · rw [solo_of_stepPort hst, solo_of_goesOn hgo hu, solo_of_goesOn (hgo.trans hgo') hbody]
    rfl
  · rw [finish_slot, slot_releaseGuards_one hgo'.inFlight rfl,
      slotsWith_released (hslot _ ▸ hw) hslot', hslot]

/-- `UNION` of one slot named twice: decode, the reservation, one guard, the body. -/
theorem solo_four_union (hi : i = .union sd sa sa) (hfree : (s.slot sd.toNat).st = .free)
    (hsd : sd.toNat < s.cfg.numSlots) :
    ∃ t, State.solo p 4 s = .next t ∧ Answers { s with turn := p } t .ok 0 ∧
      ∀ x, x ≠ sd.toNat → t.slot x = s.slot x := by
  subst hi
  have hx := lt_of_valid hv
  have hsd' : sd.toNat < s.slots.length := h.slots ▸ hsd
  have hne : sa.toNat ≠ sd.toNat := fun he => by simp [← he, hv] at hfree
  have hbelow : (Instr.union sd sa sa).slotsBelow s.cfg.numSlots = true := by
    simp [Instr.slotsBelow, Instr.slots, ← h.slots, hsd', hx]
  obtain ⟨r, hst, hgo, hslot⟩ := continuesWith_issue hab hbelow
  obtain ⟨-, hgrant⟩ := reservationStep r _ sd sa sa _ (.inl rfl) ⟨hgo.inFlight, rfl, rfl⟩ rfl rfl
    (hgo.slots_length ▸ hsd')
  obtain ⟨t, ht, hgo', hslot'⟩ := hgrant (hslot _ ▸ hfree)
  have hother : ∀ y, y ≠ sd.toNat → t.slot y = s.slot y := fun y hy => by
    simp [hslot', State.slotsWith, hy, hslot]
  have hgoReserved := hgo.trans hgo'
  obtain ⟨u, hu, hgoGuard, hslotGuard⟩ :=
    continuesWith_oneGuard (i := .union sd sa sa) (sd := sd) (by simp [NamesTwice])
      ⟨hgoReserved.inFlight, rfl, rfl⟩ rfl (hgoReserved.slots_length ▸ hx) (hother _ hne ▸ hw)
      (hother _ hne ▸ hr) (hother _ hne ▸ hv)
  have hgoBody := hgoReserved.trans hgoGuard
  have hturn := turn_lt_of_inFlight _ hgoBody.inFlight
  obtain ⟨f, hbody⟩ := exec_union_body_self (sd := sd) (sa := sa) hgoBody.inFlight rfl
  refine ⟨_, ?_, hgoBody.answers (modifySlot_finish_answers hturn sd.toNat f ..), fun y hy => ?_⟩
  · rw [solo_of_stepPort hst, solo_of_goesOn hgo ht, solo_of_goesOn hgoReserved hu,
      solo_of_goesOn hgoBody hbody]
    rfl
  · have hrel := slot_releaseGuards_one (s := u.modifySlot sd.toNat f) hgoBody.inFlight rfl y
    rw [finish_slot, hrel, State.slotsWith, slot_modifySlot_ne _ _ _ _ hne,
      slot_modifySlot_ne _ _ _ _ hy]
    exact (slotsWith_released (hother _ hne ▸ hw) hslotGuard y).trans (hother y hy)

end Alone

/-- Settles O36: three micro-steps without a destination, four with the reservation of one. -/
theorem sameSlotTakesOneGuard : Obligations.SameSlotTakesOneGuard := by
  intro s p sd sa i result hinv hab hv hw hr
  have h := inv_iff.1 hinv
  exact ⟨endsWith_solo_three h hab hv hw hr, solo_four_union h hab hv hw hr⟩

end Sys2Proof.Machine
end

section
/-! Which ports may move (R47, R54): a port is enabled where its next micro-step does not wait at a
guard, which the schedule has no part in, and any enabled port may be picked. -/

namespace Sys2Proof.Machine

variable {s t : State} {mu : MicroState} {i : Instr} {p : Nat}

/-! ## What a micro-step awaits -/

/-- A micro-step answers a port that may take it: it does not stop for want of a guard, a command or
a port. -/
def mayMove (r : Result) : Bool :=
  match r with
  | .fault .waiting | .fault .idle | .fault .noPort => false
  | _ => true

theorem mayMove_next (t : State) : mayMove (.next t) = true := rfl

theorem enabled_eq (s : State) (p : Nat) : s.enabled p = mayMove (s.stepPort p) := by
  unfold State.enabled mayMove
  rcases s.stepPort p with _ | f | _
  · rfl
  · cases f <;> rfl
  · rfl

/-- The await of the next exclusive acquisition of a lock order: nobody holds the next guard (R52). -/
def State.nextGrantable (s : State) (mu : MicroState) (order : List Nat) : Bool :=
  (order[mu.held.length]?).all s.exclusiveGrantable

/-- The await of the next micro-step of a command in flight (R51, R52, R102, R114); every other
micro-step has none. -/
def State.grantable (s : State) (mu : MicroState) : Bool :=
  match mu.cmd with
  | .add sa _ | .addc sa _ | .contains sa _ =>
    if mu.phase = .acquire then s.sharedGrantable sa.toNat else true
  | .readword sa _ => if mu.phase = .body then s.sharedGrantable sa.toNat else true
  | .release sa => if mu.phase = .body then s.exclusiveGrantable sa.toNat else true
  | .iscompat sa sb | .verifycompat sa sb | .unionip sa sb | .union _ sa sb =>
    if mu.phase = .acquire then s.nextGrantable mu (s.lockList sa sb) else true
  | .copy _ sa => if mu.phase = .acquire then s.nextGrantable mu [sa.toNat] else true
  | .create .. | .newcompat .. | .getm .. | .getk .. | .getn .. | .getkey .. => true

theorem mayMove_acquireShared (s : State) (mu : MicroState) (x : Nat) (ph : Phase) :
    mayMove (s.acquireShared mu x ph) = s.sharedGrantable x := by
  obtain ⟨hw, e⟩ | ⟨hw, -, e⟩ | ⟨hw, -, e⟩ := acquireShared_cases s mu x ph
  · simpa [e, mayMove, State.sharedGrantable, Option.isSome_iff_ne_none] using hw
  · simp [e, mayMove, State.sharedGrantable, hw]
  · simp [e, mayMove, State.sharedGrantable, hw]

theorem mayMove_acquireExclusive (s : State) (mu : MicroState) (x : Nat) (ph : Phase) :
    mayMove (s.acquireExclusive mu x ph) = s.exclusiveGrantable x := by
  obtain ⟨hbusy, e⟩ | ⟨hw, hr, -, e⟩ | ⟨hw, hr, -, e⟩ := acquireExclusive_cases s mu x ph
  · simpa [e, mayMove, State.exclusiveGrantable, imp_iff_not_or] using hbusy
  · simp [e, mayMove, State.exclusiveGrantable, hw, hr]
  · simp [e, mayMove, State.exclusiveGrantable, hw, hr]

theorem mayMove_acquireNext (s : State) (mu : MicroState) (order : List Nat) :
    mayMove (s.acquireNext mu order) = s.nextGrantable mu order := by
  unfold State.acquireNext State.nextGrantable
  cases order[mu.held.length]? with
  | none => rfl
  | some x => simpa using mayMove_acquireExclusive s mu x _

theorem mayMove_reserve (s : State) (mu : MicroState) (x : Nat) :
    mayMove (s.reserve mu x) = true := by
  obtain ⟨-, e⟩ | ⟨-, e⟩ := reserve_cases s mu x <;> rw [e] <;> rfl

theorem mayMove_readSlot (s : State) (x : Nat) (read : Slot → Status × Word) :
    mayMove (s.readSlot x read) = true := by
  unfold State.readSlot
  split
  · rfl
  · split <;> rfl

theorem mayMove_ite {c : Prop} [Decidable c] {r r' : Result} (h : mayMove r = true)
    (h' : mayMove r' = true) : mayMove (if c then r else r') = true := by
  split
  · exact h
  · exact h'

/-- A command with one micro-step awaits what its body awaits. -/
theorem mayMove_oneStep (hf : s.inFlight = some mu) {body : MicroState → Result} {await : Bool}
    (hbody : mayMove (body mu) = await) :
    mayMove (s.oneStep i body) = if mu.phase = .body then await else true := by
  rw [State.oneStep, microStep_inFlight hf, ← hbody]
  cases mu.phase <;> rfl

/-- A command with one micro-step whose body awaits nothing awaits nothing. -/
theorem mayMove_oneStep_of_body (hf : s.inFlight = some mu) {body : MicroState → Result}
    (hbody : mayMove (body mu) = true) : mayMove (s.oneStep i body) = true :=
  (mayMove_oneStep hf hbody).trans (ite_self true)

/-- A body awaits a grant where it waits without it and answers with it. -/
theorem mayMove_await {await : Bool} {r : Result} (h : mayMove r = true) :
    mayMove (if !await then .fault .waiting else r) = await := by
  cases await
  · rfl
  · exact h

/-- A command that takes exclusive guards awaits the next guard of its order. -/
theorem mayMove_exclusiveSteps (hf : s.inFlight = some mu) {dest : Option SlotNum}
    {order : List Nat} {body : Result} (hbody : mayMove body = true) :
    mayMove (s.exclusiveSteps i dest order body) =
      if mu.phase = .acquire then s.nextGrantable mu order else true := by
  rw [State.exclusiveSteps, microStep_inFlight hf]
  cases mu.phase with
  | reserve =>
    cases dest with
    | none => rfl
    | some sd => exact mayMove_reserve ..
  | acquire => exact mayMove_acquireNext ..
  | body => exact hbody
  | load | set => rfl

/-- A body that needs compatible filters awaits nothing. -/
theorem mayMove_compatibleBody (s u : State) (mask : Word) :
    mayMove (if mask ≠ 0#64 then .next (s.fail .incompatible mask) else .next u) = true :=
  mayMove_ite rfl rfl

/-- The next micro-step of a command in flight may be taken exactly where its await holds (R14). -/
theorem mayMove_exec (hf : s.inFlight = some mu) (hi : mu.cmd = i) :
    mayMove (exec i s) = s.grantable mu := by
  rw [State.grantable, hi]
  cases i with
  | create sd m keys =>
    refine mayMove_oneStep_of_body hf ?_
    split <;> exact mayMove_next _
  | newcompat sd sa =>
    exact mayMove_oneStep_of_body hf
      (mayMove_ite (mayMove_next _) (mayMove_ite (mayMove_next _) (mayMove_next _)))
  | release sa =>
    exact mayMove_oneStep hf (mayMove_await (mayMove_ite (mayMove_next _) (mayMove_next _)))
  | add sa hash =>
    rw [exec, execAdd, microStep_inFlight hf]
    cases mu.phase with
    | acquire => exact mayMove_acquireShared ..
    | reserve | load | set | body => rfl
  | addc sa hash =>
    rw [exec, execAddc, microStep_inFlight hf]
    cases mu.phase with
    | acquire => exact mayMove_acquireShared ..
    | reserve | load | set | body => rfl
  | contains sa hash =>
    rw [exec, execContains, microStep_inFlight hf]
    cases mu.phase with
    | acquire => exact mayMove_acquireShared ..
    | reserve | load | set | body => rfl
  | getm sa | getk sa | getn sa | getkey sa index =>
    exact mayMove_oneStep_of_body hf (mayMove_readSlot ..)
  | readword sa index => exact mayMove_oneStep hf (mayMove_await (mayMove_readSlot ..))
  | iscompat sa sb =>
    rw [exec, execIscompat]
    exact mayMove_exclusiveSteps hf (mayMove_next _)
  | verifycompat sa sb =>
    rw [exec, execVerifycompat]
    exact mayMove_exclusiveSteps hf (mayMove_compatibleBody ..)
  | unionip sa sb =>
    rw [exec, execUnionip]
    exact mayMove_exclusiveSteps hf (mayMove_compatibleBody ..)
  | union sd sa sb =>
    rw [exec, execUnion]
    exact mayMove_exclusiveSteps hf (mayMove_compatibleBody ..)
  | copy sd sa =>
    rw [exec, execCopy]
    exact mayMove_exclusiveSteps hf (mayMove_next _)

/-! ## Enabled ports -/

/-- A port with a command in flight is enabled exactly where its await holds (R14, R47). -/
theorem enabled_of_busy (hb : (s.port p).busy = some mu) : s.enabled p = s.grantable mu := by
  have hf : State.inFlight { s with turn := p } = some mu := hb
  have hp : p < s.ports.length := turn_lt_of_inFlight _ hf
  rw [enabled_eq, State.stepPort, ports_getElem? _ _ hp]
  simp only [hb]
  exact mayMove_exec hf rfl

/-- An idle port is enabled exactly where it has a command left (R82, R168). -/
theorem enabled_of_idle (hp : p < s.ports.length) (hb : (s.port p).busy = none) :
    s.enabled p = (s.port p).nextCommand.isSome := by
  rw [enabled_eq, State.stepPort, ports_getElem? _ _ hp]
  simp only [hb]
  cases (s.port p).nextCommand with
  | none => rfl
  | some c =>
    show mayMove (State.issueCommand { s with turn := p } c) = true
    unfold State.issueCommand
    split
    · rfl
    · rw [exec_idle (s := { s with turn := p }) hp hb]
      rfl

theorem lt_of_enabled (h : s.enabled p = true) : p < s.ports.length := by
  by_contra hp
  simp [enabled_eq, State.stepPort, List.getElem?_eq_none (Nat.le_of_not_lt hp), mayMove] at h

/-- The schedule has no part in whether a port is enabled. -/
theorem enabled_withSchedule (s : State) (schedule : List Nat) (p : Nat) :
    State.enabled { s with schedule := schedule } p = s.enabled p := by
  by_cases hp : p < s.ports.length
  · cases hb : (s.port p).busy with
    | none =>
      rw [enabled_of_idle hp hb]
      exact enabled_of_idle (s := { s with schedule := schedule }) hp hb
    | some mu =>
      rw [enabled_of_busy hb]
      exact enabled_of_busy (s := { s with schedule := schedule }) hb
  · rw [Bool.eq_iff_iff]
    exact ⟨fun h => absurd (lt_of_enabled h) hp, fun h => absurd (lt_of_enabled h) hp⟩

theorem mem_enabledPorts : p ∈ s.enabledPorts ↔ s.enabled p = true := by
  simp only [State.enabledPorts, List.mem_filter, List.mem_range, and_iff_right_iff_imp]
  exact lt_of_enabled

/-- The pick is one of the ports it picks from (R47). -/
theorem mem_of_pick {ps : List Nat} (h : s.pick ps = some p) : p ∈ ps := by
  match ps with
  | [] => simp [State.pick] at h
  | [q] => simpa [State.pick, eq_comm] using h
  | q :: q' :: rest => exact List.mem_of_getElem? h

/-- Some entry of the schedule picks any of the ports (R47, R54). -/
theorem exists_pick {ps : List Nat} (h : p ∈ ps) :
    ∃ choice, ∀ schedule, State.pick { s with schedule := choice :: schedule } ps = some p := by
  obtain ⟨n, hn, hp⟩ := List.mem_iff_getElem.1 h
  refine ⟨n, fun schedule => ?_⟩
  match ps with
  | [] => simp at h
  | [q] => simpa [State.pick, eq_comm] using h
  | q :: q' :: rest =>
    have hmod : n % (rest.length + 2) = n := Nat.mod_eq_of_lt hn
    simp only [State.pick, List.headD_cons, hmod]
    exact List.getElem?_eq_some_iff.2 ⟨hn, hp⟩

/-- Settles O12: the ports a step picks from are the enabled ones, the schedule picks any of them, and
it has no part in which they are. -/
theorem anyEnabledPortMayMove : Obligations.AnyEnabledPortMayMove := by
  constructor
  · intro s p h
    obtain ⟨choice, hpick⟩ := exists_pick (s := s) (mem_enabledPorts.2 h)
    have hports : State.enabledPorts { s with schedule := choice :: s.schedule } =
        s.enabledPorts := by simp [State.enabledPorts, enabled_withSchedule]
    refine ⟨choice, ?_⟩
    rw [step, hports, hpick]
    rfl
  · intro s t h
    unfold step at h
    split at h
    next p hp => exact ⟨p, mem_enabledPorts.1 (mem_of_pick hp), h⟩
    next => split at h <;> simp at h

end Sys2Proof.Machine
end

section
/-! The decoder and the encoder undo each other (R70 to R78): an instruction's encoding passes every
check of the decoder, and an accepted command is put together again from what it decodes to. The rows
of opcode_table.json are the headers that pass the decoder's checks. -/

namespace Sys2Proof

variable {i : Instr} {o : Op} {f g : Header} {words : List Word} {mask bits : Word}

/-! ## The row of an instruction -/

/-- The encoder writes the header of the instruction's own row (R74, R75). -/
theorem encodesRow (i : Instr) : Laws.EncodesRow.Statement i := by
  cases i
  case create => exact Laws.EncodesRow.create ..
  case newcompat => exact Laws.EncodesRow.newcompat ..
  case release => exact Laws.EncodesRow.release ..
  case add => exact Laws.EncodesRow.add ..
  case addc => exact Laws.EncodesRow.addc ..
  case contains => exact Laws.EncodesRow.contains ..
  case getm => exact Laws.EncodesRow.getm ..
  case getk => exact Laws.EncodesRow.getk ..
  case getn => exact Laws.EncodesRow.getn ..
  case getkey => exact Laws.EncodesRow.getkey ..
  case readword => exact Laws.EncodesRow.readword ..
  case iscompat => exact Laws.EncodesRow.iscompat ..
  case verifycompat => exact Laws.EncodesRow.verifycompat ..
  case unionip => exact Laws.EncodesRow.unionip ..
  case union => exact Laws.EncodesRow.union ..
  case copy => exact Laws.EncodesRow.copy ..

@[simp] theorem op_assemble (o : Op) (f : Header) (words : List Word) :
    (o.assemble f words).op = o := by cases o <;> rfl

/-- The rows' opcode values differ, so a row and its opcode value select each other (R74). -/
theorem ofByte_eq_some {b : BitVec 8} : Op.ofByte b = some o ↔ b = o.byte :=
  ⟨fun h => (byte_of_ofByte h).symm, fun h => h ▸ ofByte_byte o⟩

/-! ## Decoding an encoding -/

/-- The encoder writes as many operand words as the header it writes calls for (R77, R78). -/
theorem words_length_encode (hw : i.wellFormed = true) :
    (encode i).words.length = i.op.operandCount (Header.unpack (encode i).header).k32 := by
  cases i with
  | create sd m keys =>
    have hlen : keys.length < 2 ^ 32 := by simpa [Instr.wellFormed] using hw
    have hk : (BitVec.ofNat 32 keys.length).toNat = keys.length := by
      rw [BitVec.toNat_ofNat, Nat.mod_eq_of_lt hlen]
    simp only [encode, unpack_command]
    rw [Instr.op, Op.operandCount, hk]
    exact Nat.add_comm _ 1
  | _ => rfl

/-- The fields and words the encoder writes are those the row's instruction is made of (R72, R73). -/
theorem assemble_encode (i : Instr) :
    i.op.assemble (Header.unpack (encode i).header) (encode i).words = i := by
  cases i <;> simp only [encode, unpack_command] <;> rfl

/-- Settles O1: the encoding of an instruction passes the checks of the instruction's own row, and its
fields make the instruction. -/
theorem decodeOfEncodeIsTheInstruction : Obligations.DecodeOfEncodeIsTheInstruction := by
  intro i hw
  obtain ⟨hrow, hzero⟩ := encodesRow i
  exact decode_eq_ok.2 ⟨i.op, hrow, hzero, words_length_encode hw, assemble_encode i⟩

/-! ## Encoding what was decoded -/

/-- A `CREATE` that passes the count check has at most as many keys as `K32` counts (R77, R78). -/
theorem wellFormed_assemble (hl : words.length = o.operandCount f.k32) :
    (o.assemble f words).wellFormed = true := by
  cases o with
  | create =>
    have hk := f.k32.isLt
    simp only [Op.operandCount] at hl
    simp only [Op.assemble, Instr.wellFormed, List.length_tail, decide_eq_true_eq]
    omega
  | _ => rfl

/-- The unused fields of a header that passes a row's checks are zero (R75). -/
theorem reservedZero_iff :
    o.reservedZero f = true ↔
      (o.usesSA = false → f.sa = 0#8) ∧ (o.usesSB = false → f.sb = 0#8) ∧
      (o.usesSD = false → f.sd = 0#8) ∧ (o.usesK32 = false → f.k32 = 0#32) := by
  simp [Op.reservedZero, and_assoc, or_iff_not_imp_left]

/-- A header and words that pass a row's checks are those the encoder writes for the instruction they
make: the fields the row leaves out are zero, and the count check leaves no word out (R71 to R77). -/
theorem encode_assemble (hop : f.op = o.byte) (hz : o.reservedZero f = true)
    (hl : words.length = o.operandCount f.k32) :
    encode (o.assemble f words) = { header := f.pack, words := words } := by
  obtain ⟨hsa, hsb, hsd, hk32⟩ := reservedZero_iff.1 hz
  obtain ⟨op, sa, sb, sd, k32⟩ := f
  obtain rfl : op = o.byte := hop
  cases o
  case create =>
    obtain rfl : sa = 0#8 := hsa rfl
    obtain rfl : sb = 0#8 := hsb rfl
    obtain ⟨m, keys, rfl⟩ := List.exists_cons_of_length_pos
      (show 0 < words.length by rw [hl]; exact Nat.lt_add_right _ Nat.one_pos)
    have hk : keys.length = k32.toNat := by simpa [Op.operandCount, Nat.add_comm 1] using hl
    simp [Op.assemble, encode, Op.command, hk]
  case add | addc | contains | getkey | readword =>
    obtain rfl : sb = 0#8 := hsb rfl
    obtain rfl : sd = 0#8 := hsd rfl
    obtain rfl : k32 = 0#32 := hk32 rfl
    obtain ⟨w, rfl⟩ := List.length_eq_one_iff.1 hl
    rfl
  all_goals
    obtain rfl : k32 = 0#32 := hk32 rfl
    obtain rfl := List.length_eq_zero_iff.1 hl
  case newcompat | copy =>
    obtain rfl : sb = 0#8 := hsb rfl
    rfl
  case release | getm | getk | getn =>
    obtain rfl : sb = 0#8 := hsb rfl
    obtain rfl : sd = 0#8 := hsd rfl
    rfl
  case iscompat | verifycompat | unionip =>
    obtain rfl : sd = 0#8 := hsd rfl
    rfl
  case union => rfl

/-- Settles O2: an accepted command passes the checks of its row, so the encoder writes it again. -/
theorem encodeOfDecodeIsTheCommand : Obligations.EncodeOfDecodeIsTheCommand := by
  intro c i h
  obtain ⟨o, hop, hz, hl, rfl⟩ := decode_eq_ok.1 h
  refine ⟨wellFormed_assemble hl, ?_⟩
  rw [encode_assemble (ofByte_eq_some.1 hop) hz hl, pack_unpack]

/-! ## The rows of opcode_table.json -/

/-- The AND of two headers is the AND of each field (R71). -/
theorem pack_and (f g : Header) :
    f.pack &&& g.pack =
      Header.pack
        { op := f.op &&& g.op, sa := f.sa &&& g.sa, sb := f.sb &&& g.sb, sd := f.sd &&& g.sd,
          k32 := f.k32 &&& g.k32 } := by
  refine BitVec.and_append.trans (congrArg (· ++ (f.op &&& g.op)) ?_)
  simp only [BitVec.and_append]

theorem pack_inj : f.pack = g.pack ↔ f = g :=
  ⟨fun h => by rw [← unpack_pack f, h, unpack_pack], fun h => h ▸ rfl⟩

/-- The header bits a row fixes: the opcode, and every field the row does not use (R74, R75). -/
def Op.fixedBits (o : Op) : Header where
  op  := 0xFF#8
  sa  := if o.usesSA then 0#8 else 0xFF#8
  sb  := if o.usesSB then 0#8 else 0xFF#8
  sd  := if o.usesSD then 0#8 else 0xFF#8
  k32 := if o.usesK32 then 0#32 else 0xFFFFFFFF#32

/-- The fixed bits of a row's header: its opcode value, and zeros (R74, R75). -/
def Op.fixedValues (o : Op) : Header where
  op  := o.byte
  sa  := 0#8
  sb  := 0#8
  sd  := 0#8
  k32 := 0#32

/-- The table's mask and match of a row are what the row fixes. -/
theorem mask_and_match_of_mem (h : (o, mask, bits) ∈ opcodeTable) :
    mask = o.fixedBits.pack ∧ bits = o.fixedValues.pack := by
  have hall : ∀ row ∈ opcodeTable,
      row.2.1 = row.1.fixedBits.pack ∧ row.2.2 = row.1.fixedValues.pack := by decide
  exact hall _ h

/-- A masked field is zero where the field is used or is zero. -/
theorem and_ite_eq_zero {w : Nat} (x : BitVec w) (used : Bool) :
    x &&& (if used then 0#w else BitVec.allOnes w) = 0#w ↔ (used || x == 0#w) = true := by
  cases used <;> simp

/-- A header fits a row's mask and match where it has the row's opcode and zero unused fields. -/
theorem fits_iff (h : (o, mask, bits) ∈ opcodeTable) (header : Word) :
    header &&& mask = bits ↔
      (Header.unpack header).op = o.byte ∧ o.reservedZero (Header.unpack header) = true := by
  obtain ⟨rfl, rfl⟩ := mask_and_match_of_mem h
  conv_lhs => rw [← pack_unpack header, pack_and, pack_inj]
  generalize Header.unpack header = f
  have h8 : (0xFF#8) = BitVec.allOnes 8 := by decide
  have h32 : (0xFFFFFFFF#32) = BitVec.allOnes 32 := by decide
  simp only [Op.fixedBits, Op.fixedValues, h8, h32, Header.mk.injEq, and_ite_eq_zero,
    BitVec.and_allOnes, Op.reservedZero, Bool.and_eq_true, and_assoc]

/-- The number of operand words R78 gives a row, as its match and `K32 = H[63:32]` tell it. -/
theorem operandCount_of_mem (h : (o, mask, bits) ∈ opcodeTable) (header : Word) :
    (if bits = 0x01#64 then 1 + (header >>> 32).toNat
      else if bits ∈ [0x10#64, 0x11#64, 0x12#64, 0x23#64, 0x24#64] then 1 else 0) =
      o.operandCount (Header.unpack header).k32 := by
  have hk : (Header.unpack header).k32.toNat = (header >>> 32).toNat := by
    have := header.isLt
    simp only [Header.unpack, BitVec.extractLsb'_toNat, BitVec.toNat_ushiftRight,
      Nat.shiftRight_eq_div_pow]
    omega
  obtain ⟨-, rfl⟩ := mask_and_match_of_mem h
  rw [← hk]
  cases o <;> rfl

/-- Settles O3: the decoder's three checks are the row's mask and match and the row's count. -/
theorem decoderAcceptsExactlyTheTableRows : Obligations.DecoderAcceptsExactlyTheTableRows := by
  intro o mask bits h c
  rw [fits_iff h, operandCount_of_mem h]
  constructor
  · rintro ⟨i, rfl, hd⟩
    obtain ⟨o, hop, hz, hl, rfl⟩ := decode_eq_ok.1 hd
    rw [op_assemble]
    exact ⟨⟨ofByte_eq_some.1 hop, hz⟩, hl⟩
  · rintro ⟨⟨hop, hz⟩, hl⟩
    exact ⟨_, op_assemble .., decode_eq_ok.2 ⟨o, ofByte_eq_some.2 hop, hz, hl, rfl⟩⟩

/-- Settles O8: each command R84 works out is the encoding of its instruction. -/
theorem workedEncodingsDecode : Obligations.WorkedEncodingsDecode :=
  ⟨decodeOfEncodeIsTheInstruction (.add 0#8 5#64) rfl,
    decodeOfEncodeIsTheInstruction (.create 0#8 64#64 [1#64]) rfl,
    decodeOfEncodeIsTheInstruction (.union 2#8 0#8 1#8) rfl,
    decodeOfEncodeIsTheInstruction (.unionip 1#8 0#8) rfl⟩

end Sys2Proof
end

section
/-! A port's decode step (R82): the checks of R155 in their order, each answered by its status and 0,
and then the command's first micro-state. And the step that runs it (R47). -/

namespace Sys2Proof.Machine

variable {s : State} {p : Nat} {c : Command} {i : Instr} {o : Op} {st : Status}

/-! ## The decoder's rejections -/

/-- The opcode values no row of the opcode map has (R76). -/
theorem ofByte_eq_none {b : BitVec 8} :
    Op.ofByte b = none ↔
      b.toNat = 0x00 ∨ (0x04 ≤ b.toNat ∧ b.toNat ≤ 0x0F) ∨ (0x13 ≤ b.toNat ∧ b.toNat ≤ 0x1F) ∨
      (0x25 ≤ b.toNat ∧ b.toNat ≤ 0x2F) ∨ (0x35 ≤ b.toNat ∧ b.toNat ≤ 0xFF) := by
  have hlt := b.isLt
  simp only [Op.ofByte, Op.all, List.find?_eq_none, List.forall_mem_cons, Op.byte, beq_iff_eq,
    ← BitVec.toNat_inj, BitVec.toNat_ofNat, Nat.reducePow, Nat.reduceMod, List.not_mem_nil,
    false_imp_iff, implies_true, and_true]
  omega

/-- The decoder answers `IllegalOpcode` exactly where no row has the opcode (R155 step 1). -/
theorem decode_eq_illegalOpcode :
    decode c = .error .illegalOpcode ↔ Op.ofByte (Header.unpack c.header).op = none := by
  refine ⟨fun h => ?_, fun h => by rw [decode, h]⟩
  obtain ⟨-, hnone⟩ | ⟨hbad, -⟩ := decode_eq_error h
  · exact hnone
  · simp at hbad

/-- A command of the opcode map that fails a check of its row is a `BadOperand` (R155 steps 2, 3). -/
theorem decode_eq_badOperand (hop : (Header.unpack c.header).op = o.byte)
    (hbad : ¬ (o.reservedZero (Header.unpack c.header) = true ∧
      c.words.length = o.operandCount (Header.unpack c.header).k32)) :
    decode c = .error .badOperand := by
  have ho := ofByte_eq_some.2 hop
  cases hd : decode c with
  | ok i =>
    obtain ⟨o', ho', hz, hl, -⟩ := decode_eq_ok.1 hd
    obtain rfl := Option.some.inj (ho.symm.trans ho')
    exact absurd ⟨hz, hl⟩ hbad
  | error st =>
    obtain ⟨-, hnone⟩ | ⟨rfl, -⟩ := decode_eq_error hd
    · simp [ho] at hnone
    · rfl

/-! ## The decode step -/

theorem lt_of_nextCommand (hn : (s.port p).nextCommand = some c) : p < s.ports.length := by
  by_contra hp
  simp [port_of_ge _ _ (Nat.le_of_not_lt hp), Port.reset, Port.nextCommand] at hn

/-- The micro-step of an idle port with a command left is the command's decode step (R82). -/
theorem stepPort_idle (hb : (s.port p).busy = none) (hn : (s.port p).nextCommand = some c) :
    s.stepPort p = State.issueCommand { s with turn := p } c := by
  simp [State.stepPort, ports_getElem? _ _ (lt_of_nextCommand hn), hb, hn]

/-- The micro-step of a port with a command in flight is the command's next one (R14). -/
theorem stepPort_busy {mu : MicroState} (hb : (s.port p).busy = some mu) :
    s.stepPort p = exec mu.cmd { s with turn := p } := by
  have hp : p < s.ports.length := turn_lt_of_inFlight { s with turn := p } hb
  simp [State.stepPort, ports_getElem? _ _ hp, hb]

/-- A command the decoder rejects is answered at once, and no slot changes (R82, R155). -/
theorem endsWith_of_decode_error (hb : (s.port p).busy = none)
    (hn : (s.port p).nextCommand = some c) (hd : decode c = .error st) :
    EndsWith { s with turn := p } (s.stepPort p) st 0 s.slot := by
  rw [stepPort_idle hb hn, State.issueCommand, hd]
  exact ⟨_, rfl, respond_answers (lt_of_nextCommand hn) .., fun _ => rfl⟩

theorem aboutTo_of_decode (hb : (s.port p).busy = none) (hn : (s.port p).nextCommand = some c)
    (hd : decode c = .ok i) : AboutTo s p i :=
  ⟨hb, by simp [hn, hd, Except.toOption]⟩

theorem slotsBelow_iff {n : Nat} : i.slotsBelow n = true ↔ ∀ x ∈ i.slots, x.toNat < n := by
  simp [Instr.slotsBelow]

/-- A slot number out of range is answered at once, and no slot changes (R155 step 4). -/
theorem endsWith_badSlot (h : AboutTo s p i) (hbelow : ¬ i.slotsBelow s.cfg.numSlots = true) :
    EndsWith { s with turn := p } (s.stepPort p) .badSlot 0 s.slot := by
  obtain ⟨hb, hn⟩ := h
  obtain ⟨c, hc, -⟩ := Option.bind_eq_some_iff.1 hn
  have hp := lt_of_nextCommand hc
  have hissue : State.issue { s with turn := p } i =
      State.respond { s with turn := p } .badSlot 0 := if_neg hbelow
  rw [stepPort_aboutTo ⟨hb, hn⟩, exec_idle (s := { s with turn := p }) hp hb, hissue]
  exact ⟨_, rfl, respond_answers hp .., fun _ => rfl⟩

/-- Settles O7: the decoder's status first, then the slot numbers, then the first micro-state. -/
theorem decodeStepChecksThenStarts : Obligations.DecodeStepChecksThenStarts := by
  intro s p c hb hn
  refine ⟨fun st hd => endsWith_of_decode_error hb hn hd, fun i hd hx => ?_, fun i hd hx => ?_⟩
  · obtain ⟨x, hx, hge⟩ := hx
    exact endsWith_badSlot (aboutTo_of_decode hb hn hd) fun hbelow =>
      absurd (slotsBelow_iff.1 hbelow x hx) (Nat.not_lt.2 hge)
  · exact continuesWith_issue (aboutTo_of_decode hb hn hd) (slotsBelow_iff.2 hx)

/-- Settles O4: the opcode is the header's low byte, and the decoder's rejection is answered. -/
theorem illegalOpcodesDoNothing : Obligations.IllegalOpcodesDoNothing := by
  rintro c op rfl
  have hop : (Header.unpack c.header).op.toNat = c.header.toNat % 256 := by
    simp [Header.unpack]
  exact ⟨by rw [decode_eq_illegalOpcode, ofByte_eq_none, hop],
    fun s p hb hn hd => endsWith_of_decode_error hb hn hd⟩

/-- Settles O5: a header with the row's opcode that does not fit the row fails the row's zero check. -/
theorem nonzeroUnusedFieldsDoNothing : Obligations.NonzeroUnusedFieldsDoNothing := by
  intro o mask bits h s p c hb hn hop hfit
  refine endsWith_of_decode_error hb hn (decode_eq_badOperand hop fun hok => hfit ?_)
  exact (fits_iff h c.header).2 ⟨hop, hok.1⟩

/-- Settles O6: a wrong number of operand words fails the row's count check. -/
theorem wrongOperandCountsDoNothing : Obligations.WrongOperandCountsDoNothing := by
  intro o mask bits h s p c hb hn hop hcount
  refine endsWith_of_decode_error hb hn (decode_eq_badOperand hop fun hok => hcount ?_)
  rw [operandCount_of_mem h, hok.2]

/-! ## The step -/

/-- Settles O10: the step is the picked port's micro-step, which is its command's. -/
theorem stepRunsTheDecodedCommand : Obligations.StepRunsTheDecodedCommand := by
  intro s p hpick
  have hstep : step s = s.advance.stepPort p := by rw [step, hpick]
  rw [hstep]
  exact ⟨fun mu hb => stepPort_busy (s := s.advance) hb,
    fun i h => stepPort_aboutTo (s := s.advance) h⟩

end Sys2Proof.Machine
end

section
/-! The result word of a response (R80): what each command can answer with, said once over all
sixteen commands. -/

namespace Sys2Proof.Machine

variable {s t u : State} {mu : MicroState} {i : Instr} {st : Status} {v : Word} {r : Response}

/-! ## The results a command can give -/

/-- The commands whose `OK` response carries a flag (R80). -/
def returnsFlag (i : Instr) : Bool := i.op ∈ [Op.addc, .contains, .iscompat]

/-- The commands whose `OK` response carries a value (R80). -/
def returnsValue (i : Instr) : Bool := i.op ∈ [Op.getm, .getk, .getn, .getkey, .readword]

/-- The commands that report which of the filters' parameters differ (R80, R131). -/
def returnsMask (i : Instr) : Bool := i.op ∈ [Op.verifycompat, .unionip, .union]

/-- The responses of command `i` that keep R80: a result of 0 where the status carries none, a flag, a
value, or a nonzero mask of 3 bits. -/
inductive KeepsR80 (i : Instr) : Response → Prop where
  | zero (st : Status) (h : st ≠ .incompatible) : KeepsR80 i { status := st, result := 0 }
  | flag (b : Bool) (h : returnsFlag i = true) :
      KeepsR80 i { status := .ok, result := flagWord b }
  | value (v : Word) (h : returnsValue i = true) : KeepsR80 i { status := .ok, result := v }
  | mask (v : Word) (h : returnsMask i = true) (hne : v ≠ 0) (hlt : v.toNat < 8) :
      KeepsR80 i { status := .incompatible, result := v }

theorem flagWord_eq (b : Bool) : flagWord b = 0 ∨ flagWord b = 1 := by cases b <;> decide

/-- The statement's three clauses, of a response that keeps R80. -/
theorem KeepsR80.clauses (h : KeepsR80 i r) :
    (r.result ≠ 0 →
      (r.status = .ok ∧
        i.op ∈ [Op.addc, .contains, .iscompat, .getm, .getk, .getn, .getkey, .readword]) ∨
      (r.status = .incompatible ∧ i.op ∈ [Op.verifycompat, .unionip, .union])) ∧
    (r.status = .incompatible → r.result ≠ 0 ∧ r.result.toNat < 8) ∧
    (i.op ∈ [Op.addc, .contains, .iscompat] → r.result = 0 ∨ r.result = 1) := by
  cases h with
  | zero st h => exact ⟨fun hne => absurd rfl hne, fun hst => absurd hst h, fun _ => .inl rfl⟩
  | flag b h =>
    have hop : i.op ∈ [Op.addc, .contains, .iscompat] := by simpa [returnsFlag] using h
    exact ⟨fun _ => .inl ⟨rfl, List.mem_append_left _ hop⟩, by simp, fun _ => flagWord_eq b⟩
  | value v h =>
    have hop : i.op ∈ [Op.getm, .getk, .getn, .getkey, .readword] := by
      simpa [returnsValue] using h
    refine ⟨fun _ => .inl ⟨rfl, List.mem_append_right [Op.addc, .contains, .iscompat] hop⟩, by simp,
      fun hflag => ?_⟩
    have hdisjoint : ∀ o ∈ [Op.addc, .contains, .iscompat],
        o ∉ [Op.getm, .getk, .getn, .getkey, .readword] := by decide
    exact absurd hop (hdisjoint _ hflag)
  | mask v h hne hlt =>
    have hop : i.op ∈ [Op.verifycompat, .unionip, .union] := by simpa [returnsMask] using h
    refine ⟨fun _ => .inr ⟨rfl, hop⟩, fun _ => ⟨hne, hlt⟩, fun hflag => ?_⟩
    have hdisjoint : ∀ o ∈ [Op.addc, .contains, .iscompat],
        o ∉ [Op.verifycompat, .unionip, .union] := by decide
    exact absurd hop (hdisjoint _ hflag)

/-- The mask of two filters has 3 bits (R131). -/
theorem compatMask_lt (a b : Slot) : (compatMask a b).toNat < 8 := by
  unfold compatMask
  split_ifs <;> decide

/-! ## Every command -/

/-- From `s` to `t` command `i` gives no response that breaks R80. -/
def ResponseKeepsR80 (s t : State) (i : Instr) : Prop :=
  ∀ r, (t.port s.turn).resp = (s.port s.turn).resp ++ [r] → KeepsR80 i r

theorem keepsR80_of_goesOn (h : GoesOn s t mu) : ResponseKeepsR80 s t i := by
  obtain ⟨-, -, -, -, -, -, -, hp⟩ := h
  intro r hr
  simp [hp] at hr

theorem keepsR80_of_answers (h : Answers s t st v)
    (hfit : KeepsR80 i { status := st, result := v }) : ResponseKeepsR80 s t i := by
  obtain ⟨-, -, -, -, -, -, -, hp⟩ := h
  intro r hr
  have he : { status := st, result := v } = r := by simpa [hp] using hr
  exact he ▸ hfit

theorem keepsR80_setInFlight (hf : s.inFlight = some mu) (mu' : MicroState) :
    ResponseKeepsR80 s (s.setInFlight mu') i :=
  keepsR80_of_goesOn (setInFlight_goesOn (turn_lt_of_inFlight _ hf) _)

theorem keepsR80_modifySlot_setInFlight (hf : s.inFlight = some mu) (x : Nat) (f : Slot → Slot)
    (mu' : MicroState) : ResponseKeepsR80 s ((s.modifySlot x f).setInFlight mu') i :=
  keepsR80_of_goesOn (modifySlot_setInFlight_goesOn (turn_lt_of_inFlight _ hf) ..)

theorem keepsR80_finish (hf : s.inFlight = some mu)
    (hfit : KeepsR80 i { status := .ok, result := v }) :
    ResponseKeepsR80 s (s.finish .ok v) i :=
  keepsR80_of_answers (finish_answers (turn_lt_of_inFlight _ hf) ..) hfit

theorem keepsR80_modifySlot_finish (hf : s.inFlight = some mu) (x : Nat) (f : Slot → Slot)
    (hfit : KeepsR80 i { status := .ok, result := v }) :
    ResponseKeepsR80 s ((s.modifySlot x f).finish .ok v) i :=
  keepsR80_of_answers (modifySlot_finish_answers (turn_lt_of_inFlight _ hf) ..) hfit

/-- A failure with result 0 keeps R80, whatever the command. -/
theorem keepsR80_fail (hf : s.inFlight = some mu) (hst : st ≠ .incompatible) :
    ResponseKeepsR80 s (s.fail st 0#64) i :=
  keepsR80_of_answers (fail_answers (turn_lt_of_inFlight _ hf) ..) (.zero st hst)

theorem keepsR80_sharedAcquisition (hf : s.inFlight = some mu) {x : Nat} {ph : Phase}
    (h : ((s.slot x).st ≠ .valid ∧ t = s.fail .badSlot 0#64) ∨
      ((s.slot x).st = .valid ∧ t = (s.modifySlot x fun u => { u with rd := u.rd + 1 }).setInFlight
        { mu with held := mu.held ++ [(x, .shared)], phase := ph })) :
    ResponseKeepsR80 s t i := by
  obtain ⟨-, rfl⟩ | ⟨-, rfl⟩ := h
  · exact keepsR80_fail hf (by decide)
  · exact keepsR80_modifySlot_setInFlight hf _ _ _

/-- Up to its body a command that takes exclusive guards answers with result 0 if at all. -/
theorem keepsR80_exclusiveSteps (hf : s.inFlight = some mu) {dest : Option SlotNum}
    {order : List Nat} {body : Result} (h : s.exclusiveSteps i dest order body = .next t)
    (hbody : body = .next t → ResponseKeepsR80 s t i) : ResponseKeepsR80 s t i := by
  obtain ⟨-, sd, -, ⟨-, rfl⟩ | ⟨-, rfl⟩⟩ | ⟨-, x, -, -, -, ⟨-, rfl⟩ | ⟨-, rfl⟩⟩ | ⟨-, hb⟩ :=
    exclusiveSteps_next hf h
  · exact keepsR80_fail hf (by decide)
  · exact keepsR80_modifySlot_setInFlight hf _ _ _
  · exact keepsR80_fail hf (by decide)
  · exact keepsR80_modifySlot_setInFlight hf _ _ _
  · exact hbody hb

/-- A body that needs compatible filters answers with their mask where it is not 0 (R133 to R135). -/
theorem keepsR80_compatibleBody (hf : s.inFlight = some mu) (hi : returnsMask i = true)
    {sa sb : SlotNum} (hu : ResponseKeepsR80 s u i)
    (h : (if s.compat sa sb ≠ 0#64 then .next (s.fail .incompatible (s.compat sa sb))
      else .next u : Result) = .next t) : ResponseKeepsR80 s t i := by
  split at h <;> obtain rfl := Host.Outcome.next.inj h
  next hne =>
    exact keepsR80_of_answers (fail_answers (turn_lt_of_inFlight _ hf) ..)
      (.mask _ hi hne (compatMask_lt ..))
  next => exact hu

/-- Every response a micro-step of a command in flight gives keeps R80. -/
theorem exec_keepsR80 (hf : s.inFlight = some mu) (h : exec i s = .next t) :
    ResponseKeepsR80 s t i := by
  have hok : Status.ok ≠ .incompatible := by decide
  cases i with
  | create sd m keys =>
    obtain ⟨-, ⟨status, hs, rfl⟩ | ⟨-, -, -, -, -, -, rfl⟩⟩ := execCreate_next hf h
    · exact keepsR80_fail hf (by rintro rfl; simpa using createCheck_status hs)
    · exact keepsR80_modifySlot_finish hf _ _ (.zero _ hok)
  | newcompat sd sa =>
    obtain ⟨-, ⟨-, rfl⟩ | ⟨-, -, rfl⟩ | ⟨-, -, rfl⟩⟩ := execNewcompat_next hf h
    · exact keepsR80_fail hf (by decide)
    · exact keepsR80_fail hf (by decide)
    · exact keepsR80_modifySlot_finish hf _ _ (.zero _ hok)
  | release sa =>
    obtain ⟨-, -, -, ⟨-, rfl⟩ | ⟨-, rfl⟩⟩ := execRelease_next hf h
    · exact keepsR80_fail hf (by decide)
    · exact keepsR80_modifySlot_finish hf _ _ (.zero _ hok)
  | add sa hash =>
    obtain ⟨-, -, h⟩ | ⟨-, rfl⟩ | ⟨-, rfl⟩ := execAdd_next hf h
    · exact keepsR80_sharedAcquisition hf h
    · exact keepsR80_modifySlot_setInFlight hf _ _ _
    · exact keepsR80_modifySlot_finish hf _ _ (.zero _ hok)
  | addc sa hash =>
    obtain ⟨-, -, h⟩ | ⟨-, rfl⟩ | ⟨-, rfl⟩ | ⟨-, rfl⟩ := execAddc_next hf h
    · exact keepsR80_sharedAcquisition hf h
    · exact keepsR80_setInFlight hf _
    · exact keepsR80_modifySlot_setInFlight hf _ _ _
    · exact keepsR80_modifySlot_finish hf _ _ (.flag _ rfl)
  | contains sa hash =>
    obtain ⟨-, -, h⟩ | ⟨-, rfl⟩ | ⟨-, rfl⟩ := execContains_next hf h
    · exact keepsR80_sharedAcquisition hf h
    · exact keepsR80_setInFlight hf _
    · exact keepsR80_finish hf (.flag _ rfl)
  | getm sa =>
    obtain ⟨-, ⟨-, rfl⟩ | ⟨-, rfl⟩⟩ := execGetm_next hf h
    · exact keepsR80_fail hf (by decide)
    · exact keepsR80_finish hf (.value _ rfl)
  | getk sa =>
    obtain ⟨-, ⟨-, rfl⟩ | ⟨-, rfl⟩⟩ := execGetk_next hf h
    · exact keepsR80_fail hf (by decide)
    · exact keepsR80_finish hf (.value _ rfl)
  | getn sa =>
    obtain ⟨-, ⟨-, rfl⟩ | ⟨-, rfl⟩⟩ := execGetn_next hf h
    · exact keepsR80_fail hf (by decide)
    · exact keepsR80_finish hf (.value _ rfl)
  | getkey sa index =>
    obtain ⟨-, ⟨-, rfl⟩ | ⟨-, -, rfl⟩ | ⟨-, -, rfl⟩⟩ := execGetkey_next hf h
    · exact keepsR80_fail hf (by decide)
    · exact keepsR80_fail hf (by decide)
    · exact keepsR80_finish hf (.value _ rfl)
  | readword sa index =>
    obtain ⟨-, -, ⟨-, rfl⟩ | ⟨-, -, rfl⟩ | ⟨-, -, rfl⟩⟩ := execReadword_next hf h
    · exact keepsR80_fail hf (by decide)
    · exact keepsR80_fail hf (by decide)
    · exact keepsR80_finish hf (.value _ rfl)
  | iscompat sa sb =>
    rw [exec, execIscompat] at h
    refine keepsR80_exclusiveSteps hf h fun hb => ?_
    obtain rfl := Host.Outcome.next.inj hb
    exact keepsR80_finish hf (.flag _ rfl)
  | verifycompat sa sb =>
    rw [exec, execVerifycompat] at h
    exact keepsR80_exclusiveSteps hf h
      (keepsR80_compatibleBody hf rfl (keepsR80_finish hf (.zero _ hok)))
  | unionip sa sb =>
    rw [exec, execUnionip] at h
    exact keepsR80_exclusiveSteps hf h
      (keepsR80_compatibleBody hf rfl (keepsR80_modifySlot_finish hf _ _ (.zero _ hok)))
  | union sd sa sb =>
    rw [exec, execUnion] at h
    exact keepsR80_exclusiveSteps hf h
      (keepsR80_compatibleBody hf rfl (keepsR80_modifySlot_finish hf _ _ (.zero _ hok)))
  | copy sd sa =>
    rw [exec, execCopy] at h
    refine keepsR80_exclusiveSteps hf h fun hb => ?_
    obtain rfl := Host.Outcome.next.inj hb
    exact keepsR80_modifySlot_finish hf _ _ (.zero _ hok)

/-- Settles O38: a response comes from a slot number out of range, with result 0, or from a micro-step
of the command in flight, which the invariant makes the port's next command. -/
theorem resultsAreZeroButWhereR80SaysOtherwise :
    Obligations.ResultsAreZeroButWhereR80SaysOtherwise := by
  intro s t p i r hi hn h hr
  refine KeepsR80.clauses ?_
  obtain ⟨c, hc, hdec⟩ := Option.bind_eq_some_iff.1 hn
  obtain ⟨hp, ⟨c', st, -, hc', hd, -⟩ | ⟨c', i', -, -, -, ⟨-, rfl⟩ | ⟨-, rfl⟩⟩ | ⟨mu, hb, he⟩⟩ :=
    stepPort_next h
  · obtain rfl := Option.some.inj (hc.symm.trans hc')
    simp [hd, Except.toOption] at hdec
  · exact keepsR80_of_answers (s := { s with turn := p }) (respond_answers hp ..)
      (.zero _ (by decide)) r hr
  · exact keepsR80_of_goesOn (s := { s with turn := p }) (setInFlight_goesOn hp _) r hr
  · have hs := (inv_iff.1 hi).withArbitration p s.schedule s.fresh
    obtain ⟨c', hc', hd'⟩ := hs.nextCommand (mu := mu) hb
    obtain rfl := Option.some.inj (hc.symm.trans hc')
    obtain rfl := Option.some.inj (hdec.symm.trans hd')
    exact exec_keepsR80 (s := { s with turn := p }) hb he r hr

end Sys2Proof.Machine
end

section
/-! The lifecycle commands (R100 to R102), each one micro-step as a whole: what it answers and what
it makes of the slots. -/

namespace Sys2Proof.Machine

variable {s : State} {mu : MicroState} {x : Nat}

/-! ## The endings of a command that holds nothing -/

section Free

variable (hf : s.inFlight = some mu) (hh : mu.held = [])
include hf hh

/-- A command that holds no guard changes one slot and answers: that is the whole change. -/
theorem endsWith_modifySlot (hx : x < s.slots.length) (f : Slot → Slot) (st : Status) (v : Word) :
    EndsWith s (.next ((s.modifySlot x f).finish st v)) st v (s.slotsWith x (f (s.slot x))) := by
  refine ⟨_, rfl, modifySlot_finish_answers (turn_lt_of_inFlight _ hf) .., fun y => ?_⟩
  rw [finish_slot, releaseGuards_of_nil (s := s.modifySlot x f) hf hh]
  simp [State.slotsWith, slot_modifySlot, hx]

/-- A failure of a command that holds and reserves nothing changes no slot (R14). -/
theorem endsWith_fail_of_nil (hr : mu.reserved = none) (st : Status) (v : Word) :
    EndsWith s (.next (s.fail st v)) st v s.slot :=
  endsWith_fail hf st v (slot_fail_of_nil hf hh hr st v)

end Free

/-! ## CREATE -/

/-- The duplicate of R100, two equal keys at positions `i < j`. -/
theorem exists_getD_eq_iff_not_nodup {keys : List Word} :
    (∃ j, j < keys.length ∧ ∃ i, i < j ∧ keys.getD i 0 = keys.getD j 0) ↔ ¬ keys.Nodup := by
  have hkey : ∀ {i j : Nat}, i < j → j < keys.length →
      (keys.getD i 0 = keys.getD j 0 ↔ keys[i]? = keys[j]?) := fun hij hj => by
    simp [hj, hij.trans hj]
  rw [List.nodup_iff_getElem?_ne_getElem?]
  push Not
  constructor
  · rintro ⟨j, hj, i, hij, he⟩
    exact ⟨i, j, hij, hj, (hkey hij hj).1 he⟩
  · rintro ⟨i, j, hij, hj, he⟩
    exact ⟨j, hj, i, hij, (hkey hij hj).2 he⟩

section Create

variable {sd : SlotNum} {m : Word} {keys : List Word} (hf : s.inFlight = some mu)
  (hp : mu.phase = .body)
include hf hp

theorem exec_create_of_check {status : Status}
    (h : createCheck s.cfg (s.slot sd.toNat) m keys = some status) :
    exec (.create sd m keys) s = .next (s.fail status 0#64) := by
  rw [exec, execCreate, oneStep_body hf hp, h]

theorem exec_create_of_check_none (h : createCheck s.cfg (s.slot sd.toNat) m keys = none) :
    exec (.create sd m keys) s =
      .next ((s.fillSlot sd.toNat m (BitVec.ofNat 32 keys.length) keys Memory.zero 0#64).finish
        .ok 0#64) := by
  rw [exec, execCreate, oneStep_body hf hp, h]

end Create

/-- Settles O18: the statement's chain of checks is `createCheck`, which decides the micro-step. -/
theorem createChecksThenFills : Obligations.CreateChecksThenFills := by
  rintro s mu sd m keys ⟨hf, -, hp⟩ hh hr hx
  have hfails : ∀ {status}, createCheck s.cfg (s.slot sd.toNat) m keys = some status →
      EndsWith s (exec (.create sd m keys) s) status 0 s.slot := fun hc =>
    exec_create_of_check hf hp hc ▸ endsWith_fail_of_nil hf hh hr _ _
  have hdup := exists_getD_eq_iff_not_nodup (keys := keys)
  have hnodup := not_imp_comm.1 hdup.2
  split_ifs with hst hk hm hn hl
  · exact hfails (by simp [createCheck, hst])
  · exact hfails (by simp [createCheck, hst, hk])
  · exact hfails (by simp [createCheck, hst, hk, hm])
  · exact hfails (by simp [createCheck, hst, hk, hm, hdup.1 hn])
  · exact hfails (by simpa [createCheck, hst, hk, hm, hnodup hn, imp_iff_not_or] using hl)
  · rw [exec_create_of_check_none hf hp
      (by simpa [createCheck, hst, hk, hm, hnodup hn] using hl)]
    exact endsWith_modifySlot hf hh hx ..

/-! ## NEWCOMPAT -/

/-- What `NEWCOMPAT` can do (R101). -/
theorem exec_newcompat_cases {sd sa : SlotNum} (hf : s.inFlight = some mu) (hp : mu.phase = .body) :
    ((s.slot sd.toNat).st ≠ .free ∧
      exec (.newcompat sd sa) s = .next (s.fail .slotBusy 0#64)) ∨
    ((s.slot sd.toNat).st = .free ∧ (s.slot sa.toNat).st ≠ .valid ∧
      exec (.newcompat sd sa) s = .next (s.fail .badSlot 0#64)) ∨
    ((s.slot sd.toNat).st = .free ∧ (s.slot sa.toNat).st = .valid ∧
      exec (.newcompat sd sa) s =
        .next ((s.fillSlot sd.toNat (s.slot sa.toNat).m (s.slot sa.toNat).k (s.slot sa.toNat).keys
          Memory.zero 0#64).finish .ok 0#64)) := by
  rw [exec, execNewcompat, oneStep_body hf hp]
  by_cases hd : (s.slot sd.toNat).st = .free <;> by_cases ha : (s.slot sa.toNat).st = .valid <;>
    simp [State.isFree, State.isValid, hd, ha]

/-- Settles O19: the three outcomes of `exec_newcompat_cases`. -/
theorem newcompatClonesEmpty : Obligations.NewcompatClonesEmpty := by
  rintro s mu sd sa ⟨hf, -, hp⟩ hh hr hx
  obtain ⟨hd, e⟩ | ⟨hd, ha, e⟩ | ⟨hd, ha, e⟩ := exec_newcompat_cases (sd := sd) (sa := sa) hf hp <;>
    rw [e]
  · rw [if_pos hd]
    exact endsWith_fail_of_nil hf hh hr _ _
  · rw [if_neg (not_not_intro hd), if_pos ha]
    exact endsWith_fail_of_nil hf hh hr _ _
  · rw [if_neg (not_not_intro hd), if_neg (not_not_intro ha)]
    exact endsWith_modifySlot hf hh hx ..

/-! ## RELEASE -/

/-- What `RELEASE` can do (R102): it awaits as an exclusive acquisition does (R52). -/
theorem exec_release_cases {sa : SlotNum} (hf : s.inFlight = some mu) (hp : mu.phase = .body) :
    (((s.slot sa.toNat).wr ≠ none ∨ (s.slot sa.toNat).rd ≠ 0) ∧
      exec (.release sa) s = .fault .waiting) ∨
    ((s.slot sa.toNat).wr = none ∧ (s.slot sa.toNat).rd = 0 ∧ (s.slot sa.toNat).st ≠ .valid ∧
      exec (.release sa) s = .next (s.fail .badSlot 0#64)) ∨
    ((s.slot sa.toNat).wr = none ∧ (s.slot sa.toNat).rd = 0 ∧ (s.slot sa.toNat).st = .valid ∧
      exec (.release sa) s = .next ((s.freeSlot sa.toNat).finish .ok 0#64)) := by
  rw [exec, execRelease, oneStep_body hf hp]
  by_cases hw : (s.slot sa.toNat).wr = none <;> by_cases hd : (s.slot sa.toNat).rd = 0 <;>
    by_cases hv : (s.slot sa.toNat).st = .valid <;>
    simp [State.exclusiveGrantable, State.isValid, hw, hd, hv]

/-- Settles O20: the three outcomes of `exec_release_cases`; freeing a slot keeps its guard idle. -/
theorem releaseWaitsThenFrees : Obligations.ReleaseWaitsThenFrees := by
  rintro s mu sa ⟨hf, -, hp⟩ hh hr hx
  obtain ⟨hbusy, e⟩ | ⟨hw, hd, hv, e⟩ | ⟨hw, hd, hv, e⟩ := exec_release_cases (sa := sa) hf hp <;>
    rw [e]
  · exact ⟨fun _ => rfl, fun hw hd => absurd hbusy (by simp [hw, hd]),
      fun hw hd => absurd hbusy (by simp [hw, hd])⟩
  · exact ⟨fun hbusy => absurd hbusy (by simp [hw, hd]),
      fun _ _ _ => endsWith_fail_of_nil hf hh hr _ _, fun _ _ h0 => absurd h0 hv⟩
  · refine ⟨fun hbusy => absurd hbusy (by simp [hw, hd]), fun _ _ h0 => absurd hv h0,
      fun _ _ _ => ?_⟩
    obtain ⟨t, ht, hans, hslot⟩ := endsWith_modifySlot hf hh hx _ .ok 0#64
    refine ⟨t, ht, hans, ?_, ?_, ?_, fun y hy => ?_⟩
    · simp [hslot, State.slotsWith]
    · simpa [hslot, State.slotsWith] using hw
    · simpa [hslot, State.slotsWith] using hd
    · simp [hslot, State.slotsWith, hy]

end Sys2Proof.Machine
end

section
/-! No false negatives, at every interleaving (R118): an insertion that has answered leaves the bits of
its hash set, they stay set while the slot is `VALID`, and a test that finds every bit set answers 1. -/

namespace Sys2Proof.Machine

variable {s t : State} {mu mu' : MicroState} {i : Instr} {x p q n : Nat} {sa : SlotNum}
  {hash : Word}

/-! ## One command of a port, followed through a run -/

/-- Where the command `i` that port `p` was about to issue after `n` responses stands: not issued, in
flight in a micro-state with `Doing`, or answered by a response with `Done`. -/
inductive Progress (p n : Nat) (i : Instr) (Doing : State → MicroState → Prop)
    (Done : State → Response → Prop) (s : State) : Prop where
  | waiting (hab : AboutTo s p i) (hn : (s.port p).resp.length = n)
  | running (mu : MicroState) (hb : (s.port p).busy = some mu) (hcmd : mu.cmd = i)
      (hn : (s.port p).resp.length = n) (hdoing : Doing s mu)
  | answered (r : Response) (hr : (s.port p).resp[n]? = some r) (hdone : Done s r)

section Progress

variable {Doing : State → MicroState → Prop} {Done : State → Response → Prop}

/-- A response of the command is one with `Done`. -/
theorem Progress.done (h : Progress p n i Doing Done s) {r : Response}
    (hr : (s.port p).resp[n]? = some r) : Done s r := by
  cases h with
  | waiting _ hn | running _ _ _ hn => simp [← hn] at hr
  | answered r' hr' hdone =>
    obtain rfl : r' = r := Option.some.inj (hr'.symm.trans hr)
    exact hdone

/-- A move keeps the account of a command whose slots exist, where it keeps `Doing` and `Done`, and the
command's own micro-steps, from its initial micro-state on, go on with `Doing` or answer with `Done`. -/
theorem Progress.move (h : Progress p n i Doing Done s) (hp : s.advance.stepPort q = .next t)
    (hbelow : i.slotsBelow s.cfg.numSlots = true) (hinit : Doing t (MicroState.init i))
    (hdoing : ∀ mu, Doing s mu → Doing t mu) (hdone : ∀ r, Done s r → Done t r)
    (hown : ∀ mu, s.advance.stepPort p = .next t → (s.port p).busy = some mu → mu.cmd = i →
      Doing s mu →
      (∃ mu', GoesOn { s.advance with turn := p } t mu' ∧ mu'.cmd = i ∧ Doing t mu') ∨
        ∃ st v, Answers { s.advance with turn := p } t st v ∧ Done t ⟨st, v⟩) :
    Progress p n i Doing Done t := by
  by_cases hpq : q = p
  · subst hpq
    cases h with
    | waiting hab hn =>
      obtain ⟨t', ht', hgo, -⟩ := continuesWith_issue (s := s.advance) hab hbelow
      obtain rfl := Host.Outcome.next.inj (ht'.symm.trans hp)
      obtain ⟨-, -, -, -, -, -, -, hport⟩ := hgo
      exact .running _ (by rw [hport]) rfl (by rw [hport]; exact hn) hinit
    | running mu hb hcmd hn hd =>
      obtain ⟨mu', hgo, hcmd', hd'⟩ | ⟨st, v, hans, hd'⟩ := hown mu hp hb hcmd hd
      · obtain ⟨-, -, -, -, -, -, -, hport⟩ := hgo
        exact .running mu' (by rw [hport]) hcmd' (by rw [hport]; exact hn) hd'
      · obtain ⟨-, -, -, -, -, -, -, hport⟩ := hans
        refine .answered _ ?_ hd'
        rw [hport]
        exact hn ▸ List.getElem?_concat_length
    | answered r hr hd =>
      refine .answered r ?_ (hdone r hd)
      obtain ⟨-, -, -, -, -, ⟨-, -, hresp⟩ | ⟨-, -, r', hresp⟩⟩ :=
        microStepsAnswerOnceAndKeepOtherPorts _ _ _ hp <;> rw [hresp]
      · exact hr
      · exact List.getElem?_append_left (List.getElem?_eq_some_iff.1 hr).1 ▸ hr
  · obtain ⟨-, -, -, hport, -⟩ := microStepsAnswerOnceAndKeepOtherPorts _ _ _ hp
    have hport := hport p (Ne.symm hpq)
    rw [advance_port] at hport
    cases h with
    | waiting hab hn => exact .waiting (by simpa only [AboutTo, hport] using hab) (by rwa [hport])
    | running mu hb hcmd hn hd =>
      exact .running mu (by rwa [hport]) hcmd (by rwa [hport]) (hdoing mu hd)
    | answered r hr hd => exact .answered r (by rwa [hport]) (hdone r hd)

end Progress

/-- A property that every move between states with `P` keeps holds at the end of a run with `P`. -/
theorem RunWith.induct {P Q : State → Prop} (h : RunWith P s t) (h0 : Q s)
    (hstep : ∀ u v, P u → P v → Q u → Moves u v → Q v) : Q t := by
  have hboth : P t ∧ Q t := by
    induction h with
    | start hP => exact ⟨hP, h0⟩
    | move _ hm hP ih => exact ⟨hP, hstep _ _ ih.1 hP ih.2 hm⟩
  exact hboth.2

/-! ## The bits a hash selects -/

/-- The bits that `hash` and the first `n` keys of slot `x` select are set (R115). -/
def State.bitsSet (s : State) (x : Nat) (hash : Word) (n : Nat) : Prop :=
  ∀ j, j < n → s.bit x (s.target x hash j) = true

theorem bitsSet_zero : s.bitsSet x hash 0 := fun j hj => absurd hj (Nat.not_lt_zero j)

/-- They stay set while the slot stays `VALID` (R49, R22, R23). -/
theorem State.Sound.bitsSet_stays (h : s.Sound) (hp : s.advance.stepPort q = .next t)
    (hs : (s.slot x).st = .valid) (ht : (t.slot x).st = .valid) (hbits : s.bitsSet x hash n) :
    t.bitsSet x hash n := by
  obtain ⟨-, hstays⟩ := h.bit_target_stays (hash := hash) hp hs ht
  exact fun j hj => hstays j (hbits j hj)

/-- The key count of a slot stays while it stays `VALID` (R23). -/
theorem State.Sound.keyCount_stays (h : s.Sound) (hm : Moves s t) (hs : (s.slot x).st = .valid)
    (ht : (t.slot x).st = .valid) : t.keyCount x = s.keyCount x := by
  obtain ⟨-, hk, -⟩ := sizeAndKeysAreImmutable s t x (inv_iff.2 h) hm hs ht
  exact congrArg BitVec.toNat hk

/-! ## The micro-steps of an insertion and of a test on a `VALID` slot -/

/-- The acquisition of a `VALID` slot goes on (R51). -/
theorem goesOn_of_sharedAcquisition (hf : s.inFlight = some mu) (hv : (s.slot x).st = .valid)
    (ht : ((s.slot x).st ≠ .valid ∧ t = s.fail .badSlot 0#64) ∨
      ((s.slot x).st = .valid ∧
        t = (s.modifySlot x fun u => { u with rd := u.rd + 1 }).setInFlight mu')) :
    GoesOn s t mu' := by
  obtain ⟨hne, -⟩ | ⟨-, rfl⟩ := ht
  · exact absurd hv hne
  · exact modifySlot_setInFlight_goesOn (turn_lt_of_inFlight _ hf) ..

/-- An insertion into a `VALID` slot goes on and passes a key in its set step only, or answers at its
body (R115, R116). -/
theorem insertion_next (hf : s.inFlight = some mu) (hi : i = .add sa hash ∨ i = .addc sa hash)
    (hv : (s.slot sa.toNat).st = .valid) (he : exec i s = .next t) :
    (∃ mu', GoesOn s t mu' ∧ mu'.cmd = mu.cmd ∧
      (mu'.pos = mu.pos ∨ (mu.phase = .set ∧ mu'.pos = mu.pos + 1))) ∨
    (mu.phase = .body ∧ ∃ v, Answers s t .ok v) := by
  have hturn := turn_lt_of_inFlight _ hf
  obtain rfl | rfl := hi
  · obtain ⟨-, -, ht⟩ | ⟨hp, rfl⟩ | ⟨hp, rfl⟩ := execAdd_next hf he
    · exact .inl ⟨_, goesOn_of_sharedAcquisition hf hv ht, rfl, .inl rfl⟩
    · exact .inl ⟨_, modifySlot_setInFlight_goesOn hturn .., rfl, .inr ⟨hp, rfl⟩⟩
    · exact .inr ⟨hp, _, modifySlot_finish_answers hturn ..⟩
  · obtain ⟨-, -, ht⟩ | ⟨-, rfl⟩ | ⟨hp, rfl⟩ | ⟨hp, rfl⟩ := execAddc_next hf he
    · exact .inl ⟨_, goesOn_of_sharedAcquisition hf hv ht, rfl, .inl rfl⟩
    · exact .inl ⟨_, setInFlight_goesOn hturn _, rfl, .inl rfl⟩
    · exact .inl ⟨_, modifySlot_setInFlight_goesOn hturn .., rfl, .inr ⟨hp, rfl⟩⟩
    · exact .inr ⟨hp, _, modifySlot_finish_answers hturn ..⟩

/-- A `CONTAINS` of a `VALID` slot goes on and changes its flag in a load step only, or answers its
flag (R117). -/
theorem contains_next (hf : s.inFlight = some mu) (hv : (s.slot sa.toNat).st = .valid)
    (he : exec (.contains sa hash) s = .next t) :
    (∃ mu', GoesOn s t mu' ∧ mu'.cmd = mu.cmd ∧
      (mu'.flag = mu.flag ∨
        (mu.phase = .load ∧ mu'.flag = s.andBit sa.toNat hash mu.pos mu.flag))) ∨
    Answers s t .ok (flagWord mu.flag) := by
  have hturn := turn_lt_of_inFlight _ hf
  obtain ⟨-, -, ht⟩ | ⟨hp, rfl⟩ | ⟨-, rfl⟩ := execContains_next hf he
  · exact .inl ⟨_, goesOn_of_sharedAcquisition hf hv ht, rfl, .inl rfl⟩
  · exact .inl ⟨_, setInFlight_goesOn hturn _, rfl, .inr ⟨hp, rfl⟩⟩
  · exact .inr (finish_answers hturn ..)

/-- An insertion's own micro-step sets the bit of each key it passes, and answers with all set. -/
theorem State.Sound.insertion_step (h : s.Sound) (hp : s.advance.stepPort p = .next t)
    (hs : (s.slot sa.toNat).st = .valid) (ht : (t.slot sa.toNat).st = .valid)
    (hi : i = .add sa hash ∨ i = .addc sa hash) (hb : (s.port p).busy = some mu)
    (hcmd : mu.cmd = i) (hbits : s.bitsSet sa.toNat hash mu.pos) :
    (∃ mu', GoesOn { s.advance with turn := p } t mu' ∧ mu'.cmd = i ∧
        t.bitsSet sa.toNat hash mu'.pos) ∨
      ∃ st v, Answers { s.advance with turn := p } t st v ∧
        t.bitsSet sa.toNat hash (t.keyCount sa.toNat) := by
  subst hcmd
  have h' := h.withArbitration p s.schedule.tail (s.fresh + 1)
  have he := exec_of_stepPort (s := s.advance) hb hp
  have hstay := h.bitsSet_stays hp hs ht hbits
  obtain ⟨mu', hgo, hcmd', hpos | ⟨hset, hpos⟩⟩ | ⟨hbody, v, hans⟩ :=
    insertion_next (s := { s.advance with turn := p }) hb hi hs he
  · exact .inl ⟨mu', hgo, hcmd', hpos ▸ hstay⟩
  · refine .inl ⟨mu', hgo, hcmd', fun j hj => ?_⟩
    obtain hj | rfl : j < mu.pos ∨ j = mu.pos := by omega
    · exact hstay j hj
    · rw [(h.bit_target_stays (hash := hash) hp hs ht).1]
      exact h'.bit_target_of_setStep hb hi hset he
  · refine .inr ⟨_, v, hans, ?_⟩
    obtain ⟨-, hpos⟩ := pos_eq_keyCount (microOk_of_inv (inv_iff.2 h) hb) hi hbody
    rw [h.keyCount_stays ⟨p, hp⟩ hs ht, ← hpos]
    exact hstay

/-- A test's own micro-step keeps its flag 1 where every bit it can load is set. -/
theorem State.Sound.contains_step (h : s.Sound) (hp : s.advance.stepPort p = .next t)
    (hs : (s.slot sa.toNat).st = .valid) (hb : (s.port p).busy = some mu)
    (hcmd : mu.cmd = .contains sa hash)
    (hbits : s.bitsSet sa.toNat hash (s.keyCount sa.toNat)) (hflag : mu.flag = true) :
    (∃ mu', GoesOn { s.advance with turn := p } t mu' ∧ mu'.cmd = .contains sa hash ∧
        mu'.flag = true) ∨
      ∃ st v, Answers { s.advance with turn := p } t st v ∧
        (⟨st, v⟩ : Response) = { status := .ok, result := 1 } := by
  have h' := h.withArbitration p s.schedule.tail (s.fresh + 1)
  have he := exec_of_stepPort (s := s.advance) hb hp
  rw [hcmd] at he
  obtain ⟨mu', hgo, hcmd', hf | ⟨hload, hf⟩⟩ | hans :=
    contains_next (s := { s.advance with turn := p }) hb hs he
  · exact .inl ⟨mu', hgo, hcmd'.trans hcmd, hf.trans hflag⟩
  · have hok := h'.microOk hb
    simp only [State.microOk, hcmd, Bool.and_eq_true] at hok
    have hlt : mu.pos < s.keyCount sa.toNat :=
      loopOk_pos_lt hok.2 (by simp [hload]) (by simp [hload])
    refine .inl ⟨mu', hgo, hcmd'.trans hcmd, ?_⟩
    rw [hf, State.andBit, hflag, Bool.true_and]
    exact hbits mu.pos hlt
  · rw [hflag] at hans
    exact .inr ⟨_, _, hans, rfl⟩

/-! ## The two commands through a run -/

/-- Commands whose one slot operand is `VALID` name a slot that exists. -/
theorem State.Sound.slotsBelow_of_valid (h : s.Sound) (hv : (s.slot sa.toNat).st = .valid)
    (hi : i.slots = [sa]) : i.slotsBelow s.cfg.numSlots = true :=
  slotsBelow_iff.2 fun y hy => by
    obtain rfl : y = sa := by simpa [hi] using hy
    exact h.slots ▸ lt_of_valid hv

/-- The account of an insertion: in flight it has set the bits of the keys it passed, and once it has
answered the bits of all keys are set. -/
def Inserts (p n : Nat) (i : Instr) (sa : SlotNum) (hash : Word) : State → Prop :=
  Progress p n i (fun s mu => s.bitsSet sa.toNat hash mu.pos)
    (fun s _ => s.bitsSet sa.toNat hash (s.keyCount sa.toNat))

/-- Every move that leaves the slot `VALID` keeps the account of an insertion. -/
theorem State.Sound.inserts_of_moves (h : s.Sound) (hi : i = .add sa hash ∨ i = .addc sa hash)
    (hs : (s.slot sa.toNat).st = .valid) (ht : (t.slot sa.toNat).st = .valid)
    (hins : Inserts p n i sa hash s) (hm : Moves s t) : Inserts p n i sa hash t := by
  have hslots : i.slots = [sa] := by obtain rfl | rfl := hi <;> rfl
  have hk := h.keyCount_stays hm hs ht
  obtain ⟨q, hq⟩ := hm
  exact hins.move hq (h.slotsBelow_of_valid hs hslots) bitsSet_zero
    (fun _ hbits => h.bitsSet_stays hq hs ht hbits)
    (fun _ hbits => hk ▸ h.bitsSet_stays hq hs ht hbits)
    fun _ hp => h.insertion_step hp hs ht hi

/-- The account of a test that finds every bit set: its flag is 1, and its response is `(OK, 1)`. -/
def Finds (p n : Nat) (sa : SlotNum) (hash : Word) : State → Prop :=
  Progress p n (.contains sa hash) (fun _ mu => mu.flag = true)
    (fun _ r => r = { status := .ok, result := 1 })

/-- Every move from a state with every bit of the hash set keeps the account of such a test. -/
theorem State.Sound.finds_of_moves (h : s.Sound) (hs : (s.slot sa.toNat).st = .valid)
    (hbits : s.bitsSet sa.toNat hash (s.keyCount sa.toNat)) (hfind : Finds p n sa hash s)
    (hm : Moves s t) : Finds p n sa hash t := by
  obtain ⟨q, hq⟩ := hm
  exact hfind.move hq (h.slotsBelow_of_valid hs rfl) rfl (fun _ hf => hf) (fun _ hd => hd)
    fun _ hp hb hcmd => h.contains_step hp hs hb hcmd hbits

/-- Once an insertion has answered, every bit of its hash is set, as long as the slot stays `VALID`. -/
theorem State.Sound.bitsSet_of_insertion (h : s.Sound) (hi : i = .add sa hash ∨ i = .addc sa hash)
    (hab : AboutTo s p i) (hrun : RunWith (fun s => (s.slot sa.toNat).st = .valid) s t)
    {r : Response} (hr : FirstResponse s t p r) :
    t.Sound ∧ t.bitsSet sa.toNat hash (t.keyCount sa.toNat) := by
  have hall : t.Sound ∧ Inserts p (s.port p).resp.length i sa hash t := by
    refine hrun.induct (Q := fun u => u.Sound ∧ Inserts p (s.port p).resp.length i sa hash u)
      ⟨h, .waiting hab rfl⟩ ?_
    rintro u v hu hv ⟨hsound, hins⟩ hm
    exact ⟨hsound.moves hm, hsound.inserts_of_moves hi hu hv hins hm⟩
  obtain ⟨hsound, hins⟩ := hall
  exact ⟨hsound, hins.done hr⟩

/-- A test issued while every bit of its hash is set answers 1, as long as the slot stays `VALID`. -/
theorem State.Sound.contains_answers_one (h : s.Sound)
    (hbits : s.bitsSet sa.toNat hash (s.keyCount sa.toNat)) (hab : AboutTo s p (.contains sa hash))
    (hrun : RunWith (fun s => (s.slot sa.toNat).st = .valid) s t) {r : Response}
    (hr : FirstResponse s t p r) : r = { status := .ok, result := 1 } := by
  have hall : t.Sound ∧ t.bitsSet sa.toNat hash (t.keyCount sa.toNat) ∧
      Finds p (s.port p).resp.length sa hash t := by
    refine hrun.induct (Q := fun u => u.Sound ∧ u.bitsSet sa.toNat hash (u.keyCount sa.toNat) ∧
      Finds p (s.port p).resp.length sa hash u) ⟨h, hbits, .waiting hab rfl⟩ ?_
    rintro u v hu hv ⟨hsound, hset, hfind⟩ hm
    refine ⟨hsound.moves hm, ?_, hsound.finds_of_moves hu hset hfind hm⟩
    rw [hsound.keyCount_stays hm hu hv]
    obtain ⟨q, hq⟩ := hm
    exact hsound.bitsSet_stays hq hu hv hset
  obtain ⟨-, -, hfind⟩ := hall
  exact hfind.done hr

/-- Settles O54: the insertion's response leaves every bit of the hash set, and the test that is
decoded after it finds them all. -/
theorem noFalseNegatives : Obligations.NoFalseNegatives := by
  intro s0 s1 s2 p q sa h r r' hinv hab hrun hr _ hab' hrun' hr'
  obtain ⟨hsound, hbits⟩ : s1.Sound ∧ s1.bitsSet sa.toNat h (s1.keyCount sa.toNat) := by
    obtain hab | hab := hab
    · exact (inv_iff.1 hinv).bitsSet_of_insertion (.inl rfl) hab hrun hr
    · exact (inv_iff.1 hinv).bitsSet_of_insertion (.inr rfl) hab hrun hr
  exact hsound.contains_answers_one hbits hab' hrun' hr'

end Sys2Proof.Machine
end

section
/-! The core commands (R110 to R121), one micro-step at a time: the reads as a whole, and the load, set
and last steps of the three loops over keys. -/

namespace Sys2Proof.Machine

variable {s t : State} {mu nu : MicroState} {x : Nat} {sa : SlotNum} {hash : Word}

/-! ## Reads -/

/-- A command that holds no guard succeeds without a change of any slot. -/
theorem endsWith_finish_of_nil (hf : s.inFlight = some mu) (hh : mu.held = []) (st : Status)
    (v : Word) : EndsWith s (.next (s.finish st v)) st v s.slot :=
  ⟨_, rfl, finish_answers (turn_lt_of_inFlight _ hf) .., fun y => by
    rw [finish_slot, releaseGuards_of_nil hf hh]⟩

section Read

variable (hf : s.inFlight = some mu) (hh : mu.held = []) (hr : mu.reserved = none)
  {read : Slot → Status × Word}
include hf hh hr

/-- A read of a slot that is not `VALID` (R55, R110 to R114). -/
theorem endsWith_readSlot_badSlot (hv : (s.slot x).st ≠ .valid) :
    EndsWith s (s.readSlot x read) .badSlot 0 s.slot := by
  have he : s.readSlot x read = .next (s.fail .badSlot 0) := by
    simp [State.readSlot, State.isValid, hv]
  exact he ▸ endsWith_fail_of_nil hf hh hr ..

/-- A read of a `VALID` slot answers what it reads, a value or a failure (R110 to R114). -/
theorem endsWith_readSlot (hv : (s.slot x).st = .valid) {st : Status} {v : Word}
    (hread : read (s.slot x) = (st, v)) : EndsWith s (s.readSlot x read) st v s.slot := by
  by_cases hst : st = .ok
  · subst hst
    have he : s.readSlot x read = .next (s.finish .ok v) := by
      simp [State.readSlot, State.isValid, hv, hread]
    exact he ▸ endsWith_finish_of_nil hf hh ..
  · have he : s.readSlot x read = .next (s.fail st v) := by
      simp [State.readSlot, State.isValid, hv, hread]
    exact he ▸ endsWith_fail_of_nil hf hh hr ..

end Read

/-- Settles O21: the three commands are one read each. -/
theorem getmGetkGetnAnswer : Obligations.GetmGetkGetnAnswer := by
  rintro s mu sa i v hi ⟨hf, -, hp⟩ hh hr
  have hread : ∃ read : Slot → Status × Word,
      exec i s = s.readSlot sa.toNat read ∧ read (s.slot sa.toNat) = (.ok, v) := by
    obtain ⟨rfl, rfl⟩ | ⟨rfl, rfl⟩ | ⟨rfl, rfl⟩ := hi <;>
      exact ⟨_, oneStep_body hf hp .., by simp [State.counterLoad]⟩
  obtain ⟨read, he, hread⟩ := hread
  rw [he]
  split_ifs with hv
  · exact endsWith_readSlot hf hh hr hv hread
  · exact endsWith_readSlot_badSlot hf hh hr hv

/-- Settles O22: one read, which compares the index with `k`. -/
theorem getkeyAnswersTheKey : Obligations.GetkeyAnswersTheKey := by
  rintro s mu sa index ⟨hf, -, hp⟩ hh hr
  have hread : ∃ read : Slot → Status × Word,
      exec (.getkey sa index) s = s.readSlot sa.toNat read ∧
      ∀ u, read u = if (s.slot sa.toNat).k.toNat ≤ index.toNat then (.badOperand, 0)
        else (.ok, (s.slot sa.toNat).keys.getD index.toNat 0) :=
    ⟨_, oneStep_body hf hp .., fun _ => rfl⟩
  obtain ⟨read, he, hread⟩ := hread
  rw [he]
  split_ifs with hv hi
  · exact endsWith_readSlot_badSlot hf hh hr hv
  · exact endsWith_readSlot hf hh hr (not_not.1 hv) ((hread _).trans (if_pos hi))
  · exact endsWith_readSlot hf hh hr (not_not.1 hv) ((hread _).trans (if_neg hi))

/-- What `READWORD` does (R114): it awaits as a shared acquisition does (R51), and then reads. -/
theorem exec_readword_cases {index : Word} (hf : s.inFlight = some mu) (hp : mu.phase = .body) :
    ((s.slot sa.toNat).wr ≠ none ∧ exec (.readword sa index) s = .fault .waiting) ∨
    ((s.slot sa.toNat).wr = none ∧ ∃ read : Slot → Status × Word,
      exec (.readword sa index) s = s.readSlot sa.toNat read ∧
      ∀ u, read u = if wordCount u.m ≤ index.toNat then (.badOperand, 0)
        else (.ok, s.wordLoad sa.toNat index.toNat)) := by
  rw [exec, execReadword, oneStep_body hf hp]
  by_cases hw : (s.slot sa.toNat).wr = none
  · have hgrant : s.sharedGrantable sa.toNat = true := by simp [State.sharedGrantable, hw]
    rw [hgrant, Bool.not_true, if_neg Bool.false_ne_true]
    exact .inr ⟨hw, _, rfl, fun _ => rfl⟩
  · exact .inl ⟨hw, by simp [State.sharedGrantable, hw]⟩

/-- Settles O23: one read behind the await of a shared acquisition. -/
theorem readwordAnswersTheWord : Obligations.ReadwordAnswersTheWord := by
  rintro s mu sa index ⟨hf, -, hp⟩ hh hr
  obtain ⟨hw, he⟩ | ⟨hw, read, he, hread⟩ := exec_readword_cases (sa := sa) (index := index) hf hp
  · rw [if_pos hw]
    exact he
  · rw [if_neg (not_not_intro hw), he]
    split_ifs with hv hi
    · exact endsWith_readSlot_badSlot hf hh hr hv
    · exact endsWith_readSlot hf hh hr (not_not.1 hv) ((hread _).trans (if_pos hi))
    · exact endsWith_readSlot hf hh hr (not_not.1 hv) ((hread _).trans (if_neg hi))

/-! ## The micro-steps of the loops over keys -/

section Exec

variable (hf : s.inFlight = some mu)
include hf

theorem exec_add_set (hp : mu.phase = .set) : exec (.add sa hash) s =
    .next ((s.setTarget sa.toNat hash mu.pos).setInFlight
      { mu with pos := mu.pos + 1, phase := s.loopPhase sa.toNat (mu.pos + 1) .set }) := by
  simp [exec, execAdd, microStep_inFlight hf, hp]

theorem exec_add_body (hp : mu.phase = .body) : exec (.add sa hash) s =
    .next ((s.counterInc sa.toNat).finish .ok 0) := by
  simp [exec, execAdd, microStep_inFlight hf, hp]

theorem exec_addc_load (hp : mu.phase = .load) : exec (.addc sa hash) s =
    .next (s.setInFlight
      { mu with flag := s.andBit sa.toNat hash mu.pos mu.flag, phase := .set }) := by
  simp [exec, execAddc, microStep_inFlight hf, hp]

theorem exec_addc_set (hp : mu.phase = .set) : exec (.addc sa hash) s =
    .next ((s.setTarget sa.toNat hash mu.pos).setInFlight
      { mu with pos := mu.pos + 1, phase := s.loopPhase sa.toNat (mu.pos + 1) .load }) := by
  simp [exec, execAddc, microStep_inFlight hf, hp]

theorem exec_addc_body (hp : mu.phase = .body) : exec (.addc sa hash) s =
    .next ((s.counterInc sa.toNat).finish .ok (flagWord mu.flag)) := by
  simp [exec, execAddc, microStep_inFlight hf, hp]

theorem exec_contains_load (hp : mu.phase = .load) : exec (.contains sa hash) s =
    .next (s.setInFlight
      { mu with
        flag  := s.andBit sa.toNat hash mu.pos mu.flag
        pos   := mu.pos + 1
        phase := s.loopPhase sa.toNat (mu.pos + 1) .load }) := by
  simp [exec, execContains, microStep_inFlight hf, hp]

theorem exec_contains_body (hp : mu.phase = .body) : exec (.contains sa hash) s =
    .next (s.finish .ok (flagWord mu.flag)) := by
  simp [exec, execContains, microStep_inFlight hf, hp]

end Exec

/-! ## What they make of the slots -/

/-- A set step writes words of its slot only (R115). -/
theorem slot_setTarget (s : State) (x : Nat) (hash : Word) (j y : Nat) :
    (s.setTarget x hash j).slot y =
      if y = x then { s.slot y with bits := ((s.setTarget x hash j).slot y).bits } else s.slot y := by
  unfold State.setTarget State.wordOr State.wordStore
  rw [slot_modifySlot]
  split
  next h => obtain ⟨rfl, -⟩ := h; simp
  next => simp

/-- The words after a set step: the mask of its index is ORed into the index's word (R15, R115). -/
theorem State.Sound.wordLoad_setTarget (h : s.Sound) (hx : x < s.slots.length) (hash : Word)
    (j w : Nat) : (s.setTarget x hash j).wordLoad x w =
      if w = s.target x hash j / 64 then s.wordLoad x w ||| (1#64 <<< (s.target x hash j % 64))
      else s.wordLoad x w := by
  rw [State.setTarget, wordLoad_wordOr h.memoryWf hx, bitWord, bitMask]
  split
  next hw => rw [hw]
  next => rfl

/-- A slot held in shared mode once after the guard is released. -/
theorem slot_releaseGuards_shared (hf : s.inFlight = some mu) (hh : mu.held = [(x, .shared)])
    (y : Nat) : s.releaseGuards.slot y =
      s.slotsWith x { s.slot x with rd := (s.slot x).rd - 1 } y := by
  rw [slot_releaseGuards hf, hh, State.slotsWith]
  by_cases hy : y = x
  · subst hy; simp
  · simp [hy, Ne.symm hy]

/-- The end of a test: only the guard changes (R117). -/
theorem endsWith_finish_shared (hf : s.inFlight = some mu) (hh : mu.held = [(x, .shared)])
    (v : Word) : EndsWith s (.next (s.finish .ok v)) .ok v
      (s.slotsWith x { s.slot x with rd := (s.slot x).rd - 1 }) :=
  ⟨_, rfl, finish_answers (turn_lt_of_inFlight _ hf) .., slot_releaseGuards_shared hf hh⟩

/-- The end of an insertion: the counter and the guard change (R115, R116). -/
theorem endsWith_count (hf : s.inFlight = some mu) (hh : mu.held = [(x, .shared)])
    (hx : x < s.slots.length) (v : Word) :
    EndsWith s (.next ((s.counterInc x).finish .ok v)) .ok v
      (s.slotsWith x { s.slot x with n := (s.slot x).n + 1, rd := (s.slot x).rd - 1 }) := by
  refine ⟨_, rfl, modifySlot_finish_answers (turn_lt_of_inFlight _ hf) .., fun y => ?_⟩
  rw [finish_slot, slot_releaseGuards_shared (s := s.counterInc x) hf hh]
  by_cases hy : y = x <;> simp [State.slotsWith, State.counterInc, hy, hx]

/-- After its acquisition a loop over keys holds its slot, which exists, in shared mode. -/
theorem State.Sound.loop_holds (h : s.Sound) (hf : s.inFlight = some mu)
    (hcmd : mu.cmd = .add sa hash ∨ mu.cmd = .addc sa hash ∨ mu.cmd = .contains sa hash)
    (hp : mu.phase ≠ .acquire) :
    mu.held = [(sa.toNat, .shared)] ∧ sa.toNat < s.slots.length := by
  have hslot : sa ∈ mu.cmd.slots := by obtain hc | hc | hc := hcmd <;> simp [hc, Instr.slots]
  have hok : ∃ phases, s.loopOk mu sa.toNat phases = true := by
    have hm := h.microOk hf
    rw [State.microOk, Bool.and_eq_true] at hm
    obtain ⟨-, hm⟩ := hm
    obtain hc | hc | hc := hcmd <;> rw [hc] at hm <;> exact ⟨_, hm⟩
  obtain ⟨phases, hok⟩ := hok
  obtain ⟨-, hh, -⟩ := loopOk_acquired hok hp
  exact ⟨hh, h.slot_lt hf hslot⟩

/-- A set step as a whole: the mask goes into the word, and nothing else changes. -/
theorem State.Sound.setStep_whole (h : s.Sound) (hf : s.inFlight = some mu)
    (hcmd : mu.cmd = .add sa hash ∨ mu.cmd = .addc sa hash) {idx : Nat}
    (hidx : idx = s.target sa.toNat hash mu.pos)
    (ht : t = (s.setTarget sa.toNat hash mu.pos).setInFlight nu) :
    GoesOn s t nu ∧
      (∀ w, t.wordLoad sa.toNat w =
        if w = idx / 64 then s.wordLoad sa.toNat w ||| (1#64 <<< (idx % 64))
        else s.wordLoad sa.toNat w) ∧
      ∀ y, t.slot y =
        if y = sa.toNat then { s.slot y with bits := (t.slot y).bits } else s.slot y := by
  subst hidx ht
  have hx := h.slot_lt_of_insertion hf hcmd
  exact ⟨modifySlot_setInFlight_goesOn (turn_lt_of_inFlight _ hf) ..,
    h.wordLoad_setTarget hx hash mu.pos, slot_setTarget s sa.toNat hash mu.pos⟩

/-! ## The statements -/

/-- Settles O24: the set step as a whole, and the end of an insertion. -/
theorem addSetsOneBitPerKeyThenCounts : Obligations.AddSetsOneBitPerKeyThenCounts := by
  intro s mu sa hash hinv
  have h := inv_iff.1 hinv
  refine ⟨?_, ?_⟩
  · rintro ⟨hf, hcmd, hp⟩ idx hidx
    exact ⟨_, exec_add_set hf hp, h.setStep_whole hf (.inl hcmd) hidx rfl⟩
  · rintro ⟨hf, hcmd, hp⟩
    obtain ⟨hh, hx⟩ := h.loop_holds hf (.inl hcmd) (by simp [hp])
    exact exec_add_body (sa := sa) hf hp ▸ endsWith_count hf hh hx 0

/-- Settles O25: as `ADD`, with a load step that changes no slot. -/
theorem addcLoadsThenSetsPerKeyThenCounts : Obligations.AddcLoadsThenSetsPerKeyThenCounts := by
  intro s mu sa hash idx hinv hidx
  have h := inv_iff.1 hinv
  refine ⟨?_, ?_, ?_⟩
  · rintro ⟨hf, -, hp⟩
    subst hidx
    exact ⟨_, exec_addc_load hf hp, setInFlight_goesOn (turn_lt_of_inFlight _ hf) _, fun _ => rfl⟩
  · rintro ⟨hf, hcmd, hp⟩
    exact ⟨_, exec_addc_set hf hp, h.setStep_whole hf (.inr hcmd) hidx rfl⟩
  · rintro ⟨hf, hcmd, hp⟩
    obtain ⟨hh, hx⟩ := h.loop_holds hf (.inr (.inl hcmd)) (by simp [hp])
    exact exec_addc_body (sa := sa) hf hp ▸ endsWith_count hf hh hx _

/-- Settles O26: a load step that changes no slot, and the end of a test. -/
theorem containsLoadsPerKeyAndWritesNothing : Obligations.ContainsLoadsPerKeyAndWritesNothing := by
  intro s mu sa hash idx hinv hidx
  have h := inv_iff.1 hinv
  refine ⟨?_, ?_⟩
  · rintro ⟨hf, -, hp⟩
    subst hidx
    exact ⟨_, exec_contains_load hf hp, setInFlight_goesOn (turn_lt_of_inFlight _ hf) _,
      fun _ => rfl⟩
  · rintro ⟨hf, hcmd, hp⟩
    obtain ⟨hh, -⟩ := h.loop_holds hf (.inr (.inr hcmd)) (by simp [hp])
    exact exec_contains_body (sa := sa) hf hp ▸ endsWith_finish_shared hf hh _

end Sys2Proof.Machine
end

section
/-! `ADD`, `ADDC` and `CONTAINS` alone on a `VALID` slot (R115 to R120, R187): the decode step, the
acquisition, one round of the loop per key, and the last step. -/

namespace Sys2Proof.Machine

variable {s t u : State} {mu : MicroState} {i : Instr} {ph : Phase} {x j p n : Nat} {sa : SlotNum}
  {hash : Word}

/-! ## A port alone, and its loop -/

theorem solo_add {a : Nat} (h : State.solo p a s = .next t) (b : Nat) :
    State.solo p (a + b) s = State.solo p b t := by
  induction a generalizing s with
  | zero =>
    obtain rfl := Host.Outcome.next.inj h
    rw [Nat.zero_add]
  | succ a ih =>
    rw [Nat.add_right_comm]
    simp only [State.solo] at h ⊢
    cases hst : s.stepPort p with
    | next v => rw [hst] at h; exact ih h
    | fault f | refused f => simp [hst] at h

/-- One more micro-step of a command that goes on. -/
theorem solo_one (h : GoesOn s t mu) (he : exec mu.cmd t = .next u) :
    State.solo s.turn 1 t = .next u := solo_of_goesOn h he 0

theorem GoesOn.setInFlight (h : GoesOn s t mu) (nu : MicroState) :
    GoesOn s (t.setInFlight nu) nu :=
  h.trans (setInFlight_goesOn (turn_lt_of_inFlight _ h.inFlight) _)

/-- A port that moves alone keeps the invariant. -/
theorem State.Sound.solo (h : s.Sound) (hn : State.solo p n s = .next t) : t.Sound := by
  induction n generalizing s with
  | zero => exact Host.Outcome.next.inj hn ▸ h
  | succ n ih =>
    simp only [State.solo] at hn
    cases hst : s.stepPort p with
    | next v => rw [hst] at hn; exact ih (h.stepPort hst) hn
    | fault f | refused f => simp [hst] at hn

/-- A loop of `k` rounds of `c` micro-steps each, after `n` micro-steps, keeps what each round keeps. -/
theorem exists_solo_rounds {Round : Nat → State → Prop} {k c : Nat}
    (hn : State.solo p n s = .next t) (h0 : Round 0 t)
    (hround : ∀ j u, j < k → Round j u → ∃ v, State.solo p c u = .next v ∧ Round (j + 1) v) :
    ∃ u, State.solo p (n + c * k) s = .next u ∧ Round k u := by
  suffices hle : ∀ j, j ≤ k → ∃ u, State.solo p (n + c * j) s = .next u ∧ Round j u from
    hle k le_rfl
  intro j hj
  induction j with
  | zero => exact ⟨t, hn, h0⟩
  | succ j ih =>
    obtain ⟨u, hu, hold⟩ := ih (by omega)
    obtain ⟨v, hv, hnext⟩ := hround j u (by omega) hold
    exact ⟨v, by rw [Nat.mul_succ, ← Nat.add_assoc, solo_add hu, hv], hnext⟩

/-! ## The acquisition -/

/-- The micro-state of command `i` that holds slot `x` in shared mode and has passed `j` keys. -/
def loopState (i : Instr) (x j : Nat) (flag : Bool) (phase : Phase) : MicroState where
  cmd      := i
  held     := [(x, .shared)]
  reserved := none
  pos      := j
  flag     := flag
  phase    := phase

/-- The slots of `s` with one shared holder more of slot `x`. -/
def SharedOnce (s : State) (x : Nat) (t : State) : Prop :=
  ∀ y, t.slot y = s.slotsWith x { s.slot x with rd := (s.slot x).rd + 1 } y

/-- From decode to the first round: two micro-steps, which take the guard. -/
theorem solo_two_acquired (h : s.Sound) (hab : AboutTo s p i)
    (hi : (i = .add sa hash ∧ ph = .set) ∨ (i = .addc sa hash ∧ ph = .load) ∨
      (i = .contains sa hash ∧ ph = .load))
    (hv : (s.slot sa.toNat).st = .valid) (hw : (s.slot sa.toNat).wr = none) :
    ∃ t, State.solo p 2 s = .next t ∧ SharedOnce s sa.toNat t ∧
      GoesOn { s with turn := p } t (loopState i sa.toNat 0 true (s.loopPhase sa.toNat 0 ph)) := by
  have hcmd : i.slots = [sa] ∧ firstPhase i = .acquire := by
    obtain ⟨rfl, -⟩ | ⟨rfl, -⟩ | ⟨rfl, -⟩ := hi <;> exact ⟨rfl, rfl⟩
  obtain ⟨hslots, hphase⟩ := hcmd
  obtain ⟨t, hst, hgo, hslot⟩ := continuesWith_issue hab (h.slotsBelow_of_valid hv hslots)
  obtain ⟨-, -, hgrant⟩ := sharedAcquisition t _ sa hash i ph hi ⟨hgo.inFlight, rfl, hphase⟩
    rfl rfl (hgo.slots_length ▸ lt_of_valid hv)
  obtain ⟨u, hu, hgo', hslot'⟩ := hgrant (hslot _ ▸ hw) (hslot _ ▸ hv)
  refine ⟨u, ?_, fun y => ?_, ?_⟩
  · rw [solo_of_stepPort hst]
    exact solo_one hgo hu
  · simp only [hslot', State.slotsWith, hslot]
  · rw [hslot] at hgo'
    exact hgo.trans hgo'

/-! ## The flag -/

theorem bitsSet_succ : s.bitsSet x hash (j + 1) ↔
    s.bitsSet x hash j ∧ s.bit x (s.target x hash j) = true := by
  refine ⟨fun h => ⟨fun l hl => h l (by omega), h j (by omega)⟩, fun ⟨h, hj⟩ l hl => ?_⟩
  obtain hl | rfl : l < j ∨ l = j := by omega
  · exact h l hl
  · exact hj

/-- Before round `j` of `ADDC` or `CONTAINS` the flag says whether the bits of the keys passed were set
in `s`. -/
def Flagged (s : State) (i : Instr) (x : Nat) (hash : Word) (j : Nat) (t : State) : Prop :=
  ∃ flag, (flag = true ↔ s.bitsSet x hash j) ∧
    GoesOn s t (loopState i x j flag (s.loopPhase x j .load))

/-- The flag after a load step of the next key. -/
theorem andBit_iff {flag : Bool} (hflag : flag = true ↔ s.bitsSet x hash j)
    (hbit : s.bitsSet x hash j →
      (t.bit x (t.target x hash j) = true ↔ s.bit x (s.target x hash j) = true)) :
    t.andBit x hash j flag = true ↔ s.bitsSet x hash (j + 1) := by
  rw [State.andBit, Bool.and_eq_true, hflag, bitsSet_succ]
  exact and_congr_right hbit

/-- A flag word says whether the flag's condition holds. -/
theorem flagWord_of_iff {flag : Bool} {c : Prop} (h : flag = true ↔ c) :
    (c → flagWord flag = 1) ∧ (¬ c → flagWord flag = 0) := by
  rw [← h]
  cases flag <;> decide

/-! ## Insertions -/

/-- The slots after the acquisition and the set steps of the first `j` keys, from `s` on. -/
structure Inserted (s : State) (x : Nat) (hash : Word) (j : Nat) (t : State) : Prop where
  memory : t.memoryWf
  bits   : ∀ b, t.bit x b = true ↔ s.bit x b = true ∨ ∃ l, l < j ∧ b = s.target x hash l
  slots  : ∀ y, t.slot y =
    if y = x then { s.slot y with bits := (t.slot y).bits, rd := (s.slot y).rd + 1 } else s.slot y

/-- Nothing is inserted at the acquisition. -/
theorem inserted_zero (h : t.Sound) (hslots : SharedOnce s x t) : Inserted s x hash 0 t where
  memory := h.memoryWf
  bits b := by
    have hbits : (t.slot x).bits = (s.slot x).bits := by simp [hslots x, State.slotsWith]
    simp [bit_congr hbits]
  slots y := by
    rw [hslots, State.slotsWith]
    split
    next hy => rw [hy]
    next => rfl

section Inserted

variable (hins : Inserted s x hash j t)
include hins

theorem Inserted.fields : (t.slot x).m = (s.slot x).m ∧ (t.slot x).k = (s.slot x).k ∧
    (t.slot x).keys = (s.slot x).keys := by
  have he := hins.slots x
  rw [if_pos rfl] at he
  rw [he]
  exact ⟨rfl, rfl, rfl⟩

theorem Inserted.target_eq (l : Nat) : t.target x hash l = s.target x hash l := by
  obtain ⟨hm, -, hkeys⟩ := hins.fields
  simp [State.target, State.key, hm, hkeys]

theorem Inserted.loopPhase_eq (l : Nat) (ph : Phase) : t.loopPhase x l ph = s.loopPhase x l ph := by
  obtain ⟨-, hk, -⟩ := hins.fields
  rw [State.loopPhase, State.keyCount, hk]
  rfl

theorem Inserted.setInFlight (nu : MicroState) : Inserted s x hash j (t.setInFlight nu) :=
  ⟨hins.memory, hins.bits, hins.slots⟩

/-- The set step of the next key. -/
theorem Inserted.setTarget (hx : x < t.slots.length) :
    Inserted s x hash (j + 1) (t.setTarget x hash j) where
  memory := wordOr_memoryWf _ _ _ hins.memory
  bits b := by
    rw [bit_setTarget hins.memory hx, Bool.or_eq_true, hins.bits, decide_eq_true_eq,
      hins.target_eq, or_assoc]
    refine or_congr_right ⟨?_, ?_⟩
    · rintro (⟨l, hl, rfl⟩ | rfl)
      · exact ⟨l, by omega, rfl⟩
      · exact ⟨j, by omega, rfl⟩
    · rintro ⟨l, hl, rfl⟩
      obtain hl | rfl : l < j ∨ l = j := by omega
      · exact .inl ⟨l, hl, rfl⟩
      · exact .inr rfl
  slots y := by
    rw [slot_setTarget, hins.slots y]
    split <;> rfl

/-- The set step of the next key, as the command goes on. -/
theorem Inserted.setStep (hx : x < s.slots.length) (hgo : GoesOn s t mu) (nu : MicroState) :
    Inserted s x hash (j + 1) ((t.setTarget x hash j).setInFlight nu) ∧
      GoesOn s ((t.setTarget x hash j).setInFlight nu) nu := by
  exact ⟨(hins.setTarget (hgo.slots_length ▸ hx)).setInFlight nu,
    hgo.trans (modifySlot_setInFlight_goesOn (turn_lt_of_inFlight _ hgo.inFlight) ..)⟩

/-- The bit that a load step reads is set where it was in `s`, as long as the bits of the first `j` keys
were: a bit that only they set makes no difference. -/
theorem Inserted.bit_target_iff (i : Nat) (hset : s.bitsSet x hash j) :
    t.bit x (t.target x hash i) = true ↔ s.bit x (s.target x hash i) = true := by
  rw [hins.target_eq, hins.bits]
  refine or_iff_left_of_imp ?_
  rintro ⟨l, hl, he⟩
  rw [he]
  exact hset l hl

/-- The last step after `j` keys: it counts, releases the guard and answers. -/
theorem Inserted.counted (hx : x < s.slots.length) (hgo : GoesOn s t mu)
    (hh : mu.held = [(x, .shared)]) {v : Word}
    (he : exec mu.cmd t = .next ((t.counterInc x).finish .ok v)) :
    ∃ u, State.solo s.turn 1 t = .next u ∧ Answers s u .ok v ∧
      (∀ b, u.bit x b = true ↔ s.bit x b = true ∨ ∃ l, l < j ∧ b = s.target x hash l) ∧
      ∀ y, u.slot y =
        if y = x then { s.slot y with bits := (u.slot y).bits, n := (s.slot y).n + 1 }
        else s.slot y := by
  obtain ⟨u, hu, hans, hslot⟩ := endsWith_count hgo.inFlight hh (hgo.slots_length ▸ hx) v
  have hbits : (u.slot x).bits = (t.slot x).bits := by simp [hslot, State.slotsWith]
  refine ⟨u, solo_one hgo (he.trans hu), hgo.answers hans, fun b => ?_, fun y => ?_⟩
  · rw [bit_congr hbits]
    exact hins.bits b
  · rw [hslot, State.slotsWith]
    split
    next hy => subst hy; rw [hins.slots y, if_pos rfl]; rfl
    next hy => rw [hins.slots y, if_neg hy]

end Inserted

/-! ## ADD -/

/-- The state before round `j` of `ADD`. -/
def AddRound (s : State) (sa : SlotNum) (hash : Word) (j : Nat) (t : State) : Prop :=
  Inserted s sa.toNat hash j t ∧
    GoesOn s t (loopState (.add sa hash) sa.toNat j true (s.loopPhase sa.toNat j .set))

/-- One round of `ADD`: the set step (R115). -/
theorem AddRound.next (h : AddRound s sa hash j t) (hx : sa.toNat < s.slots.length)
    (hj : j < s.keyCount sa.toNat) :
    ∃ u, State.solo s.turn 1 t = .next u ∧ AddRound s sa hash (j + 1) u := by
  obtain ⟨hins, hgo⟩ := h
  have hset := exec_add_set (sa := sa) (hash := hash) hgo.inFlight (if_pos hj)
  rw [hins.loopPhase_eq] at hset
  exact ⟨_, solo_one hgo hset, hins.setStep hx hgo _⟩

/-- Settles O27: decode and acquisition, one set step per key, the last step. -/
theorem addAloneSetsItsBits : Obligations.AddAloneSetsItsBits := by
  intro s p sa hash hinv hab hv hw
  have h := inv_iff.1 hinv
  have hx := lt_of_valid hv
  obtain ⟨t, ht, hslots, hgo⟩ := solo_two_acquired h hab (.inl ⟨rfl, rfl⟩) hv hw
  have hrounds := exists_solo_rounds (Round := AddRound { s with turn := p } sa hash)
    (k := s.keyCount sa.toNat) (c := 1) ht ⟨inserted_zero (h.solo ht) hslots, hgo⟩
    fun _ _ hj hround => hround.next hx hj
  obtain ⟨u, hu, hins, hgo'⟩ := hrounds
  obtain ⟨r, hr, hend⟩ := hins.counted hx hgo' rfl
    (exec_add_body hgo'.inFlight (if_neg (lt_irrefl _)))
  refine ⟨r, ?_, hend⟩
  rw [show s.keyCount sa.toNat + 3 = 2 + 1 * s.keyCount sa.toNat + 1 by omega, solo_add hu]
  exact hr

/-! ## ADDC -/

/-- The state before round `j` of `ADDC`. -/
def AddcRound (s : State) (sa : SlotNum) (hash : Word) (j : Nat) (t : State) : Prop :=
  Inserted s sa.toNat hash j t ∧ Flagged s (.addc sa hash) sa.toNat hash j t

/-- One round of `ADDC`: the load step and the set step (R116). -/
theorem AddcRound.next (h : AddcRound s sa hash j t) (hx : sa.toNat < s.slots.length)
    (hj : j < s.keyCount sa.toNat) :
    ∃ u, State.solo s.turn 2 t = .next u ∧ AddcRound s sa hash (j + 1) u := by
  obtain ⟨hins, flag, hflag, hgo⟩ := h
  have hload := exec_addc_load (sa := sa) (hash := hash) hgo.inFlight (if_pos hj)
  have hgoLoad := hgo.setInFlight
    (loopState (.addc sa hash) sa.toNat j (t.andBit sa.toNat hash j flag) .set)
  have hset := exec_addc_set (sa := sa) (hash := hash) hgoLoad.inFlight rfl
  rw [(hins.setInFlight _).loopPhase_eq] at hset
  obtain ⟨hnext, hgoSet⟩ := (hins.setInFlight _).setStep hx hgoLoad _
  exact ⟨_, (solo_of_goesOn hgo hload 1).trans (solo_one hgoLoad hset), hnext, _,
    andBit_iff hflag (hins.bit_target_iff j), hgoSet⟩

/-- Settles O28: decode and acquisition, a load and a set step per key, the last step. -/
theorem addcAloneTellsWhetherAllWereSet : Obligations.AddcAloneTellsWhetherAllWereSet := by
  intro s p sa hash hinv hab hv hw
  have h := inv_iff.1 hinv
  have hx := lt_of_valid hv
  obtain ⟨t, ht, hslots, hgo⟩ := solo_two_acquired h hab (.inr (.inl ⟨rfl, rfl⟩)) hv hw
  have hrounds := exists_solo_rounds (Round := AddcRound { s with turn := p } sa hash)
    (k := s.keyCount sa.toNat) (c := 2) ht
    ⟨inserted_zero (h.solo ht) hslots, true, iff_of_true rfl bitsSet_zero, hgo⟩
    fun _ _ hj hround => hround.next hx hj
  obtain ⟨u, hu, hins, flag, hflag, hgo'⟩ := hrounds
  obtain ⟨r, hr, hans, hend⟩ := hins.counted hx hgo' rfl
    (exec_addc_body hgo'.inFlight (if_neg (lt_irrefl _)))
  obtain ⟨hone, hzero⟩ := flagWord_of_iff hflag
  refine ⟨r, _, ?_, hans, hone, hzero, hend⟩
  rw [show 2 * s.keyCount sa.toNat + 3 = 2 + 2 * s.keyCount sa.toNat + 1 by omega, solo_add hu]
  exact hr

/-! ## CONTAINS -/

/-- The state before round `j` of `CONTAINS`, which inserts nothing. -/
def ContainsRound (s : State) (sa : SlotNum) (hash : Word) (j : Nat) (t : State) : Prop :=
  SharedOnce s sa.toNat t ∧ Inserted s sa.toNat hash 0 t ∧
    Flagged s (.contains sa hash) sa.toNat hash j t

/-- One round of `CONTAINS`: the load step (R117). -/
theorem ContainsRound.next (h : ContainsRound s sa hash j t) (hj : j < s.keyCount sa.toNat) :
    ∃ u, State.solo s.turn 1 t = .next u ∧ ContainsRound s sa hash (j + 1) u := by
  obtain ⟨hslots, hins, flag, hflag, hgo⟩ := h
  have hload := exec_contains_load (sa := sa) (hash := hash) hgo.inFlight (if_pos hj)
  rw [hins.loopPhase_eq] at hload
  exact ⟨_, solo_one hgo hload, hslots, hins.setInFlight _, t.andBit sa.toNat hash j flag,
    andBit_iff hflag fun _ => hins.bit_target_iff j bitsSet_zero, hgo.setInFlight _⟩

/-- Taking a shared guard and releasing it leaves the slots as they were. -/
theorem SharedOnce.released (h : SharedOnce s x t) (y : Nat) :
    t.slotsWith x { t.slot x with rd := (t.slot x).rd - 1 } y = s.slot y := by
  by_cases hy : y = x
  · subst hy; simp [State.slotsWith, h y]
  · simp [State.slotsWith, h y, hy]

/-- Settles O29: decode and acquisition, one load step per key, the last step. -/
theorem containsAloneTellsWhetherAllAreSet : Obligations.ContainsAloneTellsWhetherAllAreSet := by
  intro s p sa hash hinv hab hv hw
  have h := inv_iff.1 hinv
  obtain ⟨t, ht, hslots, hgo⟩ := solo_two_acquired h hab (.inr (.inr ⟨rfl, rfl⟩)) hv hw
  have hrounds := exists_solo_rounds (Round := ContainsRound { s with turn := p } sa hash)
    (k := s.keyCount sa.toNat) (c := 1) ht
    ⟨hslots, inserted_zero (h.solo ht) hslots, true, iff_of_true rfl bitsSet_zero, hgo⟩
    fun _ _ hj hround => hround.next hj
  obtain ⟨u, hu, hslots', -, flag, hflag, hgo'⟩ := hrounds
  have hbody := exec_contains_body (sa := sa) (hash := hash) hgo'.inFlight (if_neg (lt_irrefl _))
  obtain ⟨r, hr, hans, hslot⟩ := endsWith_finish_shared hgo'.inFlight rfl (flagWord flag)
  obtain ⟨hone, hzero⟩ := flagWord_of_iff hflag
  refine ⟨r, _, ?_, hgo'.answers hans, hone, hzero, fun y => (hslot y).trans (hslots'.released y)⟩
  rw [show s.keyCount sa.toNat + 3 = 2 + 1 * s.keyCount sa.toNat + 1 by omega, solo_add hu]
  exact solo_one hgo' (hbody.trans hr)

end Sys2Proof.Machine
end

section
/-! The comparator, the merger and the copy (R130 to R138): what the mask says, the words a body
stores, and the body of each two-filter command as a whole. -/

namespace Sys2Proof.Machine

variable {s : State} {mu : MicroState} {i : Instr} {sd sa sb : SlotNum} {order : List Nat} {x : Nat}

/-! ## The comparator -/

/-- What bit 2 of the mask says (R131). -/
theorem keysDiffer_iff {a b : Slot} : keysDiffer a b = true ↔
    a.k ≠ b.k ∨ ∃ j, j < a.k.toNat ∧ a.keys.getD j 0 ≠ b.keys.getD j 0 := by
  have hkeys : keyDiff a.k.toNat a.keys b.keys ≠ 0#64 ↔
      ∃ j, j < a.k.toNat ∧ a.keys.getD j 0 ≠ b.keys.getD j 0 := by
    rw [Ne, keyDiff_eq_zero]
    push Not
    rfl
  rw [← hkeys]
  simp [keysDiffer]

/-- The key sequences differ either way round (R131). -/
theorem keysDiffer_comm (a b : Slot) : keysDiffer a b = keysDiffer b a := by
  rw [Bool.eq_iff_iff, keysDiffer_iff, keysDiffer_iff]
  by_cases hk : a.k = b.k
  · simp [hk, ne_comm]
  · simp [hk, Ne.symm hk]

theorem getLsbD_ite_twoPow {v : Word} {n : Nat} (hv : v = BitVec.twoPow 64 n) (hn : n < 64)
    (c : Bool) (j : Nat) : (if c then v else 0#64).getLsbD j = (c && decide (n = j)) := by
  cases c <;> simp [hv, BitVec.getLsbD_twoPow, hn]

/-- The mask bit by bit (R131). -/
theorem getLsbD_compatMask (a b : Slot) (j : Nat) : (compatMask a b).getLsbD j =
    (keysDiffer a b && decide (2 = j) || a.k != b.k && decide (1 = j) ||
      a.m != b.m && decide (0 = j)) := by
  rw [compatMask, BitVec.getLsbD_or, BitVec.getLsbD_or,
    getLsbD_ite_twoPow (v := 4#64) (n := 2) rfl (by decide),
    getLsbD_ite_twoPow (v := 2#64) (n := 1) rfl (by decide),
    getLsbD_ite_twoPow (v := 1#64) (n := 0) rfl (by decide)]

/-- The mask is 0 exactly for compatible filters (R130). -/
theorem compatMask_eq_zero {a b : Slot} : compatMask a b = 0#64 ↔ a.compatible b := by
  have hkeys : keysDiffer a b = false ↔
      a.k = b.k ∧ ∀ j, j < a.k.toNat → a.keys.getD j 0#64 = b.keys.getD j 0#64 := by
    simp [keysDiffer, keyDiff_eq_zero]
  have hmask : compatMask a b = 0#64 ↔ (keysDiffer a b = false ∧ a.k = b.k) ∧ a.m = b.m := by
    simp [compatMask, BitVec.or_eq_zero_iff]
  rw [hmask, hkeys, Slot.compatible]
  tauto

theorem compat_eq_zero :
    s.compat sa sb = 0#64 ↔ (s.slot sa.toNat).compatible (s.slot sb.toNat) := compatMask_eq_zero

/-- Settles O30: the mask bit by bit, each bit set by its own condition. -/
theorem compatMaskNamesTheDifferences : Obligations.CompatMaskNamesTheDifferences := by
  intro a b
  refine ⟨?_, ?_, ?_, fun j hj => ?_, compatMask_eq_zero, ?_⟩
  · rw [getLsbD_compatMask]
    simp
  · rw [getLsbD_compatMask]
    simp
  · rw [getLsbD_compatMask, ← keysDiffer_iff]
    simp
  · rw [getLsbD_compatMask, decide_eq_false (by omega : 2 ≠ j), decide_eq_false (by omega : 1 ≠ j),
      decide_eq_false (by omega : 0 ≠ j)]
    simp
  · simp only [compatMask, keysDiffer_comm a b, bne_comm (a := a.k), bne_comm (a := a.m)]

/-! ## The words a body stores -/

/-- A vector with clear padding has no word at or beyond its count (R24, R25). -/
theorem PaddingClear.load_eq_zero {m : Word} {bits : Memory} (hp : PaddingClear m bits) {j : Nat}
    (hj : wordCount m ≤ j) : Memory.load bits j = 0#64 := by
  refine BitVec.eq_of_getLsbD_eq fun b hb => ?_
  have hclear := hp (64 * j + b) (by unfold wordCount at hj; omega)
  rw [show (64 * j + b) / 64 = j by omega, show (64 * j + b) % 64 = b by omega] at hclear
  rw [hclear, BitVec.getLsbD_zero]

/-- A merge of two vectors of one size is their OR at every word (R138). -/
theorem PaddingClear.load_mergeWords_eq_or {m : Word} {a b : Memory} (ha : PaddingClear m a)
    (hb : PaddingClear m b) (j : Nat) :
    Memory.load (mergeWords (wordCount m) a b) j = Memory.load a j ||| Memory.load b j := by
  rw [load_mergeWords]
  split
  next => rfl
  next hj => simp [ha.load_eq_zero (Nat.le_of_not_lt hj), hb.load_eq_zero (Nat.le_of_not_lt hj)]

/-- A copy of a whole vector is the vector (R136). -/
theorem PaddingClear.copyWords_eq {m : Word} {a : Memory} (ha : PaddingClear m a)
    (hwf : Memory.wf a = true) : copyWords (wordCount m) a = a := by
  refine memory_ext (copyWords_wf ..) hwf fun j => ?_
  rw [load_copyWords]
  split
  next => rfl
  next hj => exact (ha.load_eq_zero (Nat.le_of_not_lt hj)).symm

/-- What a merge stores: the word-wise OR of the operands' vectors, as many words as `SA` has (R134,
R135). -/
def State.mergedBits (s : State) (sa sb : SlotNum) : Memory :=
  mergeWords (wordCount (s.slot sa.toNat).m) (s.slot sa.toNat).bits (s.slot sb.toNat).bits

/-- Compatible operands that a command holds have one size, so their merge is their OR at every word
(R138). -/
theorem State.Sound.load_mergedBits (h : s.Sound) (hf : s.inFlight = some mu)
    (hh : mu.held = (s.lockList sa sb).map fun x => (x, Mode.exclusive))
    (hc : (s.slot sa.toNat).compatible (s.slot sb.toNat)) (j : Nat) :
    Memory.load (s.mergedBits sa sb) j = s.wordLoad sa.toNat j ||| s.wordLoad sb.toNat j := by
  obtain ⟨⟨ha, hb⟩, hva, hvb⟩ := h.operands_of_lockList hf hh
  have hpa := (h.filter_of_valid (h.held_lt hf ha) hva).padding
  have hpb := (h.filter_of_valid (h.held_lt hf hb) hvb).padding
  obtain ⟨hm, -, -⟩ := hc
  exact hpa.load_mergeWords_eq_or (hm ▸ hpb) j

/-! ## The end of a command that holds exclusive guards -/

/-- The slots of `s` with the exclusive guards of `order` released (R53). -/
def State.slotsReleased (s : State) (order : List Nat) : Nat → Slot :=
  fun x => if x ∈ order then { s.slot x with wr := none } else s.slot x

/-- For a two-filter command these are both operands' guards. -/
theorem slotsReleased_lockList (s : State) (sa sb : SlotNum) :
    s.slotsReleased (s.lockList sa sb) = fun x =>
      if x = sa.toNat ∨ x = sb.toNat then { s.slot x with wr := none } else s.slot x := by
  funext x
  simp only [State.slotsReleased, State.lockList, mem_lockOrder]

section Held

variable (hf : s.inFlight = some mu) (hh : mu.held = order.map fun x => (x, Mode.exclusive))
include hf hh

/-- Releasing the guards of its order is all a command's success does to the slots. -/
theorem slot_releaseGuards_exclusive (y : Nat) :
    s.releaseGuards.slot y = s.slotsReleased order y := by
  have hshared : mu.held.count (y, Mode.shared) = 0 := by
    rw [List.count_eq_zero, hh, mem_map_exclusive]
    simp
  have hexclusive : (y, Mode.exclusive) ∈ mu.held ↔ y ∈ order := by
    rw [hh, mem_map_exclusive]
    simp
  rw [slot_releaseGuards hf, hshared, State.slotsReleased]
  by_cases hy : y ∈ order <;> simp [hexclusive, hy]

theorem endsWith_finish_exclusive (v : Word) :
    EndsWith s (.next (s.finish .ok v)) .ok v (s.slotsReleased order) :=
  ⟨_, rfl, finish_answers (turn_lt_of_inFlight _ hf) .., slot_releaseGuards_exclusive hf hh⟩

/-- A failure without a reservation releases the guards only (R14). -/
theorem endsWith_fail_exclusive (hr : mu.reserved = none) (st : Status) (v : Word) :
    EndsWith s (.next (s.fail st v)) st v (s.slotsReleased order) := by
  refine endsWith_fail hf st v fun y => ?_
  rw [fail_slot, freeReserved_of_none ((releaseGuards_inFlight s).trans hf) hr]
  exact slot_releaseGuards_exclusive hf hh y

/-- A failure with a reservation releases the guards and returns the slot to `FREE` (R14). -/
theorem slot_fail_reserved (hr : mu.reserved = some x) (hx : x < s.slots.length) (hne : x ∉ order)
    (st : Status) (v : Word) (y : Nat) : (s.fail st v).slot y =
      if y = x then { s.slot y with st := .free } else s.slotsReleased order y := by
  rw [fail_slot, slot_freeReserved ((releaseGuards_inFlight s).trans hf), hr,
    slot_releaseGuards_exclusive hf hh, releaseGuards_slots_length]
  by_cases hy : y = x
  · subst hy
    simp [hx, State.slotsReleased, hne]
  · simp [hy, Ne.symm hy]

/-- A slot held and given new words at the end of a command (R134). -/
theorem slot_modifyBits_finish (hx : x < s.slots.length) (hmem : x ∈ order) (bits : Memory)
    (st : Status) (v : Word) (y : Nat) :
    ((s.modifySlot x fun t => { t with bits := bits }).finish st v).slot y =
      if y = x then { s.slot y with bits := bits, wr := none } else s.slotsReleased order y := by
  rw [finish_slot, slot_releaseGuards_exclusive (s := s.modifySlot x _) hf hh]
  by_cases hy : y = x
  · subst hy
    simp [State.slotsReleased, hx, hmem]
  · simp [State.slotsReleased, hy]

/-- A slot no guard is held of, filled at the end of a command (R135, R136). -/
theorem slot_fillSlot_finish (hx : x < s.slots.length) (hne : x ∉ order) (m : Word) (k : KeyCount)
    (keys : List Word) (bits : Memory) (n : Word) (st : Status) (v : Word) (y : Nat) :
    ((s.fillSlot x m k keys bits n).finish st v).slot y =
      if y = x then
        { s.slot y with st := .valid, m := m, k := k, keys := keys, bits := bits, n := n }
      else s.slotsReleased order y := by
  rw [finish_slot, slot_releaseGuards_exclusive (s := s.fillSlot x m k keys bits n) hf hh]
  by_cases hy : y = x
  · subst hy
    simp [State.slotsReleased, State.fillSlot, hx, hne]
  · simp [State.slotsReleased, State.fillSlot, hy]

/-- The slot a command reserved is none of those it holds (R21, R62). -/
theorem State.Sound.reserved_not_mem (h : s.Sound) (hr : mu.reserved = some x) : x ∉ order := by
  intro hx
  have hv := h.valid_of_held hf (x := x) (mode := .exclusive) (by
    rw [hh, mem_map_exclusive]
    exact ⟨hx, rfl⟩)
  simp [h.st_of_reserved hf hr] at hv

end Held

/-! ## The bodies -/

/-- At its body a command holds the guards of its lock order, and its destination where it has one.
-/
theorem State.Sound.holds_at_body (h : s.Sound) (hin : InPhase s i .body mu) {dest : Option Nat}
    (hi : (i ∈ [Instr.iscompat sa sb, .verifycompat sa sb, .unionip sa sb] ∧ dest = none ∧
        order = s.lockList sa sb) ∨
      (i = .union sd sa sb ∧ dest = some sd.toNat ∧ order = s.lockList sa sb) ∨
      (i = .copy sd sa ∧ dest = some sd.toNat ∧ order = [sa.toNat])) :
    mu.reserved = dest ∧ mu.held = order.map fun x => (x, Mode.exclusive) := by
  obtain ⟨hf, hcmd, hp⟩ := hin
  have hok := h.microOk hf
  rw [State.microOk, Bool.and_eq_true, hcmd] at hok
  obtain ⟨-, hok⟩ := hok
  obtain ⟨hi, rfl, rfl⟩ | ⟨rfl, rfl, rfl⟩ | ⟨rfl, rfl, rfl⟩ := hi
  · simp only [List.mem_cons, List.not_mem_nil, or_false] at hi
    obtain rfl | rfl | rfl := hi <;> exact exclusiveOk_body hok hp
  · exact exclusiveOk_body hok hp
  · exact exclusiveOk_body hok hp

section Body

variable (hf : s.inFlight = some mu) (hp : mu.phase = .body)
include hf hp

/-- Where the filters differ, the three commands that need compatible ones fail with the mask (R133
to R135). -/
theorem exec_incompatible (hi : i ∈ [Instr.verifycompat sa sb, .unionip sa sb, .union sd sa sb])
    (hc : ¬ (s.slot sa.toNat).compatible (s.slot sb.toNat)) :
    exec i s =
      .next (s.fail .incompatible (compatMask (s.slot sa.toNat) (s.slot sb.toNat))) := by
  have hmask : s.compat sa sb ≠ 0#64 := mt compat_eq_zero.1 hc
  simp only [List.mem_cons, List.not_mem_nil, or_false] at hi
  obtain rfl | rfl | rfl := hi
  · rw [exec, execVerifycompat, exclusiveSteps_body hf hp, if_pos hmask, State.compat]
  · rw [exec, execUnionip, exclusiveSteps_body hf hp, if_pos hmask, State.compat]
  · rw [exec, execUnion, exclusiveSteps_body hf hp, if_pos hmask, State.compat]

theorem exec_iscompat_body : exec (.iscompat sa sb) s =
    .next (s.finish .ok (flagWord (s.compat sa sb == 0#64))) := by
  rw [exec, execIscompat, exclusiveSteps_body hf hp]

theorem exec_verifycompat_body (hc : (s.slot sa.toNat).compatible (s.slot sb.toNat)) :
    exec (.verifycompat sa sb) s = .next (s.finish .ok 0) := by
  rw [exec, execVerifycompat, exclusiveSteps_body hf hp, if_neg (not_not.2 (compat_eq_zero.2 hc))]
  rfl

theorem exec_unionip_body (hc : (s.slot sa.toNat).compatible (s.slot sb.toNat)) :
    exec (.unionip sa sb) s =
      .next ((s.modifySlot sa.toNat fun t => { t with bits := s.mergedBits sa sb }).finish
        .ok 0) := by
  rw [exec, execUnionip, exclusiveSteps_body hf hp, if_neg (not_not.2 (compat_eq_zero.2 hc))]
  rfl

theorem exec_union_body (hc : (s.slot sa.toNat).compatible (s.slot sb.toNat)) :
    exec (.union sd sa sb) s = .next ((s.fillSlot sd.toNat (s.slot sa.toNat).m (s.slot sa.toNat).k
      (s.slot sa.toNat).keys (s.mergedBits sa sb) 0).finish .ok 0) := by
  rw [exec, execUnion, exclusiveSteps_body hf hp, if_neg (not_not.2 (compat_eq_zero.2 hc))]
  rfl

theorem exec_copy_body : exec (.copy sd sa) s =
    .next ((s.fillSlot sd.toNat (s.slot sa.toNat).m (s.slot sa.toNat).k (s.slot sa.toNat).keys
      (copyWords (wordCount (s.slot sa.toNat).m) (s.slot sa.toNat).bits)
      (s.slot sa.toNat).n).finish .ok 0) := by
  rw [exec, execCopy, exclusiveSteps_body hf hp]
  rfl

end Body

/-! ## The statements -/

/-- Settles O31: the flag is the comparator's, and the guards are released. -/
theorem iscompatAnswersCompatibility : Obligations.IscompatAnswersCompatibility := by
  intro s mu sa sb result hinv hin hone hzero
  obtain ⟨-, hh⟩ := (inv_iff.1 hinv).holds_at_body (sd := sa) (sa := sa) (sb := sb) hin
    (.inl ⟨by simp, rfl, rfl⟩)
  obtain ⟨hf, -, hp⟩ := hin
  have hflag : (s.compat sa sb == 0#64) = true ↔
      (s.slot sa.toNat).compatible (s.slot sb.toNat) := beq_iff_eq.trans compat_eq_zero
  obtain ⟨hone', hzero'⟩ := flagWord_of_iff hflag
  have hresult : flagWord (s.compat sa sb == 0#64) = result := by
    by_cases hc : (s.slot sa.toNat).compatible (s.slot sb.toNat)
    · rw [hone hc, hone' hc]
    · rw [hzero hc, hzero' hc]
  rw [exec_iscompat_body hf hp, hresult, ← slotsReleased_lockList]
  exact endsWith_finish_exclusive hf hh result

/-- Settles O32: a success or the failure with the mask, and the guards are released. -/
theorem verifycompatReportsTheMask : Obligations.VerifycompatReportsTheMask := by
  intro s mu sa sb hinv hin
  obtain ⟨hr, hh⟩ := (inv_iff.1 hinv).holds_at_body (sd := sa) (sa := sa) (sb := sb) hin
    (.inl ⟨by simp, rfl, rfl⟩)
  obtain ⟨hf, -, hp⟩ := hin
  rw [← slotsReleased_lockList]
  refine ⟨fun hc => ?_, fun hc => ?_⟩
  · rw [exec_verifycompat_body hf hp hc]
    exact endsWith_finish_exclusive hf hh 0
  · rw [exec_incompatible (sd := sa) hf hp (by simp) hc]
    exact endsWith_fail_exclusive hf hh hr ..

/-- Settles O33: `SA` receives the merge of two vectors of one size, which is their OR at every word.
-/
theorem unionipMergesIntoTheFirst : Obligations.UnionipMergesIntoTheFirst := by
  intro s mu sa sb hinv hin
  have h := inv_iff.1 hinv
  obtain ⟨hr, hh⟩ := h.holds_at_body (sd := sa) (sa := sa) (sb := sb) hin
    (.inl ⟨by simp, rfl, rfl⟩)
  obtain ⟨hf, hcmd, hp⟩ := hin
  refine ⟨fun hc => ?_, fun hc => ?_⟩
  · have hx : sa.toNat < s.slots.length := h.slot_lt hf (by simp [hcmd, Instr.slots])
    have hslot := slot_modifyBits_finish hf hh hx (mem_lockOrder.2 (.inl rfl))
    refine ⟨_, exec_unionip_body hf hp hc,
      modifySlot_finish_answers (turn_lt_of_inFlight _ hf) .., fun j => ?_, fun y => ?_⟩
    · rw [← h.load_mergedBits hf hh hc, State.wordLoad, hslot, if_pos rfl]
    · rw [hslot, slotsReleased_lockList]
      by_cases hy : y = sa.toNat <;> simp [hy]
  · rw [exec_incompatible (sd := sa) hf hp (by simp) hc, ← slotsReleased_lockList]
    exact endsWith_fail_exclusive hf hh hr ..

/-- Settles O34: the reserved slot, which is none of the operands, is filled with their merge or
returned. -/
theorem unionBuildsTheMerge : Obligations.UnionBuildsTheMerge := by
  intro s mu sd sa sb hinv hin
  have h := inv_iff.1 hinv
  obtain ⟨hr, hh⟩ := h.holds_at_body hin (.inr (.inl ⟨rfl, rfl, rfl⟩))
  obtain ⟨hf, -, hp⟩ := hin
  have hx := h.reserved_lt hf hr
  have hne := h.reserved_not_mem hf hh hr
  refine ⟨fun hc => ?_, fun hc => ?_⟩
  · have hslot := slot_fillSlot_finish hf hh hx hne
    refine ⟨_, exec_union_body hf hp hc,
      modifySlot_finish_answers (turn_lt_of_inFlight _ hf) .., fun j => ?_, fun y => ?_⟩
    · rw [← h.load_mergedBits hf hh hc, State.wordLoad, hslot, if_pos rfl]
    · rw [hslot, slotsReleased_lockList]
      by_cases hy : y = sd.toNat <;> simp [hy]
  · rw [exec_incompatible (sd := sd) hf hp (by simp) hc]
    refine endsWith_fail hf _ _ fun y => ?_
    rw [slot_fail_reserved hf hh hr hx hne, slotsReleased_lockList]

/-- Settles O35: the reserved slot is filled with all words of the source, whose padding is clear. -/
theorem copySnapshotsTheSource : Obligations.CopySnapshotsTheSource := by
  intro s mu sd sa hinv hin
  have h := inv_iff.1 hinv
  obtain ⟨hr, hh⟩ := h.holds_at_body (sb := sa) hin (.inr (.inr ⟨rfl, rfl, rfl⟩))
  obtain ⟨hf, -, hp⟩ := hin
  have hheld : (sa.toNat, Mode.exclusive) ∈ mu.held := by simp [hh]
  have hsa := h.held_lt hf hheld
  have hbits := (h.filter_of_valid hsa (h.valid_of_held hf hheld)).padding.copyWords_eq
    (h.memory _ hsa)
  rw [exec_copy_body hf hp, hbits]
  refine ⟨_, rfl, modifySlot_finish_answers (turn_lt_of_inFlight _ hf) .., fun y => ?_⟩
  rw [slot_fillSlot_finish hf hh (h.reserved_lt hf hr) (h.reserved_not_mem hf hh hr)]
  simp only [State.slotsReleased, List.mem_singleton]

end Sys2Proof.Machine
end

section
/-! The statuses (R150 to R152): their codes, and which of them each command can give, said once over
all sixteen commands. -/

namespace Sys2Proof.Machine

variable {s t u : State} {mu : MicroState} {i : Instr} {st : Status} {v : Word} {r : Response}
  {c : Command} {p : Nat}

/-- Settles O9: each code is the table's own number. -/
theorem statusCodesFollowTheTable : Obligations.StatusCodesFollowTheTable :=
  ⟨rfl, rfl, rfl, rfl, rfl, rfl, rfl, rfl, rfl, rfl, rfl⟩

/-! ## The rows of R152 -/

/-- Every command can complete (R152). -/
theorem ok_mem_possibleStatuses (i : Instr) : .ok ∈ possibleStatuses i := by
  cases i <;> simp [possibleStatuses]

/-- Every command names a slot, and so can name a bad one (R152, R155 step 4). -/
theorem badSlot_mem_possibleStatuses (i : Instr) : .badSlot ∈ possibleStatuses i := by
  cases i <;> simp [possibleStatuses]

/-- No row lists the status reserved for a host's serializer (R151). -/
theorem hashMismatch_not_mem_possibleStatuses (i : Instr) : .hashMismatch ∉ possibleStatuses i := by
  cases i <;> simp [possibleStatuses]

/-- Each check of `CREATE` fails with a status of its row (R100, R152). -/
theorem createCheck_mem_possibleStatuses {cfg : Config} {d : Slot} {sd : SlotNum} {m : Word}
    {keys : List Word} (h : createCheck cfg d m keys = some st) :
    st ∈ possibleStatuses (.create sd m keys) :=
  List.mem_cons_of_mem _ (List.mem_append_left [Status.badSlot] (createCheck_status h))

/-! ## Every command -/

/-- From `s` to `t` command `i` goes on, or it answers with a status R152 lists for it. -/
inductive GivesListed (s t : State) (i : Instr) : Prop where
  | goesOn (mu : MicroState) (h : GoesOn s t mu)
  | answers (st : Status) (v : Word) (h : Answers s t st v) (hst : st ∈ possibleStatuses i)

theorem givesListed_ok (h : Answers s t .ok v) : GivesListed s t i :=
  .answers _ _ h (ok_mem_possibleStatuses i)

theorem givesListed_fail (hp : s.turn < s.ports.length) (hst : st ∈ possibleStatuses i) :
    GivesListed s (s.fail st v) i :=
  .answers _ _ (fail_answers hp ..) hst

theorem givesListed_fail_badSlot (hp : s.turn < s.ports.length) :
    GivesListed s (s.fail .badSlot v) i :=
  givesListed_fail hp (badSlot_mem_possibleStatuses i)

/-- A read answers `BadSlot` or the status it reads (R110 to R114). -/
theorem givesListed_readSlot (hp : s.turn < s.ports.length) {x : Nat} {read : Slot → Status × Word}
    (h : s.readSlot x read = .next t) (hread : ∀ a, (read a).1 ∈ possibleStatuses i) :
    GivesListed s t i := by
  obtain ⟨-, rfl⟩ | ⟨-, ⟨-, rfl⟩ | ⟨-, rfl⟩⟩ := readSlot_next h
  · exact givesListed_fail_badSlot hp
  · exact givesListed_ok (finish_answers hp ..)
  · exact givesListed_fail hp (hread _)

/-- The acquisition of a loop over keys goes on or answers `BadSlot` (R51). -/
theorem givesListed_sharedAcquisition (hp : s.turn < s.ports.length) {x : Nat} {ph : Phase}
    (h : ((s.slot x).st ≠ .valid ∧ t = s.fail .badSlot 0#64) ∨
      ((s.slot x).st = .valid ∧ t = (s.modifySlot x fun u => { u with rd := u.rd + 1 }).setInFlight
        { mu with held := mu.held ++ [(x, .shared)], phase := ph })) :
    GivesListed s t i := by
  obtain ⟨-, rfl⟩ | ⟨-, rfl⟩ := h
  · exact givesListed_fail_badSlot hp
  · exact .goesOn _ (modifySlot_setInFlight_goesOn hp ..)

/-- Up to its body a command that takes exclusive guards answers `BadSlot` if at all, and `SlotBusy`
where it reserves a destination (R52, R63). -/
theorem givesListed_exclusiveSteps (hf : s.inFlight = some mu) {dest : Option SlotNum}
    {order : List Nat} {body : Result} (h : s.exclusiveSteps i dest order body = .next t)
    (hdest : ∀ sd, dest = some sd → .slotBusy ∈ possibleStatuses i)
    (hbody : body = .next t → GivesListed s t i) : GivesListed s t i := by
  have hp := turn_lt_of_inFlight _ hf
  obtain ⟨-, sd, hsd, ⟨-, rfl⟩ | ⟨-, rfl⟩⟩ | ⟨-, x, -, -, -, ⟨-, rfl⟩ | ⟨-, rfl⟩⟩ | ⟨-, hb⟩ :=
    exclusiveSteps_next hf h
  · exact givesListed_fail hp (hdest sd hsd)
  · exact .goesOn _ (modifySlot_setInFlight_goesOn hp ..)
  · exact givesListed_fail_badSlot hp
  · exact .goesOn _ (modifySlot_setInFlight_goesOn hp ..)
  · exact hbody hb

/-- A body that needs compatible filters answers `Incompatible` or succeeds (R133 to R135). -/
theorem givesListed_compatibleBody (hp : s.turn < s.ports.length)
    (hi : .incompatible ∈ possibleStatuses i) {mask : Word} (hu : Answers s u .ok 0)
    (h : (if mask ≠ 0#64 then .next (s.fail .incompatible mask) else .next u : Result) = .next t) :
    GivesListed s t i := by
  split at h <;> obtain rfl := Host.Outcome.next.inj h
  · exact givesListed_fail hp hi
  · exact givesListed_ok hu

/-- Every micro-step of a command in flight goes on or answers with a status of its row (R152). -/
theorem exec_givesListed (hf : s.inFlight = some mu) (h : exec i s = .next t) :
    GivesListed s t i := by
  have hp := turn_lt_of_inFlight _ hf
  cases i with
  | create sd m keys =>
    obtain ⟨-, ⟨status, hs, rfl⟩ | ⟨-, -, -, -, -, -, rfl⟩⟩ := execCreate_next hf h
    · exact givesListed_fail hp (createCheck_mem_possibleStatuses hs)
    · exact givesListed_ok (modifySlot_finish_answers hp ..)
  | newcompat sd sa =>
    obtain ⟨-, ⟨-, rfl⟩ | ⟨-, -, rfl⟩ | ⟨-, -, rfl⟩⟩ := execNewcompat_next hf h
    · exact givesListed_fail hp (by simp [possibleStatuses])
    · exact givesListed_fail_badSlot hp
    · exact givesListed_ok (modifySlot_finish_answers hp ..)
  | release sa =>
    obtain ⟨-, -, -, ⟨-, rfl⟩ | ⟨-, rfl⟩⟩ := execRelease_next hf h
    · exact givesListed_fail_badSlot hp
    · exact givesListed_ok (modifySlot_finish_answers hp ..)
  | add sa hash =>
    obtain ⟨-, -, h⟩ | ⟨-, rfl⟩ | ⟨-, rfl⟩ := execAdd_next hf h
    · exact givesListed_sharedAcquisition hp h
    · exact .goesOn _ (modifySlot_setInFlight_goesOn hp ..)
    · exact givesListed_ok (modifySlot_finish_answers hp ..)
  | addc sa hash =>
    obtain ⟨-, -, h⟩ | ⟨-, rfl⟩ | ⟨-, rfl⟩ | ⟨-, rfl⟩ := execAddc_next hf h
    · exact givesListed_sharedAcquisition hp h
    · exact .goesOn _ (setInFlight_goesOn hp _)
    · exact .goesOn _ (modifySlot_setInFlight_goesOn hp ..)
    · exact givesListed_ok (modifySlot_finish_answers hp ..)
  | contains sa hash =>
    obtain ⟨-, -, h⟩ | ⟨-, rfl⟩ | ⟨-, rfl⟩ := execContains_next hf h
    · exact givesListed_sharedAcquisition hp h
    · exact .goesOn _ (setInFlight_goesOn hp _)
    · exact givesListed_ok (finish_answers hp ..)
  | getm sa | getk sa | getn sa =>
    obtain ⟨-, hb⟩ := oneStep_next hf h
    exact givesListed_readSlot hp hb fun _ => ok_mem_possibleStatuses _
  | getkey sa index =>
    obtain ⟨-, hb⟩ := oneStep_next hf h
    exact givesListed_readSlot hp hb fun _ => by split <;> simp [possibleStatuses]
  | readword sa index =>
    obtain ⟨-, -, ⟨-, rfl⟩ | ⟨-, -, rfl⟩ | ⟨-, -, rfl⟩⟩ := execReadword_next hf h
    · exact givesListed_fail_badSlot hp
    · exact givesListed_fail hp (by simp [possibleStatuses])
    · exact givesListed_ok (finish_answers hp ..)
  | iscompat sa sb =>
    rw [exec, execIscompat] at h
    refine givesListed_exclusiveSteps hf h (by simp) fun hb => ?_
    obtain rfl := Host.Outcome.next.inj hb
    exact givesListed_ok (finish_answers hp ..)
  | verifycompat sa sb =>
    rw [exec, execVerifycompat] at h
    exact givesListed_exclusiveSteps hf h (by simp)
      (givesListed_compatibleBody hp (by simp [possibleStatuses]) (finish_answers hp ..))
  | unionip sa sb =>
    rw [exec, execUnionip] at h
    exact givesListed_exclusiveSteps hf h (by simp)
      (givesListed_compatibleBody hp (by simp [possibleStatuses]) (modifySlot_finish_answers hp ..))
  | union sd sa sb =>
    rw [exec, execUnion] at h
    exact givesListed_exclusiveSteps hf h (by simp [possibleStatuses])
      (givesListed_compatibleBody hp (by simp [possibleStatuses]) (modifySlot_finish_answers hp ..))
  | copy sd sa =>
    rw [exec, execCopy] at h
    refine givesListed_exclusiveSteps hf h (by simp [possibleStatuses]) fun hb => ?_
    obtain rfl := Host.Outcome.next.inj hb
    exact givesListed_ok (modifySlot_finish_answers hp ..)

/-! ## A port's micro-step -/

/-- The response a micro-step delivers is the one it answers with. -/
theorem Answers.response (h : Answers s t st v)
    (hr : (t.port s.turn).resp = (s.port s.turn).resp ++ [r]) :
    r = { status := st, result := v } := by
  obtain ⟨-, -, -, -, -, -, -, hp⟩ := h
  simpa [hp, eq_comm] using hr

/-- A micro-step that delivers a response delivers one of the command's row. -/
theorem GivesListed.status_mem (h : GivesListed s t i)
    (hr : (t.port s.turn).resp = (s.port s.turn).resp ++ [r]) : r.status ∈ possibleStatuses i := by
  cases h with
  | goesOn mu h =>
    obtain ⟨-, -, -, -, -, -, -, hp⟩ := h
    simp [hp] at hr
  | answers st v h hst => exact h.response hr ▸ hst

/-- A port whose next command the decoder rejects has none in flight: that would be the next one. -/
theorem State.Sound.idle_of_decode_error (h : s.Sound) (hn : (s.port p).nextCommand = some c)
    (hd : decode c = .error st) : (s.port p).busy = none := by
  by_contra hb
  obtain ⟨mu, hb⟩ := Option.ne_none_iff_exists'.1 hb
  obtain ⟨c', hc', hd'⟩ := (h.withArbitration p s.schedule s.fresh).nextCommand (mu := mu) hb
  obtain rfl := Option.some.inj (hn.symm.trans hc')
  simp [hd, Except.toOption] at hd'

/-- A port whose next command decodes to `i` issues `i`, rejects its slot numbers, or takes its next
micro-step. -/
theorem State.Sound.stepPort_givesListed (h : s.Sound) (hn : (s.port p).nextCommand = some c)
    (hd : decode c = .ok i) (hstep : s.stepPort p = .next t) :
    GivesListed { s with turn := p } t i := by
  obtain ⟨hp, ⟨c', st, -, hc', hd', -⟩ | ⟨c', i', -, hc', hd', hi⟩ | ⟨mu, hb, he⟩⟩ :=
    stepPort_next hstep
  · obtain rfl := Option.some.inj (hn.symm.trans hc')
    simp [hd] at hd'
  · obtain ⟨-, rfl⟩ | ⟨-, rfl⟩ := hi
    · exact .answers _ _ (respond_answers hp ..) (badSlot_mem_possibleStatuses i)
    · exact .goesOn _ (setInFlight_goesOn hp _)
  · obtain ⟨c', hc', hd'⟩ := (h.withArbitration p s.schedule s.fresh).nextCommand (mu := mu) hb
    obtain rfl := Option.some.inj (hn.symm.trans hc')
    obtain rfl : i = mu.cmd := by simpa [hd, Except.toOption] using hd'
    exact exec_givesListed (s := { s with turn := p }) hb he

/-- Settles O37: the next command decodes, and the response is of its row, or it is rejected in its
decode step with the decoder's status. -/
theorem statusesFollowTheTable : Obligations.StatusesFollowTheTable := by
  intro s t p c r hinv hn hstep hr
  have h := inv_iff.1 hinv
  cases hd : decode c with
  | ok i =>
    have hmem := (h.stepPort_givesListed hn hd hstep).status_mem hr
    refine ⟨fun j hj => Except.ok.inj hj ▸ hmem, by simp, fun hhash => ?_⟩
    exact hashMismatch_not_mem_possibleStatuses i (hhash ▸ hmem)
  | error st =>
    obtain ⟨t', ht', hans, -⟩ := endsWith_of_decode_error (h.idle_of_decode_error hn hd) hn hd
    obtain rfl := Host.Outcome.next.inj (ht'.symm.trans hstep)
    obtain rfl := hans.response hr
    refine ⟨by simp, fun st' hst' => by rw [Except.error.inj hst'], ?_⟩
    obtain ⟨rfl, -⟩ | ⟨rfl, -⟩ := decode_eq_error hd <;> simp

end Sys2Proof.Machine
end

section
/-! Where a run stops (R183 to R186): a micro-step of a sound state answers or waits at a guard, so
a step stops only where every port has ended or waits. Under `CANONICAL` the waits end at a port that
does not wait; under `ARG_ORDER` two ports may wait for each other for good. -/

namespace Sys2Proof.Machine

variable {s t : State} {mu nu : MicroState} {i : Instr} {p q x y : Nat} {mode : Mode}
  {a b : SlotNum}

/-! ## A micro-step answers or waits -/

/-- The micro-step answers a next state, or waits at a guard. -/
def AnswersOrWaits (r : Result) : Prop := (∃ t, r = .next t) ∨ r = .fault .waiting

theorem answersOrWaits_next (t : State) : AnswersOrWaits (.next t) := .inl ⟨t, rfl⟩

theorem answersOrWaits_waiting : AnswersOrWaits (.fault .waiting) := .inr rfl

theorem answersOrWaits_ite {c : Prop} [Decidable c] {r r' : Result} (h : AnswersOrWaits r)
    (h' : AnswersOrWaits r') : AnswersOrWaits (if c then r else r') := by
  split
  · exact h
  · exact h'

theorem answersOrWaits_acquireShared (s : State) (mu : MicroState) (x : Nat) (ph : Phase) :
    AnswersOrWaits (s.acquireShared mu x ph) :=
  answersOrWaits_ite answersOrWaits_waiting
    (answersOrWaits_ite (answersOrWaits_next _) (answersOrWaits_next _))

theorem answersOrWaits_acquireNext {order : List Nat} (h : mu.held.length < order.length) :
    AnswersOrWaits (s.acquireNext mu order) := by
  rw [State.acquireNext, List.getElem?_eq_getElem h]
  exact answersOrWaits_ite answersOrWaits_waiting
    (answersOrWaits_ite (answersOrWaits_next _) (answersOrWaits_next _))

theorem answersOrWaits_readSlot (s : State) (x : Nat) (read : Slot → Status × Word) :
    AnswersOrWaits (s.readSlot x read) := by
  refine answersOrWaits_ite (answersOrWaits_next _) ?_
  split <;> exact answersOrWaits_next _

/-- A command with one micro-step is at it. -/
theorem answersOrWaits_oneStep (hf : s.inFlight = some mu) (hok : oneStepOk mu = true)
    {body : MicroState → Result} (hbody : AnswersOrWaits (body mu)) :
    AnswersOrWaits (s.oneStep i body) := by
  obtain ⟨hp, -⟩ := oneStepOk_iff.1 hok
  rwa [oneStep_body hf hp]

/-- A command that takes exclusive guards is at its reservation, at a guard to come, or at its body.
-/
theorem answersOrWaits_exclusiveSteps (hf : s.inFlight = some mu) {dest : Option SlotNum}
    {order : List Nat} {body : Result}
    (hok : exclusiveOk mu (dest.map BitVec.toNat) order = true) (hbody : AnswersOrWaits body) :
    AnswersOrWaits (s.exclusiveSteps i dest order body) := by
  obtain ⟨-, ⟨hp, hdest, -⟩ | ⟨-, ⟨hp, hlt, -⟩ | ⟨hp, -⟩⟩⟩ := exclusiveOk_iff.1 hok
  · obtain ⟨sd, rfl⟩ := Option.isSome_iff_exists.1 (Option.isSome_map ▸ hdest)
    rw [exclusiveSteps_reserve hf hp]
    exact answersOrWaits_ite (answersOrWaits_next _) (answersOrWaits_next _)
  · rw [exclusiveSteps_acquire hf hp]
    exact answersOrWaits_acquireNext hlt
  · rwa [exclusiveSteps_body hf hp]

/-- The phases of a loop over keys (R115 to R117). -/
theorem phase_of_loopOk {phases : List Phase} (h : s.loopOk mu x phases = true) :
    mu.phase = .acquire ∨ mu.phase ∈ phases ∨ mu.phase = .body := by
  obtain ⟨-, ⟨hp, -⟩ | ⟨-, ⟨hp, -⟩ | ⟨hp, -⟩⟩⟩ := loopOk_iff.1 h
  · exact .inl hp
  · exact .inr (.inl hp)
  · exact .inr (.inr hp)

/-- The next micro-step of a command in a micro-state of its pseudocode answers or waits (R14). -/
theorem exec_answersOrWaits (hf : s.inFlight = some mu) (hok : s.microOk mu = true)
    (hi : mu.cmd = i) : AnswersOrWaits (exec i s) := by
  rw [State.microOk, Bool.and_eq_true, hi] at hok
  obtain ⟨-, hok⟩ := hok
  cases i with
  | create sd m keys =>
    refine answersOrWaits_oneStep hf hok ?_
    split <;> exact answersOrWaits_next _
  | newcompat sd sa =>
    exact answersOrWaits_oneStep hf hok (answersOrWaits_ite (answersOrWaits_next _)
      (answersOrWaits_ite (answersOrWaits_next _) (answersOrWaits_next _)))
  | release sa =>
    exact answersOrWaits_oneStep hf hok (answersOrWaits_ite answersOrWaits_waiting
      (answersOrWaits_ite (answersOrWaits_next _) (answersOrWaits_next _)))
  | add sa hash =>
    rw [exec, execAdd, microStep_inFlight hf]
    obtain hp | hp | hp := phase_of_loopOk hok
    · rw [hp]; exact answersOrWaits_acquireShared ..
    · rw [List.mem_singleton.1 hp]; exact answersOrWaits_next _
    · rw [hp]; exact answersOrWaits_next _
  | addc sa hash =>
    rw [exec, execAddc, microStep_inFlight hf]
    obtain hp | hp | hp := phase_of_loopOk hok
    · rw [hp]; exact answersOrWaits_acquireShared ..
    · obtain hp | hp := List.mem_pair.1 hp <;> rw [hp] <;> exact answersOrWaits_next _
    · rw [hp]; exact answersOrWaits_next _
  | contains sa hash =>
    rw [exec, execContains, microStep_inFlight hf]
    obtain hp | hp | hp := phase_of_loopOk hok
    · rw [hp]; exact answersOrWaits_acquireShared ..
    · rw [List.mem_singleton.1 hp]; exact answersOrWaits_next _
    · rw [hp]; exact answersOrWaits_next _
  | getm sa | getk sa | getn sa | getkey sa index =>
    exact answersOrWaits_oneStep hf hok (answersOrWaits_readSlot ..)
  | readword sa index =>
    exact answersOrWaits_oneStep hf hok
      (answersOrWaits_ite answersOrWaits_waiting (answersOrWaits_readSlot ..))
  | iscompat sa sb =>
    exact answersOrWaits_exclusiveSteps hf (dest := none) hok (answersOrWaits_next _)
  | verifycompat sa sb | unionip sa sb =>
    exact answersOrWaits_exclusiveSteps hf (dest := none) hok
      (answersOrWaits_ite (answersOrWaits_next _) (answersOrWaits_next _))
  | union sd sa sb =>
    exact answersOrWaits_exclusiveSteps hf (dest := some sd) hok
      (answersOrWaits_ite (answersOrWaits_next _) (answersOrWaits_next _))
  | copy sd sa =>
    exact answersOrWaits_exclusiveSteps hf (dest := some sd) hok (answersOrWaits_next _)

/-! ## Enabled ports answer, other ports with a command wait -/

/-- The enabled ports: those with a command to issue, and those whose await holds (R47). -/
theorem enabled_iff : s.enabled p = true ↔
    (∃ c, (s.port p).busy = none ∧ (s.port p).nextCommand = some c) ∨
      ∃ mu, (s.port p).busy = some mu ∧ s.grantable mu = true := by
  cases hb : (s.port p).busy with
  | none =>
    by_cases hp : p < s.ports.length
    · simp [enabled_of_idle hp hb, Option.isSome_iff_exists]
    · have hn : (s.port p).nextCommand = none := by
        simp [port_of_ge _ _ (Nat.le_of_not_lt hp), Port.reset, Port.nextCommand]
      simpa [hn] using mt lt_of_enabled hp
  | some mu => simp [enabled_of_busy hb]

/-- What a step uses up has no part in which ports are enabled (log entry 3). -/
theorem enabled_advance (s : State) (p : Nat) : s.advance.enabled p = s.enabled p :=
  Bool.eq_iff_iff.2 ((enabled_iff (s := s.advance)).trans (enabled_iff (s := s)).symm)

theorem State.Sound.advance (h : s.Sound) : s.advance.Sound :=
  h.withArbitration s.turn s.schedule.tail (s.fresh + 1)

/-- The micro-step of a busy port of a sound state answers or waits. -/
theorem State.Sound.stepPort_answersOrWaits (h : s.Sound) (hb : (s.port p).busy = some mu) :
    AnswersOrWaits (s.stepPort p) := by
  rw [stepPort_busy hb]
  exact exec_answersOrWaits (s := { s with turn := p }) hb
    ((h.withArbitration p s.schedule s.fresh).microOk hb) rfl

theorem State.Sound.exists_next_of_enabled (h : s.Sound) (he : s.enabled p = true) :
    ∃ t, s.stepPort p = .next t := by
  obtain ⟨c, hb, hn⟩ | ⟨mu, hb, -⟩ := enabled_iff.1 he
  · rw [stepPort_idle hb hn, State.issueCommand]
    split
    · exact ⟨_, rfl⟩
    · exact ⟨_, exec_idle (s := { s with turn := p }) (lt_of_nextCommand hn) hb⟩
  · refine (h.stepPort_answersOrWaits hb).resolve_right fun hw => ?_
    simp [enabled_eq, hw, mayMove] at he

theorem State.Sound.stepPort_waiting (h : s.Sound) (hb : (s.port p).busy = some mu)
    (hg : s.grantable mu = false) : s.stepPort p = .fault .waiting := by
  refine (h.stepPort_answersOrWaits hb).resolve_left ?_
  rintro ⟨t, ht⟩
  have he := enabled_of_busy hb
  rw [enabled_eq, ht, mayMove_next, hg] at he
  simp at he

/-! ## The step -/

theorem pick_eq_none {ps : List Nat} : s.pick ps = none ↔ ps = [] := by
  match ps with
  | [] => simp [State.pick]
  | [q] => simp [State.pick]
  | q :: q' :: rest =>
    have hlt := Nat.mod_lt (s.schedule.headD (Config.freeChoice s.fresh))
      (Nat.zero_lt_succ (rest.length + 1))
    simpa [State.pick, List.getElem?_eq_none_iff] using hlt

theorem ended_iff : s.ended = true ↔
    ∀ q, q < s.ports.length → (s.port q).busy = none ∧ (s.port q).pc = (s.port q).prog.length := by
  rw [State.ended, List.all_eq_true, List.forall_mem_iff_forall_getElem]
  refine forall₂_congr fun q hq => ?_
  simp [port_of_lt _ _ hq]

/-- A step of a sound state answers, or no port is enabled. -/
theorem State.Sound.step_cases (h : s.Sound) : (∃ t, step s = .next t) ∨
    (∀ q, s.enabled q = false) ∧ step s = .fault (if s.ended then .runEnded else .stuck) := by
  cases hpick : s.pick s.enabledPorts with
  | some p =>
    have he : s.advance.enabled p = true :=
      (enabled_advance s p).trans (mem_enabledPorts.1 (mem_of_pick hpick))
    obtain ⟨t, ht⟩ := h.advance.exists_next_of_enabled he
    exact .inl ⟨t, by rw [step, hpick, ← ht]⟩
  | none =>
    refine .inr ⟨fun q => ?_, ?_⟩
    · rw [← Bool.not_eq_true, ← mem_enabledPorts, pick_eq_none.1 hpick]
      exact List.not_mem_nil
    · rw [step, hpick]
      exact (apply_ite Host.Outcome.fault ..).symm

/-- Settles O13: where no port is enabled, the stop's name says whether every port has ended. -/
theorem stepStopsOnlyAtTheEndOrStuck : Obligations.StepStopsOnlyAtTheEndOrStuck := by
  intro s hinv
  have h := inv_iff.1 hinv
  refine h.step_cases.imp_right fun ⟨hnone, hstep⟩ => ?_
  by_cases hend : s.ended = true
  · exact .inl ⟨ended_iff.1 hend, by rw [hstep, if_pos hend]⟩
  · refine .inr ⟨?_, hnone, by rw [hstep, if_neg hend]⟩
    rw [ended_iff] at hend
    push Not at hend
    obtain ⟨q, hq, hleft⟩ := hend
    have hport := h.port q hq
    simp only [State.portOk, Bool.and_eq_true, decide_eq_true_eq] at hport
    refine ⟨q, hq, ?_⟩
    by_cases hb : (s.port q).busy = none
    · exact .inr (lt_of_le_of_ne hport.1 (hleft hb))
    · exact .inl hb

/-! ## The guard a command awaits -/

/-- The slot whose guard the next micro-step of a command in flight awaits (R51, R52, R102, R114).
-/
def State.awaited (s : State) (mu : MicroState) : Option Nat :=
  match mu.cmd with
  | .add sa _ | .addc sa _ | .contains sa _ => if mu.phase = .acquire then some sa.toNat else none
  | .readword sa _ | .release sa => if mu.phase = .body then some sa.toNat else none
  | .iscompat sa sb | .verifycompat sa sb | .unionip sa sb | .union _ sa sb =>
    if mu.phase = .acquire then (s.lockList sa sb)[mu.held.length]? else none
  | .copy _ sa => if mu.phase = .acquire then [sa.toNat][mu.held.length]? else none
  | .create .. | .newcompat .. | .getm .. | .getk .. | .getn .. | .getkey .. => none

/-- Somebody holds the guard of slot `x`. -/
def State.guarded (s : State) (x : Nat) : Prop := (s.slot x).wr ≠ none ∨ (s.slot x).rd ≠ 0

theorem State.guarded.lt (hg : s.guarded x) : x < s.slots.length := by
  by_contra hx
  simp [State.guarded, slot_of_ge _ _ (Nat.le_of_not_lt hx), Slot.reset] at hg

theorem guarded_of_not_sharedGrantable (h : s.sharedGrantable x = false) : s.guarded x :=
  .inl (by simpa [State.sharedGrantable, Option.isSome_iff_ne_none] using h)

theorem guarded_of_not_exclusiveGrantable (h : s.exclusiveGrantable x = false) : s.guarded x := by
  simpa [State.exclusiveGrantable, State.guarded, ← imp_iff_not_or] using h

theorem guarded_of_not_nextGrantable {order : List Nat} (h : s.nextGrantable mu order = false) :
    ∃ x, order[mu.held.length]? = some x ∧ s.guarded x := by
  unfold State.nextGrantable at h
  cases ho : order[mu.held.length]? with
  | none => simp [ho] at h
  | some x => exact ⟨x, rfl, guarded_of_not_exclusiveGrantable (by simpa [ho] using h)⟩

/-- A command that may not take its next micro-step awaits a guard that somebody holds. -/
theorem guarded_of_not_grantable (h : s.grantable mu = false) :
    ∃ x, s.awaited mu = some x ∧ s.guarded x := by
  unfold State.grantable at h
  unfold State.awaited
  cases hc : mu.cmd <;> simp only [hc] at h ⊢
  case add | addc | contains | readword =>
    split at h
    · exact ⟨_, if_pos ‹_›, guarded_of_not_sharedGrantable h⟩
    · simp at h
  case release =>
    split at h
    · exact ⟨_, if_pos ‹_›, guarded_of_not_exclusiveGrantable h⟩
    · simp at h
  case iscompat | verifycompat | unionip | union | copy =>
    split at h
    · rw [if_pos ‹_›]
      exact guarded_of_not_nextGrantable h
    · simp at h
  all_goals simp at h

/-- Of the guards of a lock order, those held come before the one awaited (R56). -/
theorem pair_sublist_of_exclusiveOk {dest : Option Nat} {order : List Nat}
    (hok : exclusiveOk mu dest order = true) (hp : mu.phase = .acquire)
    (hx : order[mu.held.length]? = some x) (hy : (y, mode) ∈ mu.held) :
    [y, x].Sublist order := by
  obtain ⟨-, ⟨hr, -⟩ | ⟨-, ⟨-, -, hh⟩ | ⟨hb, -⟩⟩⟩ := exclusiveOk_iff.1 hok
  · simp [hp] at hr
  · have hmem : y ∈ order.take mu.held.length := by
      rw [hh] at hy
      obtain ⟨z, hz, he⟩ := List.mem_map.1 hy
      obtain ⟨rfl, -⟩ := Prod.mk.inj he
      exact hz
    have hlast : order.take mu.held.length ++ [x] = order.take (mu.held.length + 1) := by
      rw [List.take_add_one, hx]
      rfl
    have hpair : [y, x].Sublist (order.take mu.held.length ++ [x]) :=
      (List.singleton_sublist.2 hmem).append_right [x]
    exact (hlast ▸ hpair).trans (List.take_sublist ..)
  · simp [hp] at hb

/-- A command that awaits a guard holds at most the guards before it in its lock order (R51, R56).
-/
theorem pair_sublist_of_awaited (hok : s.microOk mu = true) (hx : s.awaited mu = some x)
    (hy : (y, mode) ∈ mu.held) : ∃ sa sb, [y, x].Sublist (s.lockList sa sb) := by
  rw [State.microOk, Bool.and_eq_true] at hok
  obtain ⟨-, hok⟩ := hok
  unfold State.awaited at hx
  cases hc : mu.cmd <;> simp only [hc, Option.ite_none_right_eq_some, reduceCtorEq] at hok hx
  case add | addc | contains =>
    obtain ⟨-, h0, -⟩ := loopOk_acquire hok hx.1 (by decide)
    simp [h0] at hy
  case readword | release =>
    obtain ⟨-, h0, -⟩ := oneStepOk_iff.1 hok
    simp [h0] at hy
  case iscompat sa sb | verifycompat sa sb | unionip sa sb | union sd sa sb =>
    exact ⟨sa, sb, pair_sublist_of_exclusiveOk hok hx.1 hx.2 hy⟩
  case copy sd sa =>
    have hlen := (pair_sublist_of_exclusiveOk hok hx.1 hx.2 hy).length_le
    simp at hlen

/-- A command does not await a guard it holds (R57). -/
theorem not_mem_held_of_awaited (hok : s.microOk mu = true) (hx : s.awaited mu = some x) :
    (x, mode) ∉ mu.held := by
  intro hg
  obtain ⟨sa, sb, hsub⟩ := pair_sublist_of_awaited hok hx hg
  exact absurd (hsub.nodup (lockOrder_nodup ..)) (by simp)

/-- Under `CANONICAL` a command awaits a guard of a slot above those it holds (R56). -/
theorem lt_awaited_of_canonical (hc : s.cfg.lockOrder = .canonical) (hok : s.microOk mu = true)
    (hx : s.awaited mu = some x) (hy : (y, mode) ∈ mu.held) : y < x := by
  obtain ⟨sa, sb, hsub⟩ := pair_sublist_of_awaited hok hx hy
  rw [State.lockList, hc] at hsub
  exact List.pairwise_iff_forall_sublist.1 (lockOrder_canonical_sorted ..) hsub

/-- A held guard has a holder (R27). -/
theorem State.Sound.exists_holder (h : s.Sound) (hg : s.guarded x) :
    ∃ p mu mode, (s.port p).busy = some mu ∧ (x, mode) ∈ mu.held := by
  have hholds : ∃ p mode, (x, mode) ∈ (s.port p).holds := by
    have ho := h.holders x hg.lt
    obtain hw | hr := hg
    · obtain ⟨p, hw⟩ := Option.ne_none_iff_exists'.1 hw
      have hcount := ho.exclusive p (ho.holder p hw)
      rw [if_pos hw] at hcount
      exact ⟨p, .exclusive, List.count_pos_iff.1 (hcount ▸ Nat.one_pos)⟩
    · rw [← ho.shared, ne_eq, List.sum_eq_zero_iff] at hr
      push Not at hr
      obtain ⟨n, hn, hpos⟩ := hr
      obtain ⟨port, hport, rfl⟩ := List.mem_map.1 hn
      obtain ⟨p, hp, rfl⟩ := List.mem_iff_getElem.1 hport
      exact ⟨p, .shared, port_of_lt _ _ hp ▸ List.count_pos_iff.1 (Nat.pos_of_ne_zero hpos)⟩
  obtain ⟨p, mode, hmem⟩ := hholds
  cases hb : (s.port p).busy with
  | none => simp [Port.holds, hb] at hmem
  | some mu => exact ⟨p, mu, mode, hb, by simpa [Port.holds, hb] using hmem⟩

/-! ## No run is stuck under `CANONICAL` -/

/-- Under `CANONICAL` the holder of a guard is enabled or awaits a guard of a higher slot, so the
waits end at an enabled port. -/
theorem State.Sound.exists_enabled_of_guarded (h : s.Sound) (hc : s.cfg.lockOrder = .canonical)
    (hg : s.guarded x) : ∃ p, s.enabled p = true := by
  induction hn : s.slots.length - x using Nat.strong_induction_on generalizing x with
  | _ n ih =>
    obtain ⟨p, mu, mode, hb, hmem⟩ := h.exists_holder hg
    by_cases hgrant : s.grantable mu = true
    · exact ⟨p, enabled_iff.2 (.inr ⟨mu, hb, hgrant⟩)⟩
    · obtain ⟨y, hy, hyg⟩ := guarded_of_not_grantable (Bool.not_eq_true _ ▸ hgrant)
      have hlt := lt_awaited_of_canonical hc (microOk_of_inv (inv_iff.2 h) hb) hy hmem
      have hbound := hyg.lt
      exact ih _ (by omega) hyg rfl

/-- Settles O57: a port with work left is enabled, or it awaits a guard that somebody holds. -/
theorem canonicalRunsAreNeverStuck : Obligations.CanonicalRunsAreNeverStuck := by
  rintro s hinv hc ⟨q, -, hleft⟩
  have h := inv_iff.1 hinv
  have henabled : ∃ p, s.enabled p = true := by
    by_cases hq : s.enabled q = true
    · exact ⟨q, hq⟩
    rw [enabled_iff, not_or] at hq
    obtain ⟨hidle, hbusy⟩ := hq
    cases hb : (s.port q).busy with
    | none =>
      have hpc : (s.port q).pc < (s.port q).prog.length := hleft.resolve_left (by simp [hb])
      exact absurd ⟨_, hb, List.getElem?_eq_getElem hpc⟩ hidle
    | some mu =>
      have hgrant : s.grantable mu = false :=
        Bool.eq_false_iff.2 fun hg => hbusy ⟨mu, hb, hg⟩
      obtain ⟨x, -, hx⟩ := guarded_of_not_grantable hgrant
      exact h.exists_enabled_of_guarded hc hx
  refine ⟨henabled, h.step_cases.resolve_right ?_⟩
  rintro ⟨hnone, -⟩
  obtain ⟨p, hp⟩ := henabled
  simp [hnone p] at hp

/-! ## Two ports that wait for each other under `ARG_ORDER` -/

/-- A two-filter command with operands `a` and `b`, in that order (R56). -/
def TwoFilters (i : Instr) (a b : SlotNum) : Prop :=
  i ∈ [Instr.unionip a b, .iscompat a b, .verifycompat a b] ∨ ∃ sd, i = .union sd a b

/-- A two-filter command acquires the guards of its lock order. -/
theorem TwoFilters.grantable (h : TwoFilters mu.cmd a b) (hp : mu.phase = .acquire) :
    s.grantable mu = s.nextGrantable mu (s.lockList a b) := by
  simp only [TwoFilters, List.mem_cons, List.not_mem_nil, or_false] at h
  rw [State.grantable]
  obtain (hc | hc | hc) | ⟨sd, hc⟩ := h <;> simp only [hc, if_pos hp]

/-- Under `ARG_ORDER` a two-filter command that holds its first guard waits while another port holds
its second one (R56). -/
theorem State.Sound.stepPort_waiting_of_opposite (h : s.Sound)
    (hc : s.cfg.lockOrder = .argOrder) (hab : a ≠ b) (hb : (s.port p).busy = some mu)
    (hcmd : TwoFilters mu.cmd a b) (hp : mu.phase = .acquire)
    (hheld : mu.held = [(a.toNat, .exclusive)])
    (hother : (b.toNat, Mode.exclusive) ∈ (s.port q).holds) : s.stepPort p = .fault .waiting := by
  have hne : a.toNat ≠ b.toNat := fun he => hab (BitVec.eq_of_toNat_eq he)
  have hw := h.wr_of_mem_holds (h.lt_of_mem_holds hother) hother
  refine h.stepPort_waiting hb ?_
  rw [hcmd.grantable hp]
  simp [State.nextGrantable, State.lockList, lockOrder, hc, hne, hheld, State.exclusiveGrantable,
    hw]

/-- Settles O56: neither port moves, so both hold their guards and wait in every state of the run.
-/
theorem oppositeOperandOrdersDeadlock : Obligations.OppositeOperandOrdersDeadlock := by
  intro s p q a b mu mu' hinv hc hab hb hb' hcmd hcmd' hp hp' hheld hheld' t hrun
  have hwait : ∀ u : State, u.Sound → u.cfg = s.cfg → u.port p = s.port p → u.port q = s.port q →
      u.stepPort p = .fault .waiting ∧ u.stepPort q = .fault .waiting := by
    intro u hu hcfg hup huq
    rw [← hcfg] at hc
    rw [← hup] at hb
    rw [← huq] at hb'
    exact ⟨hu.stepPort_waiting_of_opposite hc hab hb hcmd hp hheld
        (q := q) (by simp [Port.holds, hb', hheld']),
      hu.stepPort_waiting_of_opposite hc hab.symm hb' hcmd' hp' hheld'
        (q := p) (by simp [Port.holds, hb, hheld])⟩
  obtain ⟨ht, hcfg, htp, htq⟩ :
      t.Sound ∧ t.cfg = s.cfg ∧ t.port p = s.port p ∧ t.port q = s.port q := by
    refine hrun.induct
      (Q := fun u => u.Sound ∧ u.cfg = s.cfg ∧ u.port p = s.port p ∧ u.port q = s.port q)
      ⟨inv_iff.1 hinv, rfl, rfl, rfl⟩ ?_
    rintro u v - - ⟨hu, hcfg, hup, huq⟩ ⟨r, hr⟩
    obtain ⟨hwp, hwq⟩ := hwait u.advance hu.advance hcfg hup huq
    have hrp : p ≠ r := by rintro rfl; simp [hwp] at hr
    have hrq : q ≠ r := by rintro rfl; simp [hwq] at hr
    obtain ⟨hcfg', -, -, hport, -⟩ := microStepsAnswerOnceAndKeepOtherPorts _ _ _ hr
    exact ⟨hu.moves ⟨r, hr⟩, hcfg'.trans hcfg, (hport p hrp).trans hup, (hport q hrq).trans huq⟩
  obtain ⟨hwp, hwq⟩ := hwait t ht hcfg htp htq
  refine ⟨hwp, hwq, htp, htq, fun hend => ?_⟩
  obtain ⟨u, hu⟩ | ⟨hidle, -⟩ | ⟨-, -, hstuck⟩ :=
    stepStopsOnlyAtTheEndOrStuck t (inv_iff.2 ht)
  · simp [hu] at hend
  · have hlt : p < t.ports.length := turn_lt_of_inFlight { t with turn := p } (htp ▸ hb)
    simp [(hidle p hlt).1, ← htp] at hb
  · simp [hstuck] at hend

end Sys2Proof.Machine
end

section
/-! Every run is finite (R187): each micro-step of a command in flight leaves it fewer micro-steps,
the decode step leaves fewer than the bound of its command, and no move changes the work of another
port. -/

namespace Sys2Proof.Machine

variable {s t u : State} {mu nu nu' : MicroState} {i : Instr} {p q x : Nat} {ph : Phase}
  {sa : SlotNum} {c : Command} {st : Status} {v : Word}

/-! ## The command in flight after a micro-step -/

@[simp] theorem respond_inFlight (s : State) (st : Status) (v : Word) :
    (s.respond st v).inFlight = none := by
  rw [State.inFlight, respond_turn, State.respond, port_modifyPort]
  split
  next => rfl
  next h => rw [port_of_ge _ _ (by simpa using h)]; rfl

@[simp] theorem finish_inFlight (s : State) (st : Status) (v : Word) :
    (s.finish st v).inFlight = none := respond_inFlight ..

@[simp] theorem fail_inFlight (s : State) (st : Status) (v : Word) :
    (s.fail st v).inFlight = none := respond_inFlight ..

/-- The ports after a micro-step of port `p` that goes on. -/
theorem GoesOn.ports_eq (h : GoesOn { s with turn := p } t mu) :
    t.port p = { s.port p with busy := some mu } ∧ ∀ q, q ≠ p → t.port q = s.port q := by
  obtain ⟨-, -, -, -, -, -, hother, hp⟩ := h
  exact ⟨hp, hother⟩

theorem eq_of_setInFlight (hgo : (u.setInFlight nu').inFlight = some nu)
    (hf : u.inFlight = some mu) : nu' = nu := by
  have hset := (setInFlight_goesOn (turn_lt_of_inFlight _ hf) nu').inFlight
  exact Option.some.inj (hset.symm.trans hgo)

/-- No body of a command that needs compatible filters goes on. -/
theorem inFlight_of_compatibleBody {mask : Word} (hu : u.inFlight = none)
    (h : (if mask ≠ 0#64 then .next (s.fail .incompatible mask) else .next u : Result) = .next t) :
    t.inFlight = none := by
  split at h <;> obtain rfl := Host.Outcome.next.inj h
  · exact fail_inFlight ..
  · exact hu

/-! ## The micro-steps left -/

/-- The micro-steps a loop over keys takes for each key (R115 to R117). -/
def stepsPerKey : Instr → Nat
  | .addc .. => 2
  | _ => 1

/-- Command `i` loops over the keys of slot `sa`, and begins each round in phase `ph`. -/
def LoopsFrom (i : Instr) (sa : SlotNum) (ph : Phase) : Prop :=
  (∃ hash, i = .add sa hash ∧ ph = .set) ∨ (∃ hash, i = .addc sa hash ∧ ph = .load) ∨
    ∃ hash, i = .contains sa hash ∧ ph = .load

theorem stepsLeft_of_body (hp : mu.phase = .body) : s.stepsLeft mu = 1 := by
  unfold State.stepsLeft
  split <;> rw [hp]

theorem stepsLeft_of_loop_acquire (hi : LoopsFrom mu.cmd sa ph) (hp : mu.phase = .acquire) :
    s.stepsLeft mu = stepsPerKey mu.cmd * s.cfg.maxK + 2 := by
  obtain ⟨hash, hc, -⟩ | ⟨hash, hc, -⟩ | ⟨hash, hc, -⟩ := hi <;>
    simp [State.stepsLeft, stepsPerKey, hc, hp]

/-- A loop over keys at the beginning of a round, or past its last one. -/
theorem stepsLeft_of_loopPhase (hi : LoopsFrom mu.cmd sa ph)
    (hp : mu.phase = s.loopPhase sa.toNat mu.pos ph)
    (hk : t.keyCount sa.toNat = s.keyCount sa.toNat) :
    t.stepsLeft mu = stepsPerKey mu.cmd * (s.keyCount sa.toNat - mu.pos) + 1 := by
  unfold State.loopPhase at hp
  split at hp
  · obtain ⟨hash, hc, rfl⟩ | ⟨hash, hc, rfl⟩ | ⟨hash, hc, rfl⟩ := hi <;>
      simp [State.stepsLeft, stepsPerKey, hc, hp, hk]
  · rw [stepsLeft_of_body hp, Nat.sub_eq_zero_of_le (by omega), Nat.mul_zero]

theorem stepsLeft_of_reserve (hl : loopsOverKeys mu.cmd = false) (hp : mu.phase = .reserve) :
    s.stepsLeft mu = 4 := by
  unfold State.stepsLeft
  cases hc : mu.cmd <;> simp [hc, loopsOverKeys, Instr.op] at hl <;> simp [hp]

theorem stepsLeft_of_exclusive_acquire (hl : loopsOverKeys mu.cmd = false)
    (hp : mu.phase = .acquire) : s.stepsLeft mu = 3 - mu.held.length := by
  unfold State.stepsLeft
  cases hc : mu.cmd <;> simp [hc, loopsOverKeys, Instr.op] at hl <;> simp [hp]

/-- A command just decoded has fewer micro-steps left than its bound, which counts the decode step
(R187). -/
theorem stepsLeft_init_lt (s : State) (i : Instr) :
    s.stepsLeft (MicroState.init i) < stepBound s.cfg i := by
  cases i <;> simp [State.stepsLeft, MicroState.init, firstPhase, stepBound]

theorem lockOrder_length_le (mode : LockOrder) (a b : Nat) : (lockOrder mode a b).length ≤ 2 := by
  unfold lockOrder
  split
  · simp
  · cases mode <;> simp

theorem stepsLeft_pos_of_exclusiveOk {dest : Option Nat} {order : List Nat}
    (hl : loopsOverKeys mu.cmd = false) (hok : exclusiveOk mu dest order = true)
    (hlen : order.length ≤ 2) : 0 < s.stepsLeft mu := by
  obtain ⟨-, ⟨hp, -⟩ | ⟨-, ⟨hp, hlt, -⟩ | ⟨hp, -⟩⟩⟩ := exclusiveOk_iff.1 hok
  · simp [stepsLeft_of_reserve hl hp]
  · rw [stepsLeft_of_exclusive_acquire hl hp]
    omega
  · simp [stepsLeft_of_body hp]

/-- A command in flight has a micro-step left. -/
theorem stepsLeft_pos (hok : s.microOk mu = true) : 0 < s.stepsLeft mu := by
  rw [State.microOk, Bool.and_eq_true] at hok
  obtain ⟨-, hok⟩ := hok
  cases hc : mu.cmd <;> simp only [hc] at hok
  case add | contains =>
    simp only [State.stepsLeft, hc]
    split <;> omega
  case addc sa hash =>
    cases hp : mu.phase <;> simp only [State.stepsLeft, hc, hp]
    case set =>
      have hlt := loopOk_pos_lt hok (by simp [hp]) (by simp [hp])
      omega
    all_goals omega
  case iscompat | verifycompat | unionip | union =>
    exact stepsLeft_pos_of_exclusiveOk (by rw [hc]; rfl) hok (lockOrder_length_le ..)
  case copy => exact stepsLeft_pos_of_exclusiveOk (by rw [hc]; rfl) hok (by simp)
  all_goals
    obtain ⟨hp, -⟩ := oneStepOk_iff.1 hok
    simp [stepsLeft_of_body hp]

/-- The micro-steps left depend on the state by the key counts of the slots the command holds. -/
theorem stepsLeft_congr (hok : s.microOk mu = true) (hcfg : t.cfg = s.cfg)
    (hk : ∀ x mode, (x, mode) ∈ mu.held → t.keyCount x = s.keyCount x) :
    t.stepsLeft mu = s.stepsLeft mu := by
  have hloop : ∀ {x phases}, s.loopOk mu x phases = true → mu.phase ≠ .acquire →
      t.keyCount x = s.keyCount x := fun hl hp => by
    obtain ⟨-, hh, -⟩ := loopOk_acquired hl hp
    exact hk _ .shared (by simp [hh])
  rw [State.microOk, Bool.and_eq_true] at hok
  obtain ⟨-, hok⟩ := hok
  unfold State.stepsLeft
  cases hc : mu.cmd <;> simp only [hc] at hok ⊢
  case add | addc | contains =>
    by_cases hp : mu.phase = .acquire
    · simp only [hp, hcfg]
    · rw [hloop hok hp, hcfg]

/-! ## A micro-step leaves fewer -/

theorem keyCount_modifySlot (s : State) (x y : Nat) (f : Slot → Slot)
    (hk : ∀ r, (f r).k = r.k) : (s.modifySlot x f).keyCount y = s.keyCount y := by
  unfold State.keyCount
  rw [slot_modifySlot]
  split
  next hyx => rw [hk, hyx.1]
  next => rfl

/-- The acquisition of a loop over keys (R51). -/
theorem State.Sound.stepsLeft_lt_of_sharedAcquisition (h : s.Sound) (hf : s.inFlight = some mu)
    (hi : LoopsFrom mu.cmd sa ph) (hp : mu.phase = .acquire)
    (ht : ((s.slot sa.toNat).st ≠ .valid ∧ t = s.fail .badSlot 0#64) ∨
      ((s.slot sa.toNat).st = .valid ∧
        t = (s.modifySlot sa.toNat fun u => { u with rd := u.rd + 1 }).setInFlight
          { mu with
            held  := mu.held ++ [(sa.toNat, .shared)]
            phase := s.loopPhase sa.toNat mu.pos ph }))
    (hgo : t.inFlight = some nu) : t.stepsLeft nu < s.stepsLeft mu := by
  obtain ⟨-, rfl⟩ | ⟨hv, rfl⟩ := ht
  · simp at hgo
  · obtain rfl := eq_of_setInFlight hgo hf
    have hmax : s.keyCount sa.toNat ≤ s.cfg.maxK := (h.filter_of_valid (lt_of_valid hv) hv).maxK
    have hmul := Nat.mul_le_mul_left (stepsPerKey mu.cmd) (hmax.trans' (Nat.sub_le _ mu.pos))
    have hk := keyCount_modifySlot s sa.toNat sa.toNat (fun u => { u with rd := u.rd + 1 })
      fun _ => rfl
    refine lt_of_eq_of_lt (stepsLeft_of_loopPhase hi rfl hk) ?_
    rw [stepsLeft_of_loop_acquire hi hp]
    exact Nat.lt_succ_of_le (Nat.succ_le_succ hmul)

/-- A loop over keys that passes a key has one round less left (R115 to R117). -/
theorem stepsLeft_of_nextKey (hi : LoopsFrom nu.cmd sa ph) (hpos : nu.pos = mu.pos + 1)
    (hp : nu.phase = s.loopPhase sa.toNat nu.pos ph) (hlt : mu.pos < s.keyCount sa.toNat)
    (hk : t.keyCount sa.toNat = s.keyCount sa.toNat) :
    t.stepsLeft nu =
      stepsPerKey nu.cmd * (s.keyCount sa.toNat - mu.pos) + 1 - stepsPerKey nu.cmd := by
  have hround : s.keyCount sa.toNat - mu.pos = s.keyCount sa.toNat - nu.pos + 1 := by omega
  rw [stepsLeft_of_loopPhase hi hp hk, hround, Nat.mul_succ]
  omega

/-- A command that takes exclusive guards: its reservation and its guards, two at most (R56). -/
theorem stepsLeft_lt_of_exclusiveSteps (hf : s.inFlight = some mu)
    (hl : loopsOverKeys mu.cmd = false) {dest : Option SlotNum} {order : List Nat} {body : Result}
    (hlen : order.length ≤ 2) (he : s.exclusiveSteps i dest order body = .next t)
    (hbody : body = .next t → t.inFlight = none) (hgo : t.inFlight = some nu) :
    t.stepsLeft nu < s.stepsLeft mu := by
  obtain ⟨hp, sd, -, ⟨-, rfl⟩ | ⟨-, rfl⟩⟩ | ⟨hp, x, hx, -, -, ⟨-, rfl⟩ | ⟨-, rfl⟩⟩ | ⟨-, hb⟩ :=
    exclusiveSteps_next hf he
  · simp at hgo
  · obtain rfl := eq_of_setInFlight hgo hf
    rw [stepsLeft_of_reserve hl hp]
    exact lt_of_eq_of_lt (stepsLeft_of_exclusive_acquire hl rfl) (by omega)
  · simp at hgo
  · obtain rfl := eq_of_setInFlight hgo hf
    obtain ⟨hlt, -⟩ := List.getElem?_eq_some_iff.1 hx
    rw [stepsLeft_of_exclusive_acquire hl hp]
    by_cases hlast : mu.held.length + 1 = order.length
    · exact lt_of_eq_of_lt (stepsLeft_of_body (if_pos hlast)) (by omega)
    · refine lt_of_eq_of_lt (stepsLeft_of_exclusive_acquire hl (if_neg hlast)) ?_
      rw [List.length_append, List.length_singleton]
      omega
  · simp [hbody hb] at hgo

/-- A set step leaves the key counts (R23). -/
theorem keyCount_setStep (s : State) (x : Nat) (hash : Word) (j y : Nat) (nu : MicroState) :
    ((s.setTarget x hash j).setInFlight nu).keyCount y = s.keyCount y :=
  keyCount_modifySlot s x y _ fun _ => rfl

/-- A command in flight that goes on has fewer micro-steps left (R187). -/
theorem State.Sound.stepsLeft_lt_of_exec (h : s.Sound) (hf : s.inFlight = some mu)
    (hi : mu.cmd = i) (he : exec i s = .next t) (hgo : t.inFlight = some nu) :
    t.stepsLeft nu < s.stepsLeft mu := by
  have hok := h.microOk hf
  rw [State.microOk, Bool.and_eq_true, hi] at hok
  obtain ⟨-, hok⟩ := hok
  cases i with
  | create sd m keys =>
    obtain ⟨-, ⟨_, -, rfl⟩ | ⟨-, -, -, -, -, -, rfl⟩⟩ := execCreate_next hf he <;> simp at hgo
  | newcompat sd sa =>
    obtain ⟨-, ⟨-, rfl⟩ | ⟨-, -, rfl⟩ | ⟨-, -, rfl⟩⟩ := execNewcompat_next hf he <;> simp at hgo
  | release sa =>
    obtain ⟨-, -, -, ⟨-, rfl⟩ | ⟨-, rfl⟩⟩ := execRelease_next hf he <;> simp at hgo
  | add sa hash =>
    have hloop : LoopsFrom mu.cmd sa .set := .inl ⟨hash, hi, rfl⟩
    obtain ⟨hp, -, ht⟩ | ⟨hp, rfl⟩ | ⟨-, rfl⟩ := execAdd_next hf he
    · exact h.stepsLeft_lt_of_sharedAcquisition hf hloop hp ht hgo
    · obtain rfl := eq_of_setInFlight hgo hf
      have hlt := loopOk_pos_lt hok (by simp [hp]) (by simp [hp])
      refine lt_of_eq_of_lt (stepsLeft_of_nextKey hloop rfl rfl hlt
        (keyCount_setStep s _ hash _ _ _)) ?_
      simp [State.stepsLeft, stepsPerKey, hi, hp]
    · simp at hgo
  | addc sa hash =>
    have hloop : LoopsFrom mu.cmd sa .load := .inr (.inl ⟨hash, hi, rfl⟩)
    obtain ⟨hp, -, ht⟩ | ⟨hp, rfl⟩ | ⟨hp, rfl⟩ | ⟨-, rfl⟩ := execAddc_next hf he
    · exact h.stepsLeft_lt_of_sharedAcquisition hf hloop hp ht hgo
    · obtain rfl := eq_of_setInFlight hgo hf
      simp [State.stepsLeft, hi, hp, State.keyCount]
    · obtain rfl := eq_of_setInFlight hgo hf
      have hlt := loopOk_pos_lt hok (by simp [hp]) (by simp [hp])
      refine lt_of_eq_of_lt (stepsLeft_of_nextKey hloop rfl rfl hlt
        (keyCount_setStep s _ hash _ _ _)) ?_
      simp [State.stepsLeft, stepsPerKey, hi, hp]
      omega
    · simp at hgo
  | contains sa hash =>
    have hloop : LoopsFrom mu.cmd sa .load := .inr (.inr ⟨hash, hi, rfl⟩)
    obtain ⟨hp, -, ht⟩ | ⟨hp, rfl⟩ | ⟨-, rfl⟩ := execContains_next hf he
    · exact h.stepsLeft_lt_of_sharedAcquisition hf hloop hp ht hgo
    · obtain rfl := eq_of_setInFlight hgo hf
      have hlt := loopOk_pos_lt hok (by simp [hp]) (by simp [hp])
      refine lt_of_eq_of_lt (stepsLeft_of_nextKey hloop rfl rfl hlt (by exact rfl)) ?_
      simp [State.stepsLeft, stepsPerKey, hi, hp]
    · simp at hgo
  | getm sa =>
    obtain ⟨-, ⟨-, rfl⟩ | ⟨-, rfl⟩⟩ := execGetm_next hf he <;> simp at hgo
  | getk sa =>
    obtain ⟨-, ⟨-, rfl⟩ | ⟨-, rfl⟩⟩ := execGetk_next hf he <;> simp at hgo
  | getn sa =>
    obtain ⟨-, ⟨-, rfl⟩ | ⟨-, rfl⟩⟩ := execGetn_next hf he <;> simp at hgo
  | getkey sa index =>
    obtain ⟨-, ⟨-, rfl⟩ | ⟨-, -, rfl⟩ | ⟨-, -, rfl⟩⟩ := execGetkey_next hf he <;> simp at hgo
  | readword sa index =>
    obtain ⟨-, -, ⟨-, rfl⟩ | ⟨-, -, rfl⟩ | ⟨-, -, rfl⟩⟩ := execReadword_next hf he <;> simp at hgo
  | iscompat sa sb =>
    rw [exec, execIscompat] at he
    refine stepsLeft_lt_of_exclusiveSteps hf (by rw [hi]; rfl) (lockOrder_length_le ..) he
      (fun hb => ?_) hgo
    obtain rfl := Host.Outcome.next.inj hb
    exact finish_inFlight ..
  | verifycompat sa sb =>
    rw [exec, execVerifycompat] at he
    exact stepsLeft_lt_of_exclusiveSteps hf (by rw [hi]; rfl) (lockOrder_length_le ..) he
      (inFlight_of_compatibleBody (finish_inFlight ..)) hgo
  | unionip sa sb =>
    rw [exec, execUnionip] at he
    exact stepsLeft_lt_of_exclusiveSteps hf (by rw [hi]; rfl) (lockOrder_length_le ..) he
      (inFlight_of_compatibleBody (finish_inFlight ..)) hgo
  | union sd sa sb =>
    rw [exec, execUnion] at he
    exact stepsLeft_lt_of_exclusiveSteps hf (by rw [hi]; rfl) (lockOrder_length_le ..) he
      (inFlight_of_compatibleBody (finish_inFlight ..)) hgo
  | copy sd sa =>
    rw [exec, execCopy] at he
    refine stepsLeft_lt_of_exclusiveSteps hf (by rw [hi]; rfl) (by simp) he (fun hb => ?_) hgo
    obtain rfl := Host.Outcome.next.inj hb
    exact finish_inFlight ..

/-! ## The work of a port -/

/-- The work of the commands after the one at a port's index. -/
def Port.workAfter (cfg : Config) (p : Port) : Nat :=
  ((p.prog.drop (p.pc + 1)).map (commandWork cfg)).sum

theorem portWork_busy (hb : (s.port p).busy = some mu) :
    s.portWork (s.port p) = s.stepsLeft mu + (s.port p).workAfter s.cfg := by
  rw [State.portWork, hb]
  rfl

theorem portWork_idle (hb : (s.port p).busy = none) (hn : (s.port p).nextCommand = some c) :
    s.portWork (s.port p) = commandWork s.cfg c + (s.port p).workAfter s.cfg := by
  obtain ⟨hlt, hc⟩ := List.getElem?_eq_some_iff.1 hn
  rw [State.portWork, hb]
  simp only [Port.workAfter]
  rw [List.drop_eq_getElem_cons hlt, hc, List.map_cons, List.sum_cons]

/-- After its response a port has the work of the commands after the one it answered. -/
theorem portWork_of_answers (h : Answers { s with turn := p } t st v) :
    t.portWork (t.port p) = (s.port p).workAfter s.cfg := by
  obtain ⟨hcfg, -, -, -, -, -, -, hp⟩ := h
  simp only [withTurn_port] at hp
  rw [hp, State.portWork, hcfg]
  rfl

theorem portWork_of_goesOn (h : GoesOn { s with turn := p } t mu) :
    t.portWork (t.port p) = t.stepsLeft mu + (s.port p).workAfter s.cfg := by
  obtain ⟨hp, -⟩ := h.ports_eq
  obtain ⟨hcfg, -⟩ := h
  rw [hp, State.portWork, hcfg]
  rfl

theorem commandWork_of_decode (hd : decode c = .ok i) (cfg : Config) :
    commandWork cfg c = stepBound cfg i := by
  rw [commandWork, hd]

theorem commandWork_pos (cfg : Config) (c : Command) : 0 < commandWork cfg c := by
  unfold commandWork
  split
  · exact Nat.one_pos
  next i _ => cases i <;> simp [stepBound]

/-- A command answered in its decode step takes its work along. -/
theorem portWork_lt_of_rejected (hb : (s.port p).busy = none)
    (hn : (s.port p).nextCommand = some c) (hans : Answers { s with turn := p } t st v) :
    t.portWork (t.port p) < s.portWork (s.port p) := by
  rw [portWork_of_answers hans, portWork_idle hb hn]
  exact Nat.lt_add_of_pos_left (commandWork_pos ..)

/-- A command in flight leaves less work, going on or answering. -/
theorem State.Sound.portWork_lt_of_busy (h : s.Sound) (hb : (s.port p).busy = some mu)
    (he : s.stepPort p = .next t) : t.portWork (t.port p) < s.portWork (s.port p) := by
  rw [portWork_busy hb]
  obtain ⟨nu, hgo⟩ | ⟨st, v, hans⟩ := stepPort_goesOn_or_answers he
  · have hlt : t.stepsLeft nu < s.stepsLeft mu :=
      (h.withArbitration p s.schedule s.fresh).stepsLeft_lt_of_exec hb rfl
        (exec_of_stepPort hb he) hgo.inFlight
    rw [portWork_of_goesOn hgo]
    exact Nat.add_lt_add_right hlt _
  · rw [portWork_of_answers hans]
    exact Nat.lt_add_of_pos_left (stepsLeft_pos (microOk_of_inv (inv_iff.2 h) hb))

/-- The port that moves has less work after its micro-step (R187). -/
theorem State.Sound.portWork_lt (h : s.Sound) (he : s.stepPort p = .next t) :
    t.portWork (t.port p) < s.portWork (s.port p) := by
  obtain ⟨hp, ⟨c, st, hb, hn, -, rfl⟩ | ⟨c, i, hb, hn, hd, ⟨-, rfl⟩ | ⟨-, rfl⟩⟩ | ⟨mu, hb, -⟩⟩ :=
    stepPort_next he
  · exact portWork_lt_of_rejected hb hn (respond_answers (s := { s with turn := p }) hp ..)
  · exact portWork_lt_of_rejected hb hn (respond_answers (s := { s with turn := p }) hp ..)
  · rw [portWork_of_goesOn (setInFlight_goesOn (s := { s with turn := p }) hp _),
      portWork_idle hb hn, commandWork_of_decode hd]
    exact Nat.add_lt_add_right (stepsLeft_init_lt _ i) _
  · exact h.portWork_lt_of_busy hb he

/-- A move of one port leaves the work of every other: the slots it holds keep their keys (R23). -/
theorem State.Sound.portWork_other (h : s.Sound) (he : s.advance.stepPort p = .next t)
    (hne : q ≠ p) : t.portWork (t.port q) = s.portWork (s.port q) := by
  have hm : Moves s t := ⟨p, he⟩
  have ht := h.moves hm
  obtain ⟨hcfg, -, -, hport, -⟩ := microStepsAnswerOnceAndKeepOtherPorts _ _ _ he
  have hport : t.port q = s.port q := hport q hne
  cases hb : (s.port q).busy with
  | none =>
    rw [hport, State.portWork, State.portWork, hb, hcfg]
    rfl
  | some mu =>
    have hleft : t.stepsLeft mu = s.stepsLeft mu := by
      refine stepsLeft_congr (microOk_of_inv (inv_iff.2 h) hb) hcfg fun x mode hg => ?_
      have hs : (x, mode) ∈ (s.port q).holds := by simpa [Port.holds, hb] using hg
      have hg' : (x, mode) ∈ (t.port q).holds := hport ▸ hs
      exact h.keyCount_stays hm (h.valid_of_mem_holds (h.lt_of_mem_holds hs) hs)
        (ht.valid_of_mem_holds (ht.lt_of_mem_holds hg') hg')
    rw [portWork_busy hb, portWork_busy (hport ▸ hb), hleft, hport, hcfg]
    rfl

/-! ## The work of a run -/

theorem work_eq_sum (s : State) :
    s.work = ∑ q ∈ Finset.range s.ports.length, s.portWork (s.port q) := by
  rw [State.work, Finset.sum_range, ← Fin.sum_univ_fun_getElem]
  exact Finset.sum_congr rfl fun q _ => by rw [port_of_lt _ _ q.isLt]

/-- Every move leaves less work (R187). -/
theorem State.Sound.work_lt (h : s.Sound) (hm : Moves s t) : t.work < s.work := by
  obtain ⟨p, he⟩ := hm
  obtain ⟨hp, -⟩ := stepPort_next he
  obtain ⟨-, hlen, -⟩ := microStepsAnswerOnceAndKeepOtherPorts _ _ _ he
  have hlt : t.portWork (t.port p) < s.portWork (s.port p) := h.advance.portWork_lt he
  rw [work_eq_sum, work_eq_sum, hlen]
  refine Finset.sum_lt_sum (fun q _ => ?_) ⟨p, Finset.mem_range.2 hp, hlt⟩
  by_cases hq : q = p
  · exact hq ▸ hlt.le
  · exact (h.portWork_other he hq).le

/-- A run of one step more is a step and a run from there. -/
theorem exists_step_of_run_succ {M : Host.Core} {n : Nat} {s t : M.State}
    (h : M.run (n + 1) s = .next t) : ∃ u, M.step s = .next u ∧ M.run n u = .next t := by
  rw [Host.Core.run] at h
  cases hstep : M.step s with
  | next u => rw [hstep] at h; exact ⟨u, rfl, h⟩
  | fault f | refused f => simp [hstep] at h

/-- A run takes no more steps than the work at its start (R187). -/
theorem State.Sound.steps_le_work (h : s.Sound) {n : Nat}
    (hrun : Host.Core.run Sys2Proof.core n s = .next t) : n ≤ s.work := by
  induction n generalizing s with
  | zero => exact Nat.zero_le _
  | succ n ih =>
    obtain ⟨u, hstep, hrest⟩ := exists_step_of_run_succ hrun
    have hm : Moves s u := moves_of_step hstep
    exact (ih (h.moves hm) hrest).trans_lt (h.work_lt hm)

/-- At launch the work is that of the commands left (R182, R187). -/
theorem work_of_launchOk (hl : s.launchOk = true) :
    s.work = (s.ports.map fun p => ((p.prog.drop p.pc).map (commandWork s.cfg)).sum).sum := by
  refine congrArg List.sum (List.map_congr_left fun port hport => ?_)
  obtain ⟨q, hq, rfl⟩ := List.mem_iff_getElem.1 hport
  have hb := busy_of_launchOk hl q
  rw [port_of_lt _ _ hq] at hb
  rw [State.portWork, hb]

/-- Settles O58: every move takes work away, so a run takes at most the work at its start. -/
theorem everyRunIsFinite : Obligations.EveryRunIsFinite :=
  ⟨fun _ _ hinv => (inv_iff.1 hinv).work_lt,
    fun _ _ _ hinv => (inv_iff.1 hinv).steps_le_work,
    fun _ => work_of_launchOk⟩

end Sys2Proof.Machine
end

section
/-! A command issued while no other is in flight runs to its response within the bound of R187:
nobody else holds a guard it awaits, and each of its micro-steps leaves it fewer. -/

namespace Sys2Proof.Machine

variable {s t : State} {mu : MicroState} {i : Instr} {p n : Nat} {c : Command} {st : Status}
  {v : Word}

/-- Port `p`, moving alone, answers command `i` within `n` micro-steps, with a status of R152. -/
def RespondsWithin (n : Nat) (s : State) (p : Nat) (i : Instr) : Prop :=
  ∃ k t r, k ≤ n ∧ State.solo p k s = .next t ∧
    (t.port p).busy = none ∧ (t.port p).pc = (s.port p).pc + 1 ∧
    (t.port p).resp = (s.port p).resp ++ [r] ∧ r.status ∈ possibleStatuses i

theorem RespondsWithin.mono {m : Nat} (h : RespondsWithin n s p i) (hle : n ≤ m) :
    RespondsWithin m s p i := by
  obtain ⟨k, t, r, hk, hrest⟩ := h
  exact ⟨k, t, r, hk.trans hle, hrest⟩

theorem respondsWithin_of_answers (hstep : s.stepPort p = .next t)
    (hans : Answers { s with turn := p } t st v) (hst : st ∈ possibleStatuses i) :
    RespondsWithin 1 s p i := by
  obtain ⟨-, -, -, -, -, -, -, hp⟩ := hans
  simp only [withTurn_port] at hp
  exact ⟨1, t, ⟨st, v⟩, le_rfl, solo_of_stepPort hstep 0, by rw [hp], by rw [hp], by rw [hp], hst⟩

/-- A micro-step that goes on keeps the port's index and its responses (R14). -/
theorem respondsWithin_of_goesOn (hstep : s.stepPort p = .next t)
    (hgo : GoesOn { s with turn := p } t mu) (h : RespondsWithin n t p i) :
    RespondsWithin (n + 1) s p i := by
  obtain ⟨hp, -⟩ := hgo.ports_eq
  obtain ⟨k, u, r, hk, hsolo, hb, hpc, hr, hst⟩ := h
  rw [hp] at hpc hr
  exact ⟨k + 1, u, r, Nat.succ_le_succ hk, (solo_of_stepPort hstep k).trans hsolo, hb, hpc, hr, hst⟩

/-- A command in flight alone is enabled: it does not await a guard it holds, and nobody else holds
one (R57). -/
theorem State.Sound.enabled_of_alone (h : s.Sound) (hb : (s.port p).busy = some mu)
    (halone : ∀ q, q ≠ p → (s.port q).busy = none) : s.enabled p = true := by
  rw [enabled_of_busy hb]
  by_contra hgrant
  obtain ⟨x, hx, hguarded⟩ := guarded_of_not_grantable (Bool.not_eq_true _ ▸ hgrant)
  obtain ⟨q, mu', mode, hb', hheld⟩ := h.exists_holder hguarded
  by_cases hq : q = p
  · obtain rfl : mu = mu' := Option.some.inj (hb.symm.trans (hq ▸ hb'))
    exact not_mem_held_of_awaited (microOk_of_inv (inv_iff.2 h) hb) hx hheld
  · simp [halone q hq] at hb'

/-- A command in flight alone answers within the micro-steps it has left. -/
theorem State.Sound.respondsWithin_stepsLeft (h : s.Sound)
    (hn : (s.port p).nextCommand = some c) (hd : decode c = .ok i)
    (hb : (s.port p).busy = some mu) (halone : ∀ q, q ≠ p → (s.port q).busy = none) :
    RespondsWithin (s.stepsLeft mu) s p i := by
  induction hleft : s.stepsLeft mu using Nat.strong_induction_on generalizing s mu with
  | _ n ih =>
    subst hleft
    obtain ⟨t, ht⟩ := h.exists_next_of_enabled (h.enabled_of_alone hb halone)
    cases h.stepPort_givesListed hn hd ht with
    | answers st v hans hst =>
      exact (respondsWithin_of_answers ht hans hst).mono
        (stepsLeft_pos (microOk_of_inv (inv_iff.2 h) hb))
    | goesOn nu hgo =>
      have hlt : t.stepsLeft nu < s.stepsLeft mu :=
        (h.withArbitration p s.schedule s.fresh).stepsLeft_lt_of_exec hb rfl
          (exec_of_stepPort hb ht) hgo.inFlight
      obtain ⟨hp, hother⟩ := hgo.ports_eq
      have hresp : RespondsWithin (t.stepsLeft nu) t p i :=
        ih _ hlt (h.stepPort ht) (by rw [hp]; exact hn) (by rw [hp])
          (fun q hq => by rw [hother q hq]; exact halone q hq) rfl
      exact (respondsWithin_of_goesOn ht hgo hresp).mono hlt

theorem exists_command_of_aboutTo (hab : AboutTo s p i) :
    ∃ c, (s.port p).nextCommand = some c ∧ decode c = .ok i := by
  obtain ⟨c, hn, hd⟩ := Option.bind_eq_some_iff.1 hab.2
  refine ⟨c, hn, ?_⟩
  cases hdec : decode c with
  | error st => simp [hdec, Except.toOption] at hd
  | ok j => exact congrArg Except.ok (by simpa [hdec, Except.toOption] using hd)

/-- Settles O59: the decode step answers, or it leaves fewer micro-steps than the bound. -/
theorem everyCommandAloneResponds : Obligations.EveryCommandAloneResponds := by
  intro s p i hinv hab halone
  have h := inv_iff.1 hinv
  show RespondsWithin (stepBound s.cfg i) s p i
  by_cases hbelow : i.slotsBelow s.cfg.numSlots = true
  · obtain ⟨t, ht, hgo, -⟩ := continuesWith_issue hab hbelow
    have hcfg : t.cfg = s.cfg := hgo.1
    obtain ⟨hp, hother⟩ := hgo.ports_eq
    obtain ⟨c, hn, hd⟩ := exists_command_of_aboutTo hab
    have hresp : RespondsWithin (t.stepsLeft (MicroState.init i)) t p i :=
      (h.stepPort ht).respondsWithin_stepsLeft (by rw [hp]; exact hn) hd (by rw [hp])
        (fun q hq => by rw [hother q hq]; exact halone q hq)
    exact (respondsWithin_of_goesOn ht hgo hresp).mono (hcfg ▸ stepsLeft_init_lt t i)
  · obtain ⟨t, ht, hans, -⟩ := endsWith_badSlot hab hbelow
    exact (respondsWithin_of_answers ht hans (badSlot_mem_possibleStatuses i)).mono
      (Nat.succ_le_of_lt ((Nat.zero_le _).trans_lt (stepsLeft_init_lt s i)))

end Sys2Proof.Machine
end

section
/-! Launch states (R182): they meet the invariant, and from one of them two `ADDC` commands with the
same hash race on one slot and both answer 0 (R190). -/

namespace Sys2Proof.Machine

variable {s t u : State} {x : Nat} {ps : List Nat}

/-! ## The invariant at launch -/

/-- Where no port has a command in flight, a slot that is idle and not reserved agrees with them. -/
theorem holdersOk_of_idle (hidle : ∀ port ∈ s.ports, port.busy = none)
    (hst : (s.slot x).st ≠ .reserved) (hw : (s.slot x).wr = none) (hr : (s.slot x).rd = 0) :
    s.HoldersOk x where
  shared := by
    rw [hr, List.sum_eq_zero_iff]
    intro n hn
    obtain ⟨port, hport, rfl⟩ := List.mem_map.1 hn
    simp [Port.holds, hidle port hport]
  exclusive p hp := by
    have hb : (s.port p).busy = none := port_of_lt _ _ hp ▸ hidle _ (List.getElem_mem hp)
    simp [Port.holds, hb, hw]
  holder p hp := by simp [hw] at hp
  reserved := by
    rw [if_neg hst, List.countP_eq_zero]
    intro port hport
    simp [Port.reserves, hidle port hport]

/-- Every launch state is sound: its slots are valid and idle, and so are its ports (R182). -/
theorem sound_of_launchOk (hl : s.launchOk = true) : s.Sound := by
  simp only [State.launchOk, Bool.and_eq_true, decide_eq_true_eq, List.all_eq_true] at hl
  obtain ⟨⟨⟨⟨hlegal, hslots⟩, hports⟩, hslot⟩, hport⟩ := hl
  have hslot : ∀ x, x < s.slots.length → Memory.wf (s.slot x).bits = true ∧
      (s.slot x).filterOk s.cfg = true ∧ (s.slot x).st ≠ .reserved ∧ (s.slot x).wr = none ∧
      (s.slot x).rd = 0 := fun x hx => by
    simpa [← slot_of_lt _ _ hx, and_assoc] using hslot _ (List.getElem_mem hx)
  have hport : ∀ port ∈ s.ports, port.busy = none ∧ port.pc ≤ port.prog.length := fun port hp => by
    obtain ⟨⟨hb, -⟩, hpc⟩ := hport port hp
    exact ⟨Option.isNone_iff_eq_none.1 hb, hpc⟩
  refine ⟨hlegal, hslots, hports, fun x hx => (hslot x hx).1, fun x hx => (hslot x hx).2.1,
    fun x hx => ?_, fun x hx => ?_, fun p hp => ?_⟩
  · obtain ⟨-, -, -, hw, hr⟩ := hslot x hx
    simp [Slot.guardOk, hw, hr]
  · obtain ⟨-, -, hst, hw, hr⟩ := hslot x hx
    exact holdersOk_of_idle (fun port hp => (hport port hp).1) hst hw hr
  · obtain ⟨hb, hpc⟩ := hport _ (List.getElem_mem hp)
    rw [← port_of_lt] at hb hpc
    simp [State.portOk, hb, hpc]

/-- Settles O43: the invariant's facts hold at launch, where nobody holds or reserves anything. -/
theorem launchStatesMeetTheInvariant : Obligations.LaunchStatesMeetTheInvariant :=
  fun _ hl => inv_iff.2 (sound_of_launchOk hl)

/-! ## The race of two `ADDC` commands -/

/-- The state after one micro-step of each listed port in turn, where each of them answers. -/
def State.interleave (s : State) : List Nat → Option State
  | [] => some s
  | p :: ps =>
    match s.advance.stepPort p with
    | .next t => t.interleave ps
    | .fault _ | .refused _ => none

theorem RunWith.of_interleave (hrun : RunWith (fun _ => True) u s)
    (h : s.interleave ps = some t) : RunWith (fun _ => True) u t := by
  induction ps generalizing s with
  | nil => exact Option.some.inj h ▸ hrun
  | cons p ps ih =>
    simp only [State.interleave] at h
    cases hstep : s.advance.stepPort p with
    | next v =>
      rw [hstep] at h
      exact ih (hrun.move ⟨p, hstep⟩ trivial) h
    | fault f | refused f => simp [hstep] at h

/-- The micro-steps of an interleaving are a run. -/
theorem runWith_of_interleave (h : s.interleave ps = some t) : RunWith (fun _ => True) s t :=
  .of_interleave (.start trivial) h

/-- Two ports of TESTCFG, each with an `ADDC` of hash 5 on slot 0, which holds an empty filter of 64
bits with one key. -/
def raceLaunch : State :=
  { State.reset with
    slots := { Slot.reset with st := .valid, m := 64, k := 1, keys := [1] } ::
      List.replicate 3 Slot.reset
    ports := List.replicate 2 { Port.reset with prog := [encode (.addc 0 5)] } }

/-- Both commands decoded. -/
def raceInFlight : State :=
  { raceLaunch with
    ports := List.replicate 2
      { Port.reset with
        prog := [encode (.addc 0 5)], busy := some (MicroState.init (.addc 0 5)) }
    turn  := 1
    fresh := 2 }

/-- Both commands have answered that the bit was 0. -/
def raceEnd : State :=
  { raceLaunch with
    slots := { Slot.reset with
        st := .valid, m := 64, k := 1, keys := [1], bits := [(0, 0x10)], n := 2 } ::
      List.replicate 3 Slot.reset
    ports := List.replicate 2
      { Port.reset with
        prog := [encode (.addc 0 5)], pc := 1, resp := [{ status := .ok, result := 0 }] }
    turn  := 1
    fresh := 10 }

/-- Each port takes its decode step. -/
theorem interleave_raceLaunch : raceLaunch.interleave [0, 1] = some raceInFlight := by decide

/-- The ports take turns, so both load the bit before either sets it. -/
theorem interleave_raceInFlight :
    raceInFlight.interleave [0, 1, 0, 1, 0, 1, 0, 1] = some raceEnd := by decide

/-- Settles O55: in the race above both commands answer `(OK, 0)`. -/
theorem racingAddcsMayBothSayNew : Obligations.RacingAddcsMayBothSayNew :=
  ⟨raceLaunch, raceInFlight, raceEnd, 0, 5, MicroState.init (.addc 0 5),
    MicroState.init (.addc 0 5), by decide, runWith_of_interleave interleave_raceLaunch,
    rfl, rfl, rfl, rfl, runWith_of_interleave interleave_raceInFlight, rfl, rfl⟩

end Sys2Proof.Machine
end
